-- ==== Sys2Proof/Word.lean ====
section
/-! DEFINITION. The word types of the block: ticks, binary32 encodings, command, event and response words, the channels. -/

namespace Sys2Proof

/-- A tick count: every tick-valued element is 16 bits, arithmetic modulo 65536 (00_scope.md R2). -/
abbrev Tick := BitVec 16

/-- A binary32 encoding, taken bit for bit (00_scope.md R9, 30_encoding.md R52). -/
abbrev F32 := BitVec 32

/-- A 128-bit command word `CW` (30_encoding.md R48). -/
abbrev CmdWord := BitVec 128

/-- A 64-bit response word `RW` (30_encoding.md R54). -/
abbrev RspWord := BitVec 64

/-- An 8-bit event code, format EVT8 (30_encoding.md R55). -/
abbrev EvtCode := BitVec 8

/-- The byte of a channel selector `CH` and of a transported word (30_encoding.md R48, R56). -/
abbrev Byte := BitVec 8

/-- The set of channels, exactly two (00_scope.md R1). -/
inductive Ch where
  | A
  | B
deriving DecidableEq, Repr

/-- The three background event sources (60_exceptions.md R106). -/
inductive Source where
  /-- the zero-cross capture -/
  | capt
  /-- the compare source `CMP[c]` of a channel -/
  | cmp (c : Ch)
deriving DecidableEq, Repr

end Sys2Proof
end

