-- ==== Sys2Proof/Config.lean ====
section
/-! DEFINITION. The parameters the spec leaves open (93_implementation_defined.md section 2) and the one free value. -/

namespace Sys2Proof

/-- `NUMERICS`: how the Channel Timing Map computes (00_scope.md R4). -/
inductive Numerics where
  | exact
  | binary32
deriving DecidableEq, Repr

/-- `IRQ_ORDER`: the dispatch order of pending and enabled sources (60_exceptions.md R108). -/
inductive IrqOrder where
  | free
  | fixed
deriving DecidableEq, Repr

/-- The parameters that some rule reads. They stand in State, where no step writes them, so that a statement about
every state is a statement about every value of every parameter (log 6). -/
structure Params where
  /-- `NUMERICS` (00_scope.md R4) -/
  numerics : Numerics
  /-- `IRQ_ORDER` (60_exceptions.md R108) -/
  irqOrder : IrqOrder
  /-- `PERIOD_SEED` (00_scope.md R3) -/
  periodSeed : Tick
deriving DecidableEq, Repr

/-- The spec's own defaults: `EXACT`, `FREE`, 16667 (93_implementation_defined.md section 2). -/
def Params.default : Params :=
  { numerics := .exact, irqOrder := .free, periodSeed := 16667 }

/-- `TICK_HZ`, a positive rate in ticks per second with no default; no rule reads it (00_scope.md R5). DESIGN CHOICE: it is a
positive rational, given as `(numerator, denominator)`; the spec does not say what kind of number it is (log 6). -/
opaque Config.tickHz : ℕ+ × ℕ+

/-- The free value of the `DATA` field of a response to a `GETB` that faults `DIV0`: any 32-bit value, one for each index
`State.draws` (30_encoding.md R54, 93_implementation_defined.md section 2, log 4). It has no body: nothing can be proved of
it. -/
opaque Config.div0Data : Nat → BitVec 32

end Sys2Proof
end

