-- ==== Sys2Proof/Syntax.lean ====
section
/-! DEFINITION. The steps of the block as syntax: one constructor per row of spec/opcode_table.json, the arrivals that
carry them, and the assembler's lines (30_encoding.md R58, R59). -/

namespace Sys2Proof

/-- The five host commands and the five event steps (30_encoding.md R49, R55). -/
inductive Instr where
  /-- `BEGIN pl, mto, on, off` (44_system_interface.md R100) -/
  | beginCmd (pl mto : Tick) (on off : F32)
  /-- `END` (44_system_interface.md R101) -/
  | endCmd
  /-- `SETB ch, value` (42_channel_control_facade.md R81) -/
  | setB (ch : Byte) (value : F32)
  /-- `GETB ch` (42_channel_control_facade.md R82) -/
  | getB (ch : Byte)
  /-- `DIS ch` (42_channel_control_facade.md R84) -/
  | dis (ch : Byte)
  /-- `TICK` (43_pulse_scheduler.md R85) -/
  | tick
  /-- `ZC` (43_pulse_scheduler.md R86) -/
  | zc
  /-- `DISPATCH CAPT` (60_exceptions.md R107) -/
  | dispatchCapt
  /-- `DISPATCH A` (60_exceptions.md R107) -/
  | dispatchA
  /-- `DISPATCH B` (60_exceptions.md R107) -/
  | dispatchB
deriving DecidableEq, Repr

/-- One arrival at the block: a command word on the command port, or an event step named by its code
(10_state.md R31, 60_exceptions.md R119). -/
inductive Input where
  | cmd (w : CmdWord)
  | evt (code : EvtCode)
deriving DecidableEq, Repr

/-- Is the step a host command (the foreground context), not an event step (00_scope.md R10)? -/
def Instr.isCommand : Instr → Bool
  | .beginCmd _ _ _ _ => true
  | .endCmd => true
  | .setB _ _ => true
  | .getB _ => true
  | .dis _ => true
  | .tick => false
  | .zc => false
  | .dispatchCapt => false
  | .dispatchA => false
  | .dispatchB => false

/-- The dispatch step of a source (60_exceptions.md R107, 30_encoding.md R55). -/
def Instr.dispatch : Source → Instr
  | .capt => .dispatchCapt
  | .cmp .A => .dispatchA
  | .cmp .B => .dispatchB

/-- A channel operand as the assembler spells it: `A`, `B`, or `#n` for a raw CH byte (30_encoding.md R58). -/
inductive AsmCh where
  | A
  | B
  | raw (n : Nat)
deriving DecidableEq, Repr

/-- A binary32 operand as the assembler spells it (30_encoding.md R58): a decimal literal, that is an exact rational
`(-1)^neg * digits * 10^exp`; `0f` and eight hex digits, that is a bit pattern; `+inf`, `-inf` or `nan`. -/
inductive AsmF32 where
  | decimal (neg : Bool) (digits : Nat) (exp : Int)
  | bits (n : Nat)
  | posInf
  | negInf
  | nan
deriving DecidableEq, Repr

/-- One line of a test program (30_encoding.md R58, R59). -/
inductive AsmLine where
  | beginCmd (pl mto : Nat) (on off : AsmF32)
  | endCmd
  | setB (ch : AsmCh) (value : AsmF32)
  | getB (ch : AsmCh)
  | dis (ch : AsmCh)
  /-- `TICK` -/
  | tick
  /-- `TICK*n`, a pseudo-step -/
  | ticks (n : Nat)
  /-- `RUNTO t`, a pseudo-step -/
  | runTo (t : Nat)
  /-- `ZC` -/
  | zc
  /-- `DISPATCH CAPT`, `DISPATCH A`, `DISPATCH B` -/
  | dispatch (s : Source)
  /-- `DISPATCH`: the first source pending and enabled -/
  | dispatchFirst
  /-- `DISPATCH*`: repeated while any dispatch is enabled, a pseudo-step -/
  | dispatchAll
deriving DecidableEq, Repr

end Sys2Proof
end

