-- ==== Sys2Proof/WellFormed.lean ====
section
/-! DEFINITION. What makes a term well formed. Every `Instr` is (its operand types have exactly the legal values,
30_encoding.md R51 to R53); the checks bear on the parameters, the arrivals and the assembler's lines. -/

namespace Sys2Proof

/-- `PERIOD_SEED` must be nonzero (00_scope.md R3). -/
def Params.wellFormed (p : Params) : Bool := p.periodSeed != 0

/-- Every operand value is legal at decode: tick counts 0 to 65535 (R51), every binary32 encoding (R52), every CH byte
(checked at execution, R53). Written per constructor so that a new instruction is not passed over. -/
def Instr.wellFormed : Instr → Bool
  | .beginCmd _ _ _ _ => true
  | .endCmd => true
  | .setB _ _ => true
  | .getB _ => true
  | .dis _ => true
  | .tick => true
  | .zc => true
  | .dispatchCapt => true
  | .dispatchA => true
  | .dispatchB => true

/-- Any 128-bit word may arrive as a command (60_exceptions.md R119); an event code must label a step: codes 0x00 and
0x06 to 0xFF label none (30_encoding.md R55). -/
def Input.wellFormed : Input → Bool
  | .cmd _ => true
  | .evt code => 1 ≤ code.toNat && code.toNat ≤ 5

/-- `#n` spells a raw CH byte with `n` from 0 to 255 (30_encoding.md R58). -/
def AsmCh.wellFormed : AsmCh → Bool
  | .A => true
  | .B => true
  | .raw n => n ≤ 255

/-- `0f` is followed by exactly eight hex digits: a 32-bit pattern (30_encoding.md R58). -/
def AsmF32.wellFormed : AsmF32 → Bool
  | .decimal _ _ _ => true
  | .bits n => n < 2 ^ 32
  | .posInf => true
  | .negInf => true
  | .nan => true

/-- The operand ranges of 30_encoding.md R58. DESIGN CHOICE: `t` of `RUNTO t` has the range of a 16-bit count, where R59 gives
none (log 16). -/
def AsmLine.wellFormed : AsmLine → Bool
  | .beginCmd pl mto on off => pl ≤ 65535 && mto ≤ 65535 && on.wellFormed && off.wellFormed
  | .endCmd => true
  | .setB ch value => ch.wellFormed && value.wellFormed
  | .getB ch => ch.wellFormed
  | .dis ch => ch.wellFormed
  | .tick => true
  | .ticks _ => true
  | .runTo t => t ≤ 65535
  | .zc => true
  | .dispatch _ => true
  | .dispatchFirst => true
  | .dispatchAll => true

end Sys2Proof
end

