-- ==== Sys2Proof/Decode.lean ====
section
/-! DEFINITION. Decoding of command words, of words sent as bytes and of event codes, total and rejecting by name; the
encoder, from the same tables (30_encoding.md R48 to R57). -/

namespace Sys2Proof

/-- Why an arrival decodes to no instruction. The first three are the ways a command word is ILLEGAL
(30_encoding.md R50, R57); the last is an event code that labels no step (R55). -/
inductive DecodeError where
  /-- `OPC` is not one of the five opcodes -/
  | unassignedOpcode
  /-- `RSV` is nonzero -/
  | reservedNonzero
  /-- a field the opcode does not use is nonzero -/
  | unusedFieldNonzero
  /-- the event code labels no step -/
  | unassignedEvent
deriving DecidableEq, Repr

/-! ### The fields of a command word (30_encoding.md R48) -/

/-- `OPC`, bits 127:120. -/
def opcOf (w : CmdWord) : BitVec 8 := w.extractLsb' 120 8
/-- `CH`, bits 119:112. -/
def chOf (w : CmdWord) : BitVec 8 := w.extractLsb' 112 8
/-- `RSV`, bits 111:96. -/
def rsvOf (w : CmdWord) : BitVec 16 := w.extractLsb' 96 16
/-- `U16A`, bits 95:80. -/
def u16aOf (w : CmdWord) : BitVec 16 := w.extractLsb' 80 16
/-- `U16B`, bits 79:64. -/
def u16bOf (w : CmdWord) : BitVec 16 := w.extractLsb' 64 16
/-- `F32A`, bits 63:32. -/
def f32aOf (w : CmdWord) : BitVec 32 := w.extractLsb' 32 32
/-- `F32B`, bits 31:0. -/
def f32bOf (w : CmdWord) : BitVec 32 := w.extractLsb' 0 32

/-- The word with the given fields (30_encoding.md R48), `{a, b}` having `a` in the more significant place (R6). -/
def mkCmdWord (opc ch : BitVec 8) (rsv u16a u16b : BitVec 16) (f32a f32b : BitVec 32) : CmdWord :=
  opc ++ ch ++ rsv ++ u16a ++ u16b ++ f32a ++ f32b

/-! ### Decoding -/

/-- Is every field that the opcode map marks "-" for the word's opcode zero (30_encoding.md R49)? -/
def unusedFieldsZero (w : CmdWord) : Bool :=
  if opcOf w = 0x01#8 then chOf w = 0
  else if opcOf w = 0x02#8 then chOf w = 0 && u16aOf w = 0 && u16bOf w = 0 && f32aOf w = 0 && f32bOf w = 0
  else if opcOf w = 0x10#8 then u16aOf w = 0 && u16bOf w = 0 && f32bOf w = 0
  else u16aOf w = 0 && u16bOf w = 0 && f32aOf w = 0 && f32bOf w = 0

/-- `decode(CW)` of 30_encoding.md R50: total on every 128-bit word, looks at no state. -/
def decodeCommand (w : CmdWord) : Except DecodeError Instr :=
  if opcOf w ∉ [0x01#8, 0x02#8, 0x10#8, 0x11#8, 0x12#8] then .error .unassignedOpcode
  else if rsvOf w ≠ 0 then .error .reservedNonzero
  else if unusedFieldsZero w = false then .error .unusedFieldNonzero
  else if opcOf w = 0x01#8 then .ok (.beginCmd (u16aOf w) (u16bOf w) (f32aOf w) (f32bOf w))
  else if opcOf w = 0x02#8 then .ok .endCmd
  else if opcOf w = 0x10#8 then .ok (.setB (chOf w) (f32aOf w))
  else if opcOf w = 0x11#8 then .ok (.getB (chOf w))
  else .ok (.dis (chOf w))

/-- The event labels of 30_encoding.md R55. -/
def decodeEvent (code : EvtCode) : Except DecodeError Instr :=
  if code = 0x01#8 then .ok .tick
  else if code = 0x02#8 then .ok .zc
  else if code = 0x03#8 then .ok .dispatchCapt
  else if code = 0x04#8 then .ok .dispatchA
  else if code = 0x05#8 then .ok .dispatchB
  else .error .unassignedEvent

/-- The step an arrival stands for. -/
def decodeInput : Input → Except DecodeError Instr
  | .cmd w => decodeCommand w
  | .evt code => decodeEvent code

/-! ### Encoding -/

/-- The arrival that stands for a step: operands in their fields, every unused field zero
(30_encoding.md R49, R55, R58). -/
def encode : Instr → Input
  | .beginCmd pl mto on off => .cmd (mkCmdWord 0x01 0 0 pl mto on off)
  | .endCmd => .cmd (mkCmdWord 0x02 0 0 0 0 0 0)
  | .setB ch value => .cmd (mkCmdWord 0x10 ch 0 0 0 value 0)
  | .getB ch => .cmd (mkCmdWord 0x11 ch 0 0 0 0 0)
  | .dis ch => .cmd (mkCmdWord 0x12 ch 0 0 0 0 0)
  | .tick => .evt 0x01
  | .zc => .evt 0x02
  | .dispatchCapt => .evt 0x03
  | .dispatchA => .evt 0x04
  | .dispatchB => .evt 0x05

/-! ### Words as bytes (30_encoding.md R56): big-endian, most significant byte first -/

/-- The `n` bytes of a word, byte 0 the most significant. -/
def bytesOf (n : Nat) {w : Nat} (x : BitVec w) : List Byte :=
  (List.range n).map fun k => x.extractLsb' (8 * (n - 1 - k)) 8

/-- The number that a byte sequence spells, most significant byte first. -/
def natOfBytes (bs : List Byte) : Nat := bs.foldl (fun acc b => acc * 256 + b.toNat) 0

/-- The sixteen bytes of a command word. -/
def CmdWord.bytes (w : CmdWord) : List Byte := bytesOf 16 w

/-- Decoding of a byte stream at the command port: sixteen bytes make one word, and the rest of the stream is given
back; fewer than sixteen make no word (20_memory.md R39: there is no partial word). -/
def decodeBytes (bs : List Byte) : Option (Except DecodeError Instr × List Byte) :=
  if bs.length < 16 then none
  else some (decodeCommand (BitVec.ofNat 128 (natOfBytes (bs.take 16))), bs.drop 16)

/-! ### The opcode table's numbering -/

/-- The arrival that a row's bits stand for: a row of 8 bits is an event code, a row of 128 bits a command word, bit 0
the least significant bit (00_scope.md R6, log 15). -/
def tableInput (nbits w : Nat) : Input :=
  if nbits ≤ 8 then .evt (BitVec.ofNat 8 w) else .cmd (BitVec.ofNat 128 w)

/-- What the decoder reads from a row's bits. -/
def decodeTableWord (nbits w : Nat) : Option Instr :=
  match decodeInput (tableInput nbits w) with
  | .ok i => some i
  | .error _ => none

end Sys2Proof
end

