-- ==== Sys2Proof/Machine/State.lean ====
section
/-! DEFINITION. The state of the block: every element S0 to S30 of 10_state.md, the response port, the schedule of
arrivals, the free values' counter and the parameters; power-on reset. -/

namespace Sys2Proof.Machine

/-- `RS`, the run state; the code 3 is never reached and is excluded (10_state.md R13, log 12). -/
inductive RunState where
  | unconfigured
  | running
  | stopped
deriving DecidableEq, Repr

/-- `PH[c]`, a channel's scheduler state; the code 3 is excluded (10_state.md R21, log 12). -/
inductive Phase where
  | quiescent
  | armedForRise
  | waitingForFall
deriving DecidableEq, Repr

/-- `COM[c]`, a channel's compare output mode; the code 3 is excluded (10_state.md R26, log 12). -/
inductive Com where
  | none
  | driveHigh
  | driveLow
deriving DecidableEq, Repr

/-- The state of one channel: ChannelState (10_state.md section 6) and its part of the compare unit (section 7). -/
structure Chan where
  /-- `EN[c]`, S9 and S10 (R18) -/
  en : Bool
  /-- `RISE[c]`, S11 and S12 (R19) -/
  rise : Tick
  /-- `FALL[c]`, S13 and S14 (R19) -/
  fall : Tick
  /-- `FALLBUF[c]`, S15 and S16 (R20) -/
  fallBuf : Tick
  /-- `PH[c]`, S17 and S18 (R21) -/
  ph : Phase
  /-- `STATIC[c]`, S19 and S20 (R22) -/
  static : Bool
  /-- `OCR[c]`, S23 and S24 (R25) -/
  ocr : Tick
  /-- `COM[c]`, S25 and S26 (R26) -/
  com : Com
  /-- `OCL[c]`, S27 and S28 (R27) -/
  ocl : Bool
deriving DecidableEq, Repr

/-- A 3-bit register with one bit for each source: bit 0 CAPT, bit 1 CMP[A], bit 2 CMP[B] (10_state.md R28, R29). -/
structure SourceBits where
  capt : Bool
  cmpA : Bool
  cmpB : Bool
deriving DecidableEq, Repr

/-- The `STATUS` of a response (30_encoding.md R54). -/
inductive Status where
  | ok
  | illegal
  | state
  | chan
  | value
  | div0
deriving DecidableEq, Repr

/-- A response word by its fields (30_encoding.md R54); Flags.lean gives the 64-bit word. -/
structure Response where
  status : Status
  /-- the `FAULT` register after the command -/
  fault : BitVec 8
  data : BitVec 32
deriving DecidableEq, Repr

/-- No behaviour of the block stops it with a fault: the block goes on after every fault it raises
(60_exceptions.md R104), and no behaviour is a stuck state (93_implementation_defined.md section 2). So no step of this
model ends in `Host.Outcome.fault`; the block's five faults are next states that record them (log 3). -/
inductive Fault where
deriving DecidableEq, Repr

/-- Why the model gives an arrival no meaning. -/
inductive Refusal where
  /-- Raised by an arm of `exec` that has no meaning yet; none is left. Safe: it stops where the block goes on. -/
  | notModelled (mnemonic : String)
  /-- Raised by `step` at an event code that labels no step of the block (30_encoding.md R55). Safe: no step of the
  block is named. -/
  | unassignedEvent (code : BitVec 8)
  /-- Raised by the dispatch steps where 60_exceptions.md R107 does not enable the dispatch: the block has no such step
  in this state (30_encoding.md R59 calls the line ill-formed). Safe: the schedule is no run of the block (log 5). -/
  | dispatchNotEnabled (source : Source)
deriving DecidableEq, Repr

/-- The whole state (10_state.md section 2), with the interface and the model's own fields (log 1, 4, 6, 7). -/
structure State where
  /-- `RS`, S0 (R13) -/
  rs : RunState
  /-- `FAULT`, S1 (R14) -/
  fault : BitVec 8
  /-- `CFG_PULSE_LENGTH`, S2 (R15) -/
  cfgPulseLength : Tick
  /-- `CFG_MIN_TRIGGER`, S3 (R15) -/
  cfgMinTrigger : Tick
  /-- `CFG_ON_THRESH`, S4 (R15) -/
  cfgOnThresh : F32
  /-- `CFG_OFF_THRESH`, S5 (R15) -/
  cfgOffThresh : F32
  /-- `PERIOD`, S6 (R16) -/
  period : Tick
  /-- `LAST_CAPTURE`, S7 (R16) -/
  lastCapture : Tick
  /-- `ZCT`, S8 (R17) -/
  zct : Tick
  /-- channel A -/
  chA : Chan
  /-- channel B -/
  chB : Chan
  /-- `TCNT`, S21 (R23) -/
  tcnt : Tick
  /-- `ICR`, S22 (R24) -/
  icr : Tick
  /-- `IE`, S29 (R28) -/
  ie : SourceBits
  /-- `IF`, S30 (R29) -/
  ifl : SourceBits
  /-- the response port: the response to the latest command, none before the first (30_encoding.md R54, log 7) -/
  rsp : Option Response
  /-- the model's own: the arrivals still to come, in order (20_memory.md R41, log 1) -/
  inputs : List Input
  /-- the model's own: the index of the free value that a step draws, where it draws one (log 4) -/
  draws : Nat
  /-- the model's own: the arrival of the latest step, none before the first (20_memory.md R40, log 4) -/
  lastInput : Option Input
  /-- the parameters, written by no step (log 6) -/
  params : Params
deriving DecidableEq, Repr

/-- A channel after power-on reset (70_reset_and_hazards.md R121). -/
def Chan.reset : Chan :=
  { en := false, rise := 0, fall := 0, fallBuf := 0, ph := .quiescent, static := false, ocr := 0, com := .none,
    ocl := false }

/-- All three bits clear: `0b000`. -/
def SourceBits.none : SourceBits := { capt := false, cmpA := false, cmpB := false }

/-- The state after power-on reset under the given parameters (70_reset_and_hazards.md R121); the model's own fields
hold nothing (log 1, 4, 7). -/
def State.powerOn (p : Params) : State :=
  { rs := .unconfigured, fault := 0, cfgPulseLength := 0, cfgMinTrigger := 0, cfgOnThresh := 0, cfgOffThresh := 0,
    period := p.periodSeed, lastCapture := 0, zct := 0, chA := Chan.reset, chB := Chan.reset, tcnt := 0, icr := 0,
    ie := SourceBits.none, ifl := SourceBits.none, rsp := Option.none, inputs := [], draws := 0,
    lastInput := Option.none, params := p }

/-- The machine right after power-on reset, under the spec's default parameters (log 6). -/
def State.reset : State := State.powerOn Params.default

end Sys2Proof.Machine
end

