-- ==== Sys2Proof/Machine/Flags.lean ====
section
/-! DEFINITION. The flag registers `IE`, `IF` and `FAULT`, the codes of the small fields, and the response word. -/

namespace Sys2Proof.Machine

/-! ### Codes of the 2-bit fields (10_state.md R13, R21, R26) -/

def RunState.code : RunState → BitVec 2
  | .unconfigured => 0
  | .running => 1
  | .stopped => 2

def Phase.code : Phase → BitVec 2
  | .quiescent => 0
  | .armedForRise => 1
  | .waitingForFall => 2

def Com.code : Com → BitVec 2
  | .none => 0
  | .driveHigh => 1
  | .driveLow => 2

/-! ### The 3-bit registers `IE` and `IF` (10_state.md R28, R29) -/

/-- The register as bits: bit 0 CAPT, bit 1 CMP[A], bit 2 CMP[B]. -/
def SourceBits.bits (b : SourceBits) : BitVec 3 :=
  BitVec.ofBool b.cmpB ++ BitVec.ofBool b.cmpA ++ BitVec.ofBool b.capt

/-- The bit of a channel's compare source: `IE_CMP[c]` or `F_CMP[c]`. -/
def SourceBits.cmp (b : SourceBits) : Ch → Bool
  | .A => b.cmpA
  | .B => b.cmpB

/-- Writes the bit of a channel's compare source. -/
def SourceBits.setCmp (b : SourceBits) (c : Ch) (v : Bool) : SourceBits :=
  match c with
  | .A => { b with cmpA := v }
  | .B => { b with cmpB := v }

/-- The bit of a source. -/
def SourceBits.get (b : SourceBits) : Source → Bool
  | .capt => b.capt
  | .cmp c => b.cmp c

/-- Clears the bit of a source. -/
def SourceBits.clear (b : SourceBits) : Source → SourceBits
  | .capt => { b with capt := false }
  | .cmp c => b.setCmp c false

/-! ### The sticky fault bits (10_state.md R14, 60_exceptions.md R103) -/

/-- The five faults of the block. -/
inductive FaultKind where
  | illegal
  | state
  | chan
  | value
  | div0
deriving DecidableEq, Repr

/-- The `FAULT` bit of a fault: `1 << bit(k)`. -/
def FaultKind.mask : FaultKind → BitVec 8
  | .illegal => 0x01
  | .state => 0x02
  | .chan => 0x04
  | .value => 0x08
  | .div0 => 0x10

/-- The response `STATUS` of a fault. -/
def FaultKind.status : FaultKind → Status
  | .illegal => .illegal
  | .state => .state
  | .chan => .chan
  | .value => .value
  | .div0 => .div0

/-! ### The response word (30_encoding.md R54, R56) -/

/-- The `STATUS` code. -/
def Status.code : Status → BitVec 8
  | .ok => 0
  | .illegal => 1
  | .state => 2
  | .chan => 3
  | .value => 4
  | .div0 => 5

/-- The 64-bit response word: STATUS 63:56, 55:48 zero, FAULT 47:40, 39:32 zero, DATA 31:0. -/
def Response.word (r : Response) : RspWord :=
  r.status.code ++ 0#8 ++ r.fault ++ 0#8 ++ r.data

/-- The eight bytes of a response word, most significant byte first. -/
def Response.bytes (r : Response) : List Byte := bytesOf 8 r.word

end Sys2Proof.Machine
end

