-- ==== Sys2Proof/Machine/Operands.lean ====
section
/-! DEFINITION. The operand forms: the channel selector, binary32 values and their exact rational arithmetic, the
rounding `rne32` (00_scope.md R9) and the ordered comparisons (42_channel_control_facade.md R79). -/

namespace Sys2Proof.Machine

/-! ### The channel selector (30_encoding.md R53) -/

/-- `chan(ch)`: 0 is A, 1 is B, any other value faults CHAN at execution. -/
def chanOf (ch : Byte) : Option Ch :=
  if ch = 0x00#8 then some .A else if ch = 0x01#8 then some .B else none

/-! ### Exact rationals

A rational is held as a numerator over a positive denominator, not reduced (log 10). Laws/Rational.lean says of each
operation which rational it computes. -/

/-- `num / den`; every operation here keeps `den` positive. -/
structure Frac where
  num : Int
  den : Nat
deriving DecidableEq, Repr

/-- The rational that a fraction stands for. -/
def Frac.toRat (a : Frac) : ℚ := (a.num : ℚ) / (a.den : ℚ)

/-- The integer `n`. -/
def Frac.ofInt (n : Int) : Frac := { num := n, den := 1 }

def Frac.neg (a : Frac) : Frac := { num := -a.num, den := a.den }

def Frac.sub (a b : Frac) : Frac := { num := a.num * b.den - b.num * a.den, den := a.den * b.den }

def Frac.mul (a b : Frac) : Frac := { num := a.num * b.num, den := a.den * b.den }

def Frac.abs (a : Frac) : Frac := { num := a.num.natAbs, den := a.den }

/-- `a < b` -/
def Frac.lt (a b : Frac) : Bool := a.num * b.den < b.num * a.den

/-- `a ≤ b` -/
def Frac.le (a b : Frac) : Bool := a.num * b.den ≤ b.num * a.den

/-- The greatest integer not above `a`. -/
def Frac.floor (a : Frac) : Int := a.num / (a.den : Int)

/-- `2 ^ e`, for an integer `e` of either sign. -/
def Frac.pow2 (e : Int) : Frac :=
  if 0 ≤ e then { num := (2 ^ e.toNat : Nat), den := 1 } else { num := 1, den := 2 ^ (-e).toNat }

/-- `a / 2 ^ e`. -/
def Frac.scaleDown (a : Frac) (e : Int) : Frac := a.mul (Frac.pow2 (-e))

/-- `round` of 41_channel_timing_map.md R67: half up on non-negative rationals, and half away from zero on negative
ones. -/
def Frac.round (a : Frac) : Int :=
  if 0 ≤ a.num then (2 * a.num + a.den) / (2 * a.den : Int) else -((2 * -a.num + a.den) / (2 * a.den : Int))

/-- The nearest integer, a tie going to the even one. -/
def Frac.roundEven (a : Frac) : Int :=
  let below := a.floor
  let rest := 2 * (a.num - below * a.den)
  if rest < a.den then below
  else if (a.den : Int) < rest then below + 1
  else if below % 2 = 0 then below
  else below + 1

/-- The exponent of a positive rational: the `e` with `2 ^ e ≤ a < 2 ^ (e + 1)`. -/
def Frac.log2 (a : Frac) : Int :=
  let e : Int := (Nat.log2 a.num.natAbs : Int) - (Nat.log2 a.den : Int)
  if a.lt (Frac.pow2 e) then e - 1 else e

/-! ### Extended reals and binary32 (00_scope.md R9) -/

/-- An extended real: a rational or an infinity. -/
inductive ExtReal where
  | negInf
  | fin (q : Frac)
  | posInf
deriving DecidableEq, Repr

/-- Ordered comparison `x < y` on extended reals. -/
def ExtReal.lt : ExtReal → ExtReal → Bool
  | .negInf, .negInf => false
  | .negInf, .fin _ => true
  | .negInf, .posInf => true
  | .fin _, .negInf => false
  | .fin a, .fin b => a.lt b
  | .fin _, .posInf => true
  | .posInf, .negInf => false
  | .posInf, .fin _ => false
  | .posInf, .posInf => false

/-- The sign bit, bit 31. -/
def f32Sign (b : F32) : Bool := b.extractLsb' 31 1 = 1#1
/-- The biased exponent, bits 30:23. -/
def f32Exp (b : F32) : Nat := (b.extractLsb' 23 8).toNat
/-- The fraction, bits 22:0. -/
def f32Frac (b : F32) : Nat := (b.extractLsb' 0 23).toNat

/-- The magnitude of a finite encoding with biased exponent `e` and fraction `f`: `f * 2^-149` for a zero or subnormal,
`(2^23 + f) * 2^(e - 150)` otherwise. -/
def f32Magnitude (e f : Nat) : Frac :=
  if e = 0 then { num := f, den := 2 ^ 149 }
  else if 150 ≤ e then { num := ((2 ^ 23 + f) * 2 ^ (e - 150) : Nat), den := 1 }
  else { num := (2 ^ 23 + f : Nat), den := 2 ^ (150 - e) }

/-- `val(b)`: the exact extended real of a binary32 encoding, or none for a NaN. -/
def val (b : F32) : Option ExtReal :=
  if f32Exp b = 255 then
    if f32Frac b ≠ 0 then none
    else if f32Sign b then some .negInf else some .posInf
  else
    let m := f32Magnitude (f32Exp b) (f32Frac b)
    some (.fin (if f32Sign b then m.neg else m))

/-- `+inf` -/
def f32PosInf : F32 := 0x7F800000
/-- `-inf` -/
def f32NegInf : F32 := 0xFF800000
/-- the NaN that the assembler's `nan` spells (30_encoding.md R58) -/
def f32NaN : F32 := 0x7FC00000

/-- The encoding, without its sign, of a positive rational: `n` units in the last place of its binade, rounded to
nearest even, set beside the exponent so that a carry goes into it; beyond the largest finite value, infinity. -/
def rneMagnitude (a : Frac) : Nat :=
  let e := max a.log2 (-126)
  let n := (a.scaleDown (e - 23)).roundEven
  min ((e + 126).toNat * 2 ^ 23 + n.toNat) 0x7F800000

/-- `rne32(q)`: the nearest binary32 value, ties to even, overflow to an infinity, `rne32(0) = +0.0`
(00_scope.md R9). A negative rational that rounds to zero gives `-0.0` (log 11; no rule of the spec reaches it). -/
def rne32 (q : Frac) : F32 :=
  if q.num = 0 then 0
  else if q.num < 0 then BitVec.ofNat 32 (2 ^ 31 + rneMagnitude q.abs)
  else BitVec.ofNat 32 (rneMagnitude q)

/-! ### The threshold comparisons (42_channel_control_facade.md R79) -/

/-- `x > val(t)`: strict, false where `t` is a NaN. -/
def aboveThreshold (x : ExtReal) (t : F32) : Bool :=
  match val t with
  | none => false
  | some y => y.lt x

/-- `x < val(t)`: strict, false where `t` is a NaN. -/
def belowThreshold (x : ExtReal) (t : F32) : Bool :=
  match val t with
  | none => false
  | some y => x.lt y

end Sys2Proof.Machine
end

