-- ==== Sys2Proof/Machine/Ops.lean ====
section
/-! DEFINITION. The shared operations: access to channels and flags, responding and raising a fault, the output pins,
the compare action, disabling a channel, resetting the unit, the dispatch condition and its entry, the arrivals. -/

namespace Sys2Proof.Machine

/-! ### Access to a channel and to its flags -/

/-- The state of channel `c`. -/
def State.chan (s : State) : Ch → Chan
  | .A => s.chA
  | .B => s.chB

/-- Replaces the state of channel `c`. -/
def State.setChan (s : State) (c : Ch) (x : Chan) : State :=
  match c with
  | .A => { s with chA := x }
  | .B => { s with chB := x }

/-- Writes `IE_CMP[c]`. -/
def State.setIeCmp (s : State) (c : Ch) (v : Bool) : State := { s with ie := s.ie.setCmp c v }

/-- Writes `F_CMP[c]`. -/
def State.setFCmp (s : State) (c : Ch) (v : Bool) : State := { s with ifl := s.ifl.setCmp c v }

/-! ### The output pins (10_state.md R30, R31) -/

/-- `PIN[c]`: the latch while the compare drive is armed, else the static level. -/
def State.pin (s : State) (c : Ch) : Bool :=
  if (s.chan c).com ≠ .none then (s.chan c).ocl else (s.chan c).static

/-! ### Responding, and raising a fault (30_encoding.md R54, 60_exceptions.md R104) -/

/-- `respond(OK, data)`: sets the response word of a command that raised no fault. -/
def respondOk (data : BitVec 32) (s : State) : State :=
  { s with rsp := some { status := .ok, fault := s.fault, data := data } }

/-- The `DATA` of a fault's response: 0, except for DIV0, where it is a free value (30_encoding.md R54, log 4). -/
def faultData (k : FaultKind) (s : State) : BitVec 32 :=
  match k with
  | .div0 => Config.div0Data s.draws
  | .illegal => 0
  | .state => 0
  | .chan => 0
  | .value => 0

/-- `raise Fault(k)`: sets the sticky bit and the response, whose FAULT field is the register after the command. Nothing
else changes. -/
def raiseFault (k : FaultKind) (s : State) : State :=
  { s with fault := s.fault ||| k.mask,
           rsp := some { status := k.status, fault := s.fault ||| k.mask, data := faultData k s } }

/-! ### The compare unit -/

/-- The compare action of channel `c` (43_pulse_scheduler.md R85, R89): drives the latch to the level `COM[c]` names. -/
def compareAction (c : Ch) (s : State) : State :=
  match (s.chan c).com with
  | .driveHigh => s.setChan c { s.chan c with ocl := true }
  | .driveLow => s.setChan c { s.chan c with ocl := false }
  | .none => s

/-- `Passed(base, delay, n) = ((n - base) mod M) >= delay` (43_pulse_scheduler.md R87). -/
def passed (base delay n : Tick) : Bool := delay.toNat ≤ (n - base).toNat

/-- The part of the unit's reset that one channel holds: `OCR <- 0; COM <- NONE; OCL <- 0`
(44_system_interface.md R100, R101). -/
def Chan.resetUnit (x : Chan) : Chan := { x with ocr := 0, com := .none, ocl := false }

/-- `Disable(c)` (42_channel_control_facade.md R80): `STATIC[c]` is left unchanged. -/
def disable (c : Ch) (s : State) : State :=
  ((s.setChan c { s.chan c with en := false, com := .none, ph := .quiescent }).setIeCmp c false).setFCmp c false

/-! ### Dispatch: when it is enabled, and its entry (60_exceptions.md R106 to R108, R110) -/

/-- A source is pending when its flag is 1 and enabled when its enable is 1 (60_exceptions.md R106). -/
def pendingEnabled (s : State) (src : Source) : Bool := s.ifl.get src && s.ie.get src

/-- Does `IRQ_ORDER` allow the dispatch of `src` (60_exceptions.md R108)? Under FIXED only the first pending and enabled
source in the order CAPT, CMP[A], CMP[B] is allowed. -/
def allowedByOrder (s : State) (src : Source) : Bool :=
  match s.params.irqOrder with
  | .free => true
  | .fixed =>
    match src with
    | .capt => true
    | .cmp .A => !pendingEnabled s .capt
    | .cmp .B => !pendingEnabled s .capt && !pendingEnabled s (.cmp .A)

/-- The enabling condition of a dispatch (60_exceptions.md R107). -/
def dispatchEnabled (s : State) (src : Source) : Bool :=
  s.rs = .running && pendingEnabled s src && allowedByOrder s src

/-- The entry of a dispatch: its flag is cleared, nothing is saved and no mode changes (60_exceptions.md R107, R110). -/
def enterDispatch (src : Source) (s : State) : State := { s with ifl := s.ifl.clear src }

/-- The first source, in the order CAPT, A, B, that may be dispatched (30_encoding.md R59). -/
def firstEnabled (s : State) : Option Source :=
  if dispatchEnabled s .capt then some .capt
  else if dispatchEnabled s (.cmp .A) then some (.cmp .A)
  else if dispatchEnabled s (.cmp .B) then some (.cmp .B)
  else none

/-! ### Arrivals (20_memory.md R41, log 1) -/

/-- A step begins on the arrival `x`: the free value it may draw has a new index, unless the step before had the same
arrival. So two `GETB` of one channel with no step between draw the same value (20_memory.md R40, log 4). -/
def noteInput (x : Input) (s : State) : State :=
  { s with lastInput := some x, draws := if s.lastInput = some x then s.draws else s.draws + 1 }

/-- The next arrival and the state that has taken it off the schedule. -/
def takeInput (s : State) : Option (Input × State) :=
  match s.inputs with
  | [] => none
  | x :: rest => some (x, noteInput x { s with inputs := rest })

/-- Nothing arrives: the block waits and nothing changes (60_exceptions.md R118, log 2). -/
def idle (s : State) : Host.Outcome State Fault Refusal := .next s

/-- An arrival that decodes to no instruction: a command word raises `Fault(ILLEGAL)` (30_encoding.md R50); an event code
that labels no step is refused by name (R55, log 5). -/
def rejectInput (x : Input) (s : State) : Host.Outcome State Fault Refusal :=
  match x with
  | .cmd _ => .next (raiseFault .illegal s)
  | .evt code => .refused (.unassignedEvent code)

end Sys2Proof.Machine
end

