-- ==== Sys2Proof/Machine/Period.lean ====
section
/-! DEFINITION. The Period Tracker (40_period_tracker.md). -/

namespace Sys2Proof.Machine

/-- `PeriodUpdate(T)`: `PERIOD <- (T - LAST_CAPTURE) mod M`, then `LAST_CAPTURE <- T` (R60). -/
def periodUpdate (t : Tick) (s : State) : State :=
  { s with period := t - s.lastCapture, lastCapture := t }

end Sys2Proof.Machine
end

