-- ==== Sys2Proof/Machine/Scheduler.lean ====
section
/-! DEFINITION. The Pulse Scheduler (43_pulse_scheduler.md): the two hardware steps, the helpers and the handlers. -/

namespace Sys2Proof.Machine

/-! ### Hardware steps -/

/-- One channel's compare on the new count: a match sets `F_CMP[c]` whatever the enables hold, and applies the compare
action (R85). -/
def compareChannel (c : Ch) (s : State) : State :=
  if s.tcnt = (s.chan c).ocr then compareAction c (s.setFCmp c true) else s

/-- The unit's tick: the count advances, and each channel compares with it (R85). -/
def countAndCompare (s : State) : State := compareChannel .B (compareChannel .A { s with tcnt := s.tcnt + 1 })

/-- `TICK` (R85). -/
def execTick (s : State) : Host.Outcome State Fault Refusal :=
  if s.rs ≠ .running then .next s else .next (countAndCompare s)

/-- `ZC_EDGE` (R86). -/
def execZc (s : State) : Host.Outcome State Fault Refusal :=
  if s.rs ≠ .running then .next s
  else .next { s with icr := s.tcnt, ifl := { s.ifl with capt := true } }

/-! ### Helpers -/

/-- `ArmRise(c, T)` (R88). -/
def armRise (c : Ch) (t : Tick) (s : State) : State :=
  let x := s.chan c
  ((s.setChan c { x with ocr := t + x.rise, com := .driveHigh, fallBuf := x.fall, ph := .armedForRise }).setFCmp c
    false).setIeCmp c true

/-- The writes of `H_RISE(c, n)` before its late check (R92): the fall target is relative to the zero-cross. -/
def armFall (c : Ch) (s : State) : State :=
  let x := s.chan c
  ((s.setChan c { x with ocr := s.zct + x.fallBuf, com := .driveLow, ph := .waitingForFall }).setFCmp c
    false).setIeCmp c true

/-- `H_FALL(c)` (R93). -/
def hFall (c : Ch) (s : State) : State :=
  (s.setChan c { s.chan c with com := .none, ph := .quiescent }).setIeCmp c false

/-- `H_SPUR(c)` (R94). -/
def hSpur (c : Ch) (s : State) : State := s.setIeCmp c false

/-- `H_CMP(c, n)` (R91), with `H_RISE(c, n)` (R92) and the `forceMatch(c, n)` (R89) it may call. `PH[c]` at entry selects
one body (log 8). The first argument bounds the recursion: from ARMED_FOR_RISE it goes through WAITING_FOR_FALL to
QUIESCENT, so two calls are enough (R89, log 9). -/
def hCmpBounded : Nat → Ch → Tick → State → State
  | 0, _, _, s => s
  | k + 1, c, n, s =>
    match (s.chan c).ph with
    | .armedForRise =>
      let s1 := armFall c s
      if passed s1.zct (s1.chan c).fallBuf n then hCmpBounded k c n ((compareAction c s1).setFCmp c false) else s1
    | .waitingForFall => hFall c s
    | .quiescent => hSpur c s

/-- `H_CMP(c, n)` (R91). -/
def hCmp (c : Ch) (n : Tick) (s : State) : State := hCmpBounded 2 c n s

/-- `forceMatch(c, n)` (R89): the compare action, the flag consumed, the match transition, at once. -/
def forceMatch (c : Ch) (n : Tick) (s : State) : State := hCmp c n ((compareAction c s).setFCmp c false)

/-! ### The zero-cross handler (R90) -/

/-- Step 1 for one channel: the latch is forced low. -/
def forceLow (c : Ch) (s : State) : State := s.setChan c { s.chan c with ocl := false }

/-- Step 2 for one channel: an enabled channel is armed, a disabled one is left as it is. -/
def armIfEnabled (c : Ch) (t : Tick) (s : State) : State := if (s.chan c).en then armRise c t s else s

/-- Step 4 for one channel: the late correction. -/
def lateCheck (c : Ch) (t n : Tick) (s : State) : State :=
  if (s.chan c).en ∧ (s.chan c).ph = .armedForRise ∧ passed t (s.chan c).rise n then forceMatch c n s else s

/-- `H_ZC(n)` (R90). -/
def hZc (n : Tick) (s : State) : State :=
  let t := s.icr
  let lowered := forceLow .B (forceLow .A s)
  let armed := armIfEnabled .B t (armIfEnabled .A t { lowered with zct := t })
  let measured := periodUpdate t armed
  lateCheck .B t n (lateCheck .A t n measured)

end Sys2Proof.Machine
end

