-- ==== Sys2Proof/Machine/Background.lean ====
section
/-! DEFINITION. The background dispatches (60_exceptions.md R107). -/

namespace Sys2Proof.Machine

/-- The handler of a source, run with `n`, the count at dispatch. -/
def handler : Source → Tick → State → State
  | .capt => hZc
  | .cmp c => hCmp c

/-- `DISPATCH(s)` (R107): one atomic step where it is enabled; no step of the block where it is not (log 5). -/
def dispatch (src : Source) (s : State) : Host.Outcome State Fault Refusal :=
  if dispatchEnabled s src then .next (handler src s.tcnt (enterDispatch src s))
  else .refused (.dispatchNotEnabled src)

/-- `DISPATCH CAPT`. -/
def execDispatchCapt (s : State) : Host.Outcome State Fault Refusal := dispatch .capt s

/-- `DISPATCH A`. -/
def execDispatchA (s : State) : Host.Outcome State Fault Refusal := dispatch (.cmp .A) s

/-- `DISPATCH B`. -/
def execDispatchB (s : State) : Host.Outcome State Fault Refusal := dispatch (.cmp .B) s

end Sys2Proof.Machine
end

