-- ==== Sys2Proof/Machine/TimingMap.lean ====
section
/-! DEFINITION. The Channel Timing Map (41_channel_timing_map.md): brightness to delays, and delay back to brightness. -/

namespace Sys2Proof.Machine

/-- `clamp(x, lo, hi) = min(max(x, lo), hi)`: the upper bound wins where the bounds cross (R69). -/
def clamp (x lo hi : Int) : Int := min (max x lo) hi

/-- The rational 1. -/
def fracOne : Frac := Frac.ofInt 1

/-- The phase in the EXACT mode, saturated to `[0, 1]` (R66). -/
def phase : ExtReal → Frac
  | .posInf => Frac.ofInt 0
  | .negInf => Frac.ofInt 1
  | .fin x =>
    if fracOne.le x then Frac.ofInt 0
    else if x.le (Frac.ofInt 0) then Frac.ofInt 1
    else fracOne.sub x

/-- `RiseExact(v, P) = round(P * phase(val(v)))`, one rounding of an exact product (R68). -/
def riseExact (x : ExtReal) (p : Tick) : Int := ((Frac.ofInt p.toNat).mul (phase x)).round

/-- `fl(1 - x)`: `rne32` of the exact difference; `1 - (+inf) = -inf` and `1 - (-inf) = +inf` (R72). -/
def oneMinus32 : ExtReal → F32
  | .fin x => rne32 (fracOne.sub x)
  | .posInf => f32NegInf
  | .negInf => f32PosInf

/-- `fl(P * x)`, or none where the product is a NaN: `P = 0` with an infinity (R72). -/
def timesPeriod32 (p : Tick) : ExtReal → Option F32
  | .fin x => some (rne32 ((Frac.ofInt p.toNat).mul x))
  | .posInf => if p = 0 then none else some f32PosInf
  | .negInf => if p = 0 then none else some f32NegInf

/-- `Rise32(v, P)`: each step rounded to binary32, then `round` and saturation to `[0, P]` (R72). -/
def rise32 (x : ExtReal) (p : Tick) : Int :=
  match (val (oneMinus32 x)).bind (timesPeriod32 p) with
  | none => 0
  | some pr =>
    match val pr with
    | none => 0
    | some .negInf => 0
    | some .posInf => p.toNat
    | some (.fin q) =>
      if q.le (Frac.ofInt 0) then 0
      else if (Frac.ofInt p.toNat).le q then p.toNat
      else clamp q.round 0 p.toNat

/-- The rise delay in the mode that `NUMERICS` selects (R65). -/
def riseDelay (num : Numerics) (x : ExtReal) (p : Tick) : Int :=
  match num with
  | .exact => riseExact x p
  | .binary32 => rise32 x p

/-- `MapSet(v, P, PL, MTO)` (R65), on the value `x = val(v)` of a brightness that is no NaN. The sum `rise + PL` is a
mathematical integer and does not wrap (R70). -/
def mapSet (num : Numerics) (x : ExtReal) (p pl mto : Tick) : Int × Int :=
  let rise := riseDelay num x p
  (rise, clamp (rise + pl.toNat) mto.toNat p.toNat)

/-- A delay as the 16-bit value the registers hold; `MapSet` gives only values that fit (R68, R70). -/
def tickOf (d : Int) : Tick := BitVec.ofInt 16 d

/-- `R / P`, for `P` nonzero. -/
def delayRatio (r p : Tick) : Frac := { num := r.toNat, den := p.toNat }

/-- `Get32(R, P) = fl(1 - val(fl(R / P)))` (R74). The quotient of two 16-bit counts is no NaN, so the last case is not
reached (log 11). -/
def get32 (r p : Tick) : F32 :=
  match val (rne32 (delayRatio r p)) with
  | some x => oneMinus32 x
  | none => f32NaN

/-- `MapGet(R, P)`, the brightness that `GETB` reports (R73). -/
def mapGet (num : Numerics) (r p : Tick) : F32 :=
  match num with
  | .exact => rne32 (fracOne.sub (delayRatio r p))
  | .binary32 => get32 r p

end Sys2Proof.Machine
end

