-- ==== Sys2Proof/Machine/Facade.lean ====
section
/-! DEFINITION. The Channel Control Facade commands `SETB`, `GETB` and `DIS` (42_channel_control_facade.md). -/

namespace Sys2Proof.Machine

/-- The forced branches of `SETB` (R81): `Disable(c)` and the static level. -/
def forceLevel (c : Ch) (level : Bool) (s : State) : State :=
  let s1 := disable c s
  s1.setChan c { s1.chan c with static := level }

/-- The mapped branch of `SETB` (R81): the new delays, the channel enabled, its idle level low. -/
def setMapped (c : Ch) (x : ExtReal) (s : State) : State :=
  let d := mapSet s.params.numerics x s.period s.cfgPulseLength s.cfgMinTrigger
  s.setChan c { s.chan c with rise := tickOf d.1, fall := tickOf d.2, en := true, static := false }

/-- The state change of `SETB` on a valid channel and a brightness that is no NaN (R81). -/
def setBrightness (c : Ch) (x : ExtReal) (s : State) : State :=
  if aboveThreshold x s.cfgOnThresh then forceLevel c true s
  else if belowThreshold x s.cfgOffThresh then forceLevel c false s
  else setMapped c x s

/-- `SETB ch, value` (R81); the faults in the order of 60_exceptions.md R105. -/
def execSetB (ch : Byte) (value : F32) (s : State) : Host.Outcome State Fault Refusal :=
  if s.rs = .unconfigured then .next (raiseFault .state s)
  else match chanOf ch with
    | none => .next (raiseFault .chan s)
    | some c =>
      match val value with
      | none => .next (raiseFault .value s)
      | some x => .next (respondOk 0 (setBrightness c x s))

/-- `GETB ch` (R82, R83): the stored rise delay against the current period, whatever `EN[c]` is. -/
def execGetB (ch : Byte) (s : State) : Host.Outcome State Fault Refusal :=
  if s.rs = .unconfigured then .next (raiseFault .state s)
  else match chanOf ch with
    | none => .next (raiseFault .chan s)
    | some c =>
      if s.period = 0 then .next (raiseFault .div0 s)
      else .next (respondOk (mapGet s.params.numerics (s.chan c).rise s.period) s)

/-- `DIS ch` (R84). -/
def execDis (ch : Byte) (s : State) : Host.Outcome State Fault Refusal :=
  if s.rs = .unconfigured then .next (raiseFault .state s)
  else match chanOf ch with
    | none => .next (raiseFault .chan s)
    | some c => .next (respondOk 0 (disable c s))

end Sys2Proof.Machine
end

