-- ==== Sys2Proof/Machine/SystemInterface.lean ====
section
/-! DEFINITION. The commands `BEGIN` and `END` (44_system_interface.md). -/

namespace Sys2Proof.Machine

/-- `BEGIN pl, mto, on, off` (R100). -/
def execBegin (pl mto : Tick) (on off : F32) (s : State) : Host.Outcome State Fault Refusal :=
  if s.rs = .running then .next (raiseFault .state s)
  else .next (respondOk 0
    { s with cfgPulseLength := pl, cfgMinTrigger := mto, cfgOnThresh := on, cfgOffThresh := off,
             tcnt := 0, icr := 0, chA := s.chA.resetUnit, chB := s.chB.resetUnit,
             ifl := SourceBits.none, ie := { capt := true, cmpA := false, cmpB := false }, rs := .running })

/-- `END` (R101): UNCONFIGURED and STOPPED are kept. -/
def execEnd (s : State) : Host.Outcome State Fault Refusal :=
  .next (respondOk 0
    { s with ie := SourceBits.none, tcnt := 0, icr := 0,
             chA := { s.chA.resetUnit with ph := .quiescent }, chB := { s.chB.resetUnit with ph := .quiescent },
             ifl := SourceBits.none, rs := if s.rs = .running then .stopped else s.rs })

end Sys2Proof.Machine
end

