-- ==== Sys2Proof/Machine/Dispatch.lean ====
section
/-! DEFINITION. One arm per instruction: each calls its own meaning. -/

namespace Sys2Proof.Machine

def exec (i : Instr) (s : State) : Host.Outcome State Fault Refusal :=
  match i with
  | .beginCmd pl mto on off => Sys2Proof.Machine.execBegin pl mto on off s
  | .endCmd => Sys2Proof.Machine.execEnd s
  | .setB ch value => Sys2Proof.Machine.execSetB ch value s
  | .getB ch => Sys2Proof.Machine.execGetB ch s
  | .dis ch => Sys2Proof.Machine.execDis ch s
  | .tick => Sys2Proof.Machine.execTick s
  | .zc => Sys2Proof.Machine.execZc s
  | .dispatchCapt => Sys2Proof.Machine.execDispatchCapt s
  | .dispatchA => Sys2Proof.Machine.execDispatchA s
  | .dispatchB => Sys2Proof.Machine.execDispatchB s

end Sys2Proof.Machine
end

