-- ==== Sys2Proof/Machine/Step.lean ====
section
/-! DEFINITION. One step of the machine: the next arrival of the schedule is decoded and executed. -/

namespace Sys2Proof.Machine

/-- One step (00_scope.md R10, 20_memory.md R41): takes the next arrival and runs it as one atomic step; with no arrival
left the block waits (log 1, log 2). -/
def step (s : State) : Host.Outcome State Fault Refusal :=
  match takeInput s with
  | none => idle s
  | some (x, s1) =>
    match decodeInput x with
    | .ok i => exec i s1
    | .error _ => rejectInput x s1

/-- The state whose next arrival is the one that a table row's bits stand for (log 1, log 15). -/
def State.withFetchWord (s : State) (nbits w : Nat) : State := { s with inputs := tableInput nbits w :: s.inputs }

end Sys2Proof.Machine
end

