-- ==== Sys2Proof/Machine/Assembler.lean ====
section
/-! DEFINITION. The assembler's text and the pseudo-steps of test programs (30_encoding.md R58, R59). It gives no
instruction a meaning: a line expands to steps that `exec` runs. -/

namespace Sys2Proof.Machine

/-! ### Operands and single commands (30_encoding.md R58) -/

/-- The CH byte that a channel operand spells. -/
def asmChByte : AsmCh → Byte
  | .A => 0x00
  | .B => 0x01
  | .raw n => BitVec.ofNat 8 n

/-- The exact value of the decimal literal `(-1)^neg * digits * 10^exp`. -/
def decimalValue (neg : Bool) (digits : Nat) (exp : Int) : Frac :=
  let m : Frac := if 0 ≤ exp then { num := (digits * 10 ^ exp.toNat : Nat), den := 1 }
    else { num := digits, den := 10 ^ (-exp).toNat }
  if neg then m.neg else m

/-- The binary32 encoding that an operand spells. A negated zero is `-0.0`, as vector SETB8 spells it (log 16). -/
def asmF32Encoding : AsmF32 → F32
  | .decimal neg digits exp =>
    if neg && digits == 0 then 0x80000000 else rne32 (decimalValue neg digits exp)
  | .bits n => BitVec.ofNat 32 n
  | .posInf => f32PosInf
  | .negInf => f32NegInf
  | .nan => f32NaN

/-! ### Expansion of a line into steps (30_encoding.md R59) -/

/-- The step of the machine that runs `i`: what `step` does when the next arrival is the encoding of `i`. -/
def runInstr (i : Instr) (s : State) : Host.Outcome State Fault Refusal := exec i (noteInput (encode i) s)

/-- The state after the dispatch of an enabled source (60_exceptions.md R107). -/
def afterDispatch (src : Source) (s : State) : State :=
  handler src s.tcnt (enterDispatch src (noteInput (encode (Instr.dispatch src)) s))

/-- `DISPATCH*`: the dispatches taken, first source first, while any is enabled. A dispatch clears a flag and sets none,
so three are enough (log 16). -/
def dispatchAllFrom : Nat → State → List Instr
  | 0, _ => []
  | k + 1, s =>
    match firstEnabled s with
    | none => []
    | some src => Instr.dispatch src :: dispatchAllFrom k (afterDispatch src s)

/-- The steps a line stands for when it starts in state `s`; none where the line is ill-formed there. -/
def expandLine (l : AsmLine) (s : State) : Option (List Instr) :=
  if l.wellFormed = false then none else
  match l with
  | .beginCmd pl mto on off => some [.beginCmd (BitVec.ofNat 16 pl) (BitVec.ofNat 16 mto) (asmF32Encoding on) (asmF32Encoding off)]
  | .endCmd => some [.endCmd]
  | .setB ch value => some [.setB (asmChByte ch) (asmF32Encoding value)]
  | .getB ch => some [.getB (asmChByte ch)]
  | .dis ch => some [.dis (asmChByte ch)]
  | .tick => some [.tick]
  | .ticks n => some (List.replicate n .tick)
  | .runTo t => some (List.replicate (BitVec.ofNat 16 t - s.tcnt).toNat .tick)
  | .zc => some [.zc]
  | .dispatch src => if dispatchEnabled s src then some [Instr.dispatch src] else none
  | .dispatchFirst => (firstEnabled s).map fun src => [Instr.dispatch src]
  | .dispatchAll => some (dispatchAllFrom 3 s)

/-- Runs steps one after another: the state after a sequence is the composition of the steps (20_memory.md R41). -/
def runSteps : List Instr → State → Host.Outcome State Fault Refusal
  | [], s => .next s
  | i :: rest, s =>
    match runInstr i s with
    | .next t => runSteps rest t
    | .fault r => .fault r
    | .refused r => .refused r

/-- Runs a test program line by line; none where a line is ill-formed or a step has no next state. -/
def runProgram : List AsmLine → State → Option State
  | [], s => some s
  | l :: rest, s =>
    match expandLine l s with
    | none => none
    | some steps =>
      match runSteps steps s with
      | .next t => runProgram rest t
      | .fault _ => none
      | .refused _ => none

/-! ### Text (30_encoding.md R58, R59, log 16) -/

/-- Splits a line into words; a comma is a word of its own. -/
def wordsFrom : List Char → List Char → List (List Char)
  | [], acc => if acc = [] then [] else [acc.reverse]
  | ch :: rest, acc =>
    let done := if acc = [] then [] else [acc.reverse]
    if ch = ' ' ∨ ch = '\t' then done ++ wordsFrom rest []
    else if ch = ',' then done ++ [','] :: wordsFrom rest []
    else wordsFrom rest (ch :: acc)

/-- The value of a digit in base 16, letters in either case. -/
def hexDigit (ch : Char) : Option Nat :=
  let n := ch.toNat
  if 48 ≤ n ∧ n ≤ 57 then some (n - 48)
  else if 97 ≤ n ∧ n ≤ 102 then some (n - 87)
  else if 65 ≤ n ∧ n ≤ 70 then some (n - 55)
  else none

/-- The value of a decimal digit. -/
def decDigit (ch : Char) : Option Nat := (hexDigit ch).filter (· < 10)

/-- A nonempty string of digits in the given base, read with the given digit function. -/
def digitsFrom (base : Nat) (digit : Char → Option Nat) : List Char → Nat → Option Nat
  | [], acc => some acc
  | ch :: rest, acc => (digit ch).bind fun d => digitsFrom base digit rest (acc * base + d)

/-- An unsigned decimal number. -/
def parseDec (cs : List Char) : Option Nat := if cs = [] then none else digitsFrom 10 decDigit cs 0

/-- An unsigned hexadecimal number. -/
def parseHex (cs : List Char) : Option Nat := if cs = [] then none else digitsFrom 16 hexDigit cs 0

/-- An unsigned integer, in decimal or as `0x` hexadecimal: 30_encoding.md R58 says so of `pl` and `mto`. -/
def parseNat : List Char → Option Nat
  | '0' :: 'x' :: rest => parseHex rest
  | cs => parseDec cs

/-- A channel operand: `A`, `B` or `#n`. DESIGN CHOICE: `n` is written in decimal or as `0x` hexadecimal, as `pl` and `mto` are;
30_encoding.md R58 gives its range and not its base (log 16). -/
def parseCh : List Char → Option AsmCh
  | ['A'] => some .A
  | ['B'] => some .B
  | '#' :: rest => (parseNat rest).map .raw
  | _ => none

/-- A decimal exponent, with an optional sign. -/
def parseExp : List Char → Option Int
  | '-' :: rest => (parseDec rest).map fun n => -(n : Int)
  | '+' :: rest => (parseDec rest).map fun n => (n : Int)
  | cs => (parseDec cs).map fun n => (n : Int)

/-- The text before the first of some characters, and the text after it if there is one. -/
def splitAtChar (p : Char → Bool) : List Char → List Char × Option (List Char)
  | [] => ([], none)
  | ch :: rest => if p ch then ([], some rest) else let r := splitAtChar p rest; (ch :: r.1, r.2)

/-- A decimal literal without its sign: digits, an optional fraction, an optional exponent. -/
def parseDecimal (neg : Bool) (cs : List Char) : Option AsmF32 :=
  let mantissa := splitAtChar (fun ch => ch = 'e' ∨ ch = 'E') cs
  let parts := splitAtChar (· = '.') mantissa.1
  let exp := match mantissa.2 with
    | none => some 0
    | some e => parseExp e
  let whole := match parts.2 with
    | none => (parseDec parts.1).map fun n => (n, 0)
    | some f =>
      match parseDec parts.1, parseDec f with
      | some _, some _ => (parseDec (parts.1 ++ f)).map fun n => (n, f.length)
      | _, _ => none
  match whole, exp with
  | some (n, k), some e => some (.decimal neg n (e - k))
  | _, _ => none

/-- A binary32 operand. -/
def parseF32 : List Char → Option AsmF32
  | ['+', 'i', 'n', 'f'] => some .posInf
  | ['-', 'i', 'n', 'f'] => some .negInf
  | ['n', 'a', 'n'] => some .nan
  | '0' :: 'f' :: rest => if rest.length = 8 then (parseHex rest).map .bits else none
  | '-' :: rest => parseDecimal true rest
  | cs => parseDecimal false cs

/-- One line, given as its words. DESIGN CHOICE: the numbers of `TICK*n` and `RUNTO t` are written in decimal or as `0x`
hexadecimal; 30_encoding.md R59 gives no base (log 16). -/
def parseWords : List (List Char) → Option AsmLine
  | [['B', 'E', 'G', 'I', 'N'], pl, [','], mto, [','], on, [','], off] =>
    match parseNat pl, parseNat mto, parseF32 on, parseF32 off with
    | some a, some b, some x, some y => some (.beginCmd a b x y)
    | _, _, _, _ => none
  | [['E', 'N', 'D']] => some .endCmd
  | [['S', 'E', 'T', 'B'], ch, [','], value] =>
    match parseCh ch, parseF32 value with
    | some c, some x => some (.setB c x)
    | _, _ => none
  | [['G', 'E', 'T', 'B'], ch] => (parseCh ch).map .getB
  | [['D', 'I', 'S'], ch] => (parseCh ch).map .dis
  | [['T', 'I', 'C', 'K']] => some .tick
  | ['T' :: 'I' :: 'C' :: 'K' :: '*' :: n] => (parseNat n).map .ticks
  | [['R', 'U', 'N', 'T', 'O'], t] => (parseNat t).map .runTo
  | [['Z', 'C']] => some .zc
  | [['D', 'I', 'S', 'P', 'A', 'T', 'C', 'H'], ['C', 'A', 'P', 'T']] => some (.dispatch .capt)
  | [['D', 'I', 'S', 'P', 'A', 'T', 'C', 'H'], ['A']] => some (.dispatch (.cmp .A))
  | [['D', 'I', 'S', 'P', 'A', 'T', 'C', 'H'], ['B']] => some (.dispatch (.cmp .B))
  | [['D', 'I', 'S', 'P', 'A', 'T', 'C', 'H']] => some .dispatchFirst
  | [['D', 'I', 'S', 'P', 'A', 'T', 'C', 'H', '*']] => some .dispatchAll
  | _ => none

/-- One line of text, one command or event line per line; ill-formed operands are refused. -/
def parseLine (cs : List Char) : Option AsmLine := (parseWords (wordsFrom cs [])).filter AsmLine.wellFormed

end Sys2Proof.Machine
end

