-- ==== Sys2Proof/Safety.lean ====
section
/-! DEFINITION. What claims are made of: fault-free states (60_exceptions.md R104), reachability, and the invariants of the
reachable state (10_state.md section 9). -/

namespace Sys2Proof.Machine

/-- No fault has been recorded: a run that has recorded one is never a successful run (60_exceptions.md R104). -/
def State.FaultFree (s : State) : Prop := s.fault = 0

/-- The states that the block reaches from power-on reset under some legal parameters: anything may arrive at any time
(60_exceptions.md R119), and the arrivals are taken one step at a time, in any order (20_memory.md R41). -/
inductive Reachable : State → Prop where
  | powerOn (p : Params) (h : p.wellFormed = true) : Reachable (State.powerOn p)
  | arrive {s : State} (x : Input) (h : Reachable s) : Reachable { s with inputs := s.inputs ++ [x] }
  | step {s t : State} (h : Reachable s) (e : step s = .next t) : Reachable t

/-- 10_state.md R32, for one channel. -/
def State.DisabledIsQuiet (s : State) (c : Ch) : Prop :=
  (s.chan c).en = false → (s.chan c).com = .none ∧ s.ie.cmp c = false ∧ (s.chan c).ph = .quiescent

/-- 10_state.md R33, for one channel. -/
structure State.PhaseAgrees (s : State) (c : Ch) : Prop where
  com_iff : (s.chan c).ph = .quiescent ↔ (s.chan c).com = .none
  ie_iff : (s.chan c).ph = .quiescent ↔ s.ie.cmp c = false
  armed : (s.chan c).ph = .armedForRise → (s.chan c).com = .driveHigh
  waiting : (s.chan c).ph = .waitingForFall → (s.chan c).com = .driveLow

/-- 10_state.md R34, with the rest of the unit, which is at its reset values outside RUNNING too
(44_system_interface.md R101). -/
structure State.StoppedIsQuiet (s : State) : Prop where
  ie : s.ie = SourceBits.none
  ifl : s.ifl = SourceBits.none
  tcnt : s.tcnt = 0
  icr : s.icr = 0
  unit : ∀ c : Ch, (s.chan c).com = .none ∧ (s.chan c).ocr = 0 ∧ (s.chan c).ocl = false

/-- 10_state.md R35, for one channel. -/
def State.DelaysOrdered (s : State) (c : Ch) : Prop := (s.chan c).rise.toNat ≤ (s.chan c).fall.toNat

/-- The invariants of 10_state.md section 9 together, with the reserved bits 7:5 of `FAULT` (R14) and the capture enable,
which is set exactly in RUNNING (R28), and `ZCT = LAST_CAPTURE` (R17). -/
structure State.Inv (s : State) : Prop where
  disabled : ∀ c : Ch, s.DisabledIsQuiet c
  phase : ∀ c : Ch, s.PhaseAgrees c
  stopped : s.rs ≠ .running → s.StoppedIsQuiet
  running : s.rs = .running → s.ie.capt = true
  delays : ∀ c : Ch, s.DelaysOrdered c
  faultReserved : s.fault &&& 0xE0#8 = 0#8
  zct : s.zct = s.lastCapture

/-- How the latch stands in a half-cycle (43_pulse_scheduler.md R85, R90, R92, R93): low while armed until the rise match,
high after it; low while waiting for the fall once the fall match has come. -/
structure State.LatchAgrees (s : State) (c : Ch) : Prop where
  armed : (s.chan c).ph = .armedForRise → (s.chan c).ocl = s.ifl.cmp c
  matched : (s.chan c).ph = .waitingForFall → s.ifl.cmp c = true → (s.chan c).ocl = false

/-- The compare target of a waiting channel is the zero-cross plus its offset (43_pulse_scheduler.md R92): the fall target
is never relative to the rise event. -/
def State.FallTarget (s : State) (c : Ch) : Prop :=
  (s.chan c).ph = .waitingForFall → (s.chan c).ocr = s.zct + (s.chan c).fallBuf

/-! ### Values, for statements about the arithmetic -/

/-- An extended real as a point of the rational line with its two ends, ordered as usual. -/
def ExtReal.toLine : ExtReal → WithBot (WithTop ℚ)
  | .negInf => ⊥
  | .fin q => ((q.toRat : WithTop ℚ) : WithBot (WithTop ℚ))
  | .posInf => ⊤

/-- The rational that a finite binary32 encoding stands for. -/
def F32Is (b : F32) (q : ℚ) : Prop := ∃ x : Frac, val b = some (.fin x) ∧ x.toRat = q

/-! ### Runs -/

/-- Does the CH byte name the channel (30_encoding.md R53)? -/
def Names (ch : Byte) (c : Ch) : Prop := chanOf ch = some c

/-- A step that leaves an armed channel `c` alone (43_pulse_scheduler.md section 5): no zero-cross handler, no compare
handler of `c`, no `END`, no `DIS c`, and no `SETB c` that is forced. -/
def LeavesArmed (c : Ch) (i : Instr) (s : State) : Prop :=
  match i with
  | .beginCmd _ _ _ _ => True
  | .endCmd => False
  | .setB ch value => Names ch c → ∀ x : ExtReal, val value = some x →
      aboveThreshold x s.cfgOnThresh = false ∧ belowThreshold x s.cfgOffThresh = false
  | .getB _ => True
  | .dis ch => ¬ Names ch c
  | .tick => True
  | .zc => True
  | .dispatchCapt => False
  | .dispatchA => c ≠ .A
  | .dispatchB => c ≠ .B

/-- A run of steps each of which leaves channel `c` alone. -/
inductive QuietRun (c : Ch) : State → List Instr → State → Prop where
  | nil (s : State) : QuietRun c s [] s
  | cons {s t u : State} {i : Instr} {rest : List Instr} (h : LeavesArmed c i s) (e : runInstr i s = .next t)
      (r : QuietRun c t rest u) : QuietRun c s (i :: rest) u

/-- How many steps of a run are `TICK`s. -/
def tickCount (steps : List Instr) : Nat := steps.count .tick

/-- Two states that differ at most in what belongs to channel `c` and in the response port. -/
def SameButChannel (c : Ch) (s t : State) : Prop :=
  ∃ (x : Chan) (e f : Bool) (r : Option Response),
    t = { s.setChan c x with ie := s.ie.setCmp c e, ifl := s.ifl.setCmp c f, rsp := r }

end Sys2Proof.Machine
end

