-- ==== Sys2Proof/Certificates/Slice0/Obligations.lean ====
section
/-! DEFINITION. The statements for the provers: each formalises a numbered rule of the spec or a consequence of several.
`s` is a state before a step and `t` after it; a result is stated as the whole next state, so that it is its own frame. -/

open Sys2Proof
open Sys2Proof.Machine

/-! ### Encoding -/

/-- Every instruction's encoding decodes to it, at every operand value (30_encoding.md R49, R50, R55). -/
def Obligations.DecodeOfEncode : Prop :=
  ∀ i : Instr, i.wellFormed = true → decodeInput (encode i) = .ok i

/-- An arrival that decodes is the encoding of what it decodes to: there is no don't-care bit, so every word has one
meaning (30_encoding.md R50, R57; 92_eei_decisions.md D26). -/
def Obligations.EncodeOfDecode : Prop :=
  ∀ (x : Input) (i : Instr), decodeInput x = .ok i → encode i = x

/-- 30_encoding.md R57: exactly these words are illegal, and each raises `Fault(ILLEGAL)` in every state. The fields are
written by their bits (R48). -/
def Obligations.IllegalWordsAreExactlyThese : Prop :=
  ∀ w : CmdWord,
    let illegal := w.extractLsb' 120 8 ∉ [0x01#8, 0x02#8, 0x10#8, 0x11#8, 0x12#8] ∨
      w.extractLsb' 96 16 ≠ 0 ∨
      (w.extractLsb' 120 8 = 0x01#8 ∧ w.extractLsb' 112 8 ≠ 0) ∨
      (w.extractLsb' 120 8 = 0x02#8 ∧ (w.extractLsb' 112 8 ≠ 0 ∨ w.extractLsb' 80 16 ≠ 0 ∨ w.extractLsb' 64 16 ≠ 0 ∨
        w.extractLsb' 32 32 ≠ 0 ∨ w.extractLsb' 0 32 ≠ 0)) ∨
      (w.extractLsb' 120 8 = 0x10#8 ∧ (w.extractLsb' 80 16 ≠ 0 ∨ w.extractLsb' 64 16 ≠ 0 ∨ w.extractLsb' 0 32 ≠ 0)) ∨
      ((w.extractLsb' 120 8 = 0x11#8 ∨ w.extractLsb' 120 8 = 0x12#8) ∧ (w.extractLsb' 80 16 ≠ 0 ∨
        w.extractLsb' 64 16 ≠ 0 ∨ w.extractLsb' 32 32 ≠ 0 ∨ w.extractLsb' 0 32 ≠ 0))
    (illegal ↔ ∃ e, decodeCommand w = .error e) ∧
    (illegal ↔ ∀ (s : State) (rest : List Input), s.inputs = .cmd w :: rest →
      ∃ (t : State) (r : Response), step s = .next t ∧ t.rsp = some r ∧ r.status = .illegal)

/-- The words that 30_encoding.md section 8 writes out, with every field shown. -/
def Obligations.ExampleWordsDecode : Prop :=
  decodeCommand 0x01000000001407D040000000BF800000 = .ok (.beginCmd 20 2000 0x40000000 0xBF800000) ∧
  decodeCommand 0x01000000001407D03F7D70A43C23D70A = .ok (.beginCmd 20 2000 0x3F7D70A4 0x3C23D70A) ∧
  decodeCommand 0x02000000000000000000000000000000 = .ok .endCmd ∧
  decodeCommand 0x10000000000000003F00000000000000 = .ok (.setB 0x00 0x3F000000) ∧
  decodeCommand 0x10010000000000003F80000000000000 = .ok (.setB 0x01 0x3F800000) ∧
  decodeCommand 0x11000000000000000000000000000000 = .ok (.getB 0x00) ∧
  decodeCommand 0x12010000000000000000000000000000 = .ok (.dis 0x01) ∧
  decodeCommand 0x10020000000000003F00000000000000 = .ok (.setB 0x02 0x3F000000) ∧
  decodeCommand 0x11000000000000000000000100000000 = .error .unusedFieldNonzero

/-- 30_encoding.md R55: the event labels, and that no other code labels a step. -/
def Obligations.EventLabels : Prop :=
  ∀ (code : EvtCode) (i : Instr),
    decodeEvent code = .ok i ↔
      (code.toNat = 1 ∧ i = .tick) ∨ (code.toNat = 2 ∧ i = .zc) ∨ (code.toNat = 3 ∧ i = .dispatchCapt) ∨
      (code.toNat = 4 ∧ i = .dispatchA) ∨ (code.toNat = 5 ∧ i = .dispatchB)

/-- 30_encoding.md R56: byte `k` of a command word carries its bits `127-8k : 120-8k` and byte `k` of a response word its
bits `63-8k : 56-8k`; and sixteen bytes so sent decode as the word. -/
def Obligations.BytesTravelMostSignificantFirst : Prop :=
  (∀ (w : CmdWord) (k : Nat), k < 16 → (CmdWord.bytes w)[k]? = some (w.extractLsb' (120 - 8 * k) 8)) ∧
  (∀ w : CmdWord, (CmdWord.bytes w).length = 16) ∧
  (∀ (r : Response) (k : Nat), k < 8 → r.bytes[k]? = some (r.word.extractLsb' (56 - 8 * k) 8)) ∧
  (∀ (w : CmdWord) (rest : List Byte), decodeBytes (CmdWord.bytes w ++ rest) = some (decodeCommand w, rest))

/-! ### The step -/

/-- When the next arrival decodes to an instruction, a step is that instruction, with the arrival taken off the schedule
(20_memory.md R41); so a run of instructions is a run of steps. With no arrival left, a step changes nothing. That clause,
the schedule and the two fields that note the arrival are the model's choice: log 1, log 2 and log 4. -/
def Obligations.StepRunsTheDecodedInstruction : Prop :=
  (∀ (s : State) (x : Input) (rest : List Input) (i : Instr), s.inputs = x :: rest → decodeInput x = .ok i →
    step s = exec i { s with inputs := rest, lastInput := some x,
                             draws := if s.lastInput = some x then s.draws else s.draws + 1 }) ∧
  (∀ (s : State) (i : Instr) (rest : List Input), s.inputs = encode i :: rest →
    step s = runInstr i { s with inputs := rest }) ∧
  (∀ s : State, s.inputs = [] → step s = .next s)

/-- 30_encoding.md R50: a word that decodes to ILLEGAL raises `Fault(ILLEGAL)` and has no other effect, in any state, but on
what the model itself notes of an arrival (log 1, log 4). -/
def Obligations.IllegalWordRaisesIllegal : Prop :=
  ∀ (s : State) (w : CmdWord) (rest : List Input) (e : DecodeError),
    s.inputs = .cmd w :: rest → decodeCommand w = .error e →
      step s = .next { s with inputs := rest, lastInput := some (.cmd w),
                              draws := if s.lastInput = some (.cmd w) then s.draws else s.draws + 1,
                              fault := s.fault ||| 0x01#8,
                              rsp := some { status := .illegal, fault := s.fault ||| 0x01#8, data := 0 } }

/-- An event code that labels no step is refused by name. The refusal is the model's choice (log 5); which codes these are
is 30_encoding.md R55. -/
def Obligations.UnassignedEventIsRefused : Prop :=
  ∀ (s : State) (code : EvtCode) (rest : List Input), s.inputs = .evt code :: rest → code.toNat = 0 ∨ 6 ≤ code.toNat →
    step s = .refused (.unassignedEvent code)

/-- Every step but a dispatch has a next state in every state: every command has a response, and every step is total
(93_implementation_defined.md section 2). -/
def Obligations.EveryStepButADispatchCompletes : Prop :=
  ∀ (s : State) (i : Instr), (∀ src, i ≠ Instr.dispatch src) → ∃ t, exec i s = .next t

/-! ### Responses and faults -/

/-- 30_encoding.md R54: every command, faulting or not, produces a response: a decoded one, and a word that decodes to
ILLEGAL. Its fields are laid out so; FAULT is the register after the command; DATA is the result of `GETB` when its status is
OK, any value when it is DIV0, else 0. -/
def Obligations.EveryCommandResponds : Prop :=
  let answers := fun (t : State) (r : Response) =>
    t.rsp = some r ∧ r.fault = t.fault ∧ r.word.extractLsb' 56 8 = r.status.code ∧ r.word.extractLsb' 48 8 = 0 ∧
    r.word.extractLsb' 40 8 = t.fault ∧ r.word.extractLsb' 32 8 = 0 ∧ r.word.extractLsb' 0 32 = r.data ∧
    (r.status ≠ .ok → r.status ≠ .div0 → r.data = 0)
  (∀ (i : Instr) (s : State), i.isCommand = true →
    ∃ (t : State) (r : Response), exec i s = .next t ∧ answers t r ∧
      (r.status = .ok → (∀ ch, i ≠ .getB ch) → r.data = 0) ∧
      (r.status = .ok → ∀ ch, i = .getB ch →
        ∃ c, chanOf ch = some c ∧ r.data = mapGet s.params.numerics (s.chan c).rise s.period)) ∧
  (∀ (s : State) (w : CmdWord) (rest : List Input) (e : DecodeError), s.inputs = .cmd w :: rest →
    decodeCommand w = .error e →
    ∃ (t : State) (r : Response), step s = .next t ∧ answers t r ∧ r.status = .illegal) ∧
  [Status.ok.code, Status.illegal.code, Status.state.code, Status.chan.code, Status.value.code, Status.div0.code] =
    [0, 1, 2, 3, 4, 5]

/-- 60_exceptions.md R104: a fault is precise and sticky. A command whose response has a status other than OK changes
nothing but the fault's own bit and the response, whose DATA is 0 except for DIV0; and no step of any kind clears a bit of
`FAULT`. -/
def Obligations.FaultsArePreciseAndSticky : Prop :=
  (∀ (i : Instr) (s t : State) (r : Response), i.isCommand = true → exec i s = .next t → t.rsp = some r → r.status ≠ .ok →
    ∃ (k : FaultKind) (d : BitVec 32), r.status = k.status ∧ (k ≠ .div0 → d = 0) ∧
      t = { s with fault := s.fault ||| k.mask,
                   rsp := some { status := k.status, fault := s.fault ||| k.mask, data := d } }) ∧
  (∀ s t : State, step s = .next t → s.fault &&& t.fault = s.fault)

/-- No background or hardware step raises a fault, and a command that answers OK leaves `FAULT` as it is (60_exceptions.md
section 1). That an event step leaves the response port as it is, is the model's choice (log 7); so is the field `draws`, which
no instruction writes (log 4). -/
def Obligations.OnlyFaultingCommandsTouchFault : Prop :=
  ∀ (i : Instr) (s t : State), exec i s = .next t →
    (i.isCommand = false → t.fault = s.fault ∧ t.rsp = s.rsp ∧ t.draws = s.draws) ∧
    (∀ r, i.isCommand = true → t.rsp = some r → r.status = .ok → t.fault = s.fault ∧ t.draws = s.draws)

/-- 44_system_interface.md R102: the run-state transitions and the statuses that go with them. A facade command answers STATE
exactly in UNCONFIGURED, and otherwise OK or one of its own faults, as its own rule names them (R81, R82, R84). -/
def Obligations.RunStateTransitions : Prop :=
  (∀ (s : State) (pl mto : Tick) (on off : F32), ∃ (t : State) (r : Response),
    exec (.beginCmd pl mto on off) s = .next t ∧ t.rsp = some r ∧ t.rs = .running ∧
    r.status = if s.rs = .running then .state else .ok) ∧
  (∀ s : State, ∃ (t : State) (r : Response), exec .endCmd s = .next t ∧ t.rsp = some r ∧ r.status = .ok ∧
    t.rs = if s.rs = .running then .stopped else s.rs) ∧
  (∀ (s : State) (i : Instr), (∃ ch value, i = .setB ch value) ∨ (∃ ch, i = .getB ch) ∨ (∃ ch, i = .dis ch) →
    ∃ (t : State) (r : Response), exec i s = .next t ∧ t.rsp = some r ∧ t.rs = s.rs ∧
      (s.rs = .unconfigured ↔ r.status = .state) ∧
      (r.status = .ok ∨ r.status = .state ∨ r.status = .chan ∨
        (r.status = .value ∧ ∃ ch value, i = .setB ch value) ∨ (r.status = .div0 ∧ ∃ ch, i = .getB ch))) ∧
  (∀ (s t : State) (i : Instr), i.isCommand = false → exec i s = .next t → t.rs = s.rs) ∧
  (∀ (s t : State) (w : CmdWord) (rest : List Input) (e : DecodeError), s.inputs = .cmd w :: rest →
    decodeCommand w = .error e → step s = .next t → t.rs = s.rs) ∧
  (∀ p : Params, (State.powerOn p).rs = .unconfigured)

/-! ### The system interface -/

/-- 44_system_interface.md R100: `BEGIN`. -/
def Obligations.BeginFollowsItsRule : Prop :=
  ∀ (s : State) (pl mto : Tick) (on off : F32),
    (s.rs = .running → exec (.beginCmd pl mto on off) s = .next
      { s with fault := s.fault ||| 0x02#8, rsp := some { status := .state, fault := s.fault ||| 0x02#8, data := 0 } }) ∧
    (s.rs ≠ .running → exec (.beginCmd pl mto on off) s = .next
      { s with cfgPulseLength := pl, cfgMinTrigger := mto, cfgOnThresh := on, cfgOffThresh := off, tcnt := 0, icr := 0,
               chA := { s.chA with ocr := 0, com := .none, ocl := false },
               chB := { s.chB with ocr := 0, com := .none, ocl := false },
               ifl := { capt := false, cmpA := false, cmpB := false },
               ie := { capt := true, cmpA := false, cmpB := false },
               rs := .running, rsp := some { status := .ok, fault := s.fault, data := 0 } })

/-- 44_system_interface.md R101: `END`. -/
def Obligations.EndFollowsItsRule : Prop :=
  ∀ s : State, exec .endCmd s = .next
    { s with ie := { capt := false, cmpA := false, cmpB := false }, tcnt := 0, icr := 0,
             chA := { s.chA with ocr := 0, com := .none, ocl := false, ph := .quiescent },
             chB := { s.chB with ocr := 0, com := .none, ocl := false, ph := .quiescent },
             ifl := { capt := false, cmpA := false, cmpB := false },
             rs := if s.rs = .running then .stopped else s.rs,
             rsp := some { status := .ok, fault := s.fault, data := 0 } }

/-- `END` outside RUNNING changes no state of the block: every element it writes already holds what it writes
(44_system_interface.md, corner cases of R101). -/
def Obligations.EndOutsideRunningChangesNothing : Prop :=
  ∀ s : State, s.Inv → s.rs ≠ .running →
    exec .endCmd s = .next { s with rsp := some { status := .ok, fault := s.fault, data := 0 } }

/-! ### The facade -/

/-- 42_channel_control_facade.md R81, with R79 and R80: `SETB` in every case, the faults in their order. -/
def Obligations.SetbFollowsItsRule : Prop :=
  ∀ (s : State) (ch : Byte) (value : F32),
    (s.rs = .unconfigured → exec (.setB ch value) s = .next
      { s with fault := s.fault ||| 0x02#8, rsp := some { status := .state, fault := s.fault ||| 0x02#8, data := 0 } }) ∧
    (s.rs ≠ .unconfigured → ch ≠ 0 → ch ≠ 1 → exec (.setB ch value) s = .next
      { s with fault := s.fault ||| 0x04#8, rsp := some { status := .chan, fault := s.fault ||| 0x04#8, data := 0 } }) ∧
    (∀ c : Ch, s.rs ≠ .unconfigured → (ch = 0 ∧ c = .A) ∨ (ch = 1 ∧ c = .B) →
      (val value = none → exec (.setB ch value) s = .next
        { s with fault := s.fault ||| 0x08#8, rsp := some { status := .value, fault := s.fault ||| 0x08#8, data := 0 } }) ∧
      (∀ x : ExtReal, val value = some x →
        ((∃ y, val s.cfgOnThresh = some y ∧ y.toLine < x.toLine) → exec (.setB ch value) s = .next
          { s.setChan c { s.chan c with en := false, com := .none, ph := .quiescent, static := true } with
            ie := s.ie.setCmp c false, ifl := s.ifl.setCmp c false,
            rsp := some { status := .ok, fault := s.fault, data := 0 } }) ∧
        (¬ (∃ y, val s.cfgOnThresh = some y ∧ y.toLine < x.toLine) →
         (∃ y, val s.cfgOffThresh = some y ∧ x.toLine < y.toLine) → exec (.setB ch value) s = .next
          { s.setChan c { s.chan c with en := false, com := .none, ph := .quiescent, static := false } with
            ie := s.ie.setCmp c false, ifl := s.ifl.setCmp c false,
            rsp := some { status := .ok, fault := s.fault, data := 0 } }) ∧
        (¬ (∃ y, val s.cfgOnThresh = some y ∧ y.toLine < x.toLine) →
         ¬ (∃ y, val s.cfgOffThresh = some y ∧ x.toLine < y.toLine) → exec (.setB ch value) s = .next
          { s.setChan c { s.chan c with
              rise := BitVec.ofInt 16 (mapSet s.params.numerics x s.period s.cfgPulseLength s.cfgMinTrigger).1,
              fall := BitVec.ofInt 16 (mapSet s.params.numerics x s.period s.cfgPulseLength s.cfgMinTrigger).2,
              en := true, static := false } with
            rsp := some { status := .ok, fault := s.fault, data := 0 } })))

/-- 42_channel_control_facade.md R82: `GETB` in every case. The DATA of a DIV0 response is some value `d`, the rule's
draw. -/
def Obligations.GetbFollowsItsRule : Prop :=
  ∀ (s : State) (ch : Byte),
    (s.rs = .unconfigured → exec (.getB ch) s = .next
      { s with fault := s.fault ||| 0x02#8, rsp := some { status := .state, fault := s.fault ||| 0x02#8, data := 0 } }) ∧
    (s.rs ≠ .unconfigured → ch ≠ 0 → ch ≠ 1 → exec (.getB ch) s = .next
      { s with fault := s.fault ||| 0x04#8, rsp := some { status := .chan, fault := s.fault ||| 0x04#8, data := 0 } }) ∧
    (∀ c : Ch, s.rs ≠ .unconfigured → (ch = 0 ∧ c = .A) ∨ (ch = 1 ∧ c = .B) →
      (s.period = 0 → ∃ d, exec (.getB ch) s = .next
        { s with fault := s.fault ||| 0x10#8,
                 rsp := some { status := .div0, fault := s.fault ||| 0x10#8, data := d } }) ∧
      (s.period ≠ 0 → exec (.getB ch) s = .next
        { s with rsp := some { status := .ok, fault := s.fault,
                               data := mapGet s.params.numerics (s.chan c).rise s.period } }))

/-- 42_channel_control_facade.md R84, with R80: `DIS` in every case; `STATIC[c]` is left unchanged. -/
def Obligations.DisFollowsItsRule : Prop :=
  ∀ (s : State) (ch : Byte),
    (s.rs = .unconfigured → exec (.dis ch) s = .next
      { s with fault := s.fault ||| 0x02#8, rsp := some { status := .state, fault := s.fault ||| 0x02#8, data := 0 } }) ∧
    (s.rs ≠ .unconfigured → ch ≠ 0 → ch ≠ 1 → exec (.dis ch) s = .next
      { s with fault := s.fault ||| 0x04#8, rsp := some { status := .chan, fault := s.fault ||| 0x04#8, data := 0 } }) ∧
    (∀ c : Ch, s.rs ≠ .unconfigured → (ch = 0 ∧ c = .A) ∨ (ch = 1 ∧ c = .B) → exec (.dis ch) s = .next
      { s.setChan c { s.chan c with en := false, com := .none, ph := .quiescent } with
        ie := s.ie.setCmp c false, ifl := s.ifl.setCmp c false,
        rsp := some { status := .ok, fault := s.fault, data := 0 } })

/-- 20_memory.md R40: `GETB` changes no state but `FAULT` where it faults (and the response); two steps of one `GETB` with no
step between give the same response, DIV0 included; `SETB` and `DIS` are idempotent; and every command but `GETB` may change
state. The schedule is the model's (log 1). -/
def Obligations.FacadeCommandsAreIdempotent : Prop :=
  (∀ (s t : State) (ch : Byte), exec (.getB ch) s = .next t → t = { s with fault := t.fault, rsp := t.rsp } ∧
    ∀ r, t.rsp = some r → r.status = .ok → t.fault = s.fault) ∧
  (∀ (s : State) (x : Input) (rest : List Input) (ch : Byte), s.inputs = x :: x :: rest → decodeInput x = .ok (.getB ch) →
    ∃ t u, step s = .next t ∧ step t = .next u ∧ u = { t with inputs := rest }) ∧
  (∀ (s : State) (x : Input) (rest : List Input) (i : Instr), s.inputs = x :: x :: rest → decodeInput x = .ok i →
    (∃ ch value, i = .setB ch value) ∨ (∃ ch, i = .dis ch) →
    ∃ t u, step s = .next t ∧ step t = .next u ∧ u = { t with inputs := rest }) ∧
  (∀ i : Instr, i.isCommand = true → (∀ ch, i ≠ .getB ch) →
    ∃ s t : State, exec i s = .next t ∧ { t with rsp := s.rsp } ≠ s)

/-- 42_channel_control_facade.md R83: after a forced `SETB c`, `GETB c` answers from the rise delay that stood before it,
not from the forced level. -/
def Obligations.GetbDoesNotReportTheForcedLevel : Prop :=
  ∀ (s t : State) (ch : Byte) (value : F32) (c : Ch) (x : ExtReal),
    chanOf ch = some c → val value = some x →
    aboveThreshold x s.cfgOnThresh = true ∨ belowThreshold x s.cfgOffThresh = true →
    s.rs ≠ .unconfigured → s.period ≠ 0 → exec (.setB ch value) s = .next t →
    ∃ u, exec (.getB ch) t = .next u ∧
      u.rsp = some { status := .ok, fault := s.fault, data := mapGet s.params.numerics (s.chan c).rise s.period }

/-! ### Who writes what (10_state.md section 2) -/

/-- 10_state.md, R15: only `BEGIN` writes the configuration, and not while RUNNING; the parameters are written by no step
(that is the model's: log 6). -/
def Obligations.OnlyBeginConfigures : Prop :=
  ∀ (i : Instr) (s t : State), exec i s = .next t →
    t.params = s.params ∧
    (((∀ pl mto on off, i ≠ .beginCmd pl mto on off) ∨ s.rs = .running) →
      t.cfgPulseLength = s.cfgPulseLength ∧ t.cfgMinTrigger = s.cfgMinTrigger ∧ t.cfgOnThresh = s.cfgOnThresh ∧
      t.cfgOffThresh = s.cfgOffThresh)

/-- 40_period_tracker.md R61: `PERIOD` and `LAST_CAPTURE` are written only by the zero-cross handler's period update;
in particular `BEGIN` does not reseed and `END` does not clear. -/
def Obligations.OnlyTheZeroCrossHandlerMeasures : Prop :=
  ∀ (i : Instr) (s t : State), exec i s = .next t → i ≠ .dispatchCapt →
    t.period = s.period ∧ t.lastCapture = s.lastCapture

/-- 10_state.md R20, 20_memory.md R45: only the zero-cross handler writes `FALLBUF[c]`: for an enabled channel it is then
`FALL[c]`. A `SETB` in between does not change it. -/
def Obligations.OnlyTheZeroCrossHandlerTakesTheSnapshot : Prop :=
  ∀ (i : Instr) (s t : State) (c : Ch), exec i s = .next t →
    (t.chan c).fallBuf =
      if i = .dispatchCapt ∧ (s.chan c).en = true then (s.chan c).fall else (s.chan c).fallBuf

/-- The writers of a channel's delays, enable and static level (10_state.md section 2, R18, R19, R22): `SETB` and `DIS`
alone, and only those that name the channel; so a later `PERIOD` never rescales a delay (41_channel_timing_map.md R77). -/
def Obligations.OnlyTheFacadeWritesChannelState : Prop :=
  ∀ (i : Instr) (s t : State) (c : Ch), exec i s = .next t →
    ((∀ ch value, i = .setB ch value → ¬ Names ch c) →
      (t.chan c).rise = (s.chan c).rise ∧ (t.chan c).fall = (s.chan c).fall ∧ (t.chan c).static = (s.chan c).static ∧
      ((∀ ch, i = .dis ch → ¬ Names ch c) → (t.chan c).en = (s.chan c).en))

/-- The table of 60_exceptions.md R106, read as what may set and what may clear each flag and each enable. -/
def Obligations.SourceFlagsAndEnablesTable : Prop :=
  ∀ (i : Instr) (s t : State), exec i s = .next t →
    (s.ifl.capt = false → t.ifl.capt = true → i = .zc ∧ s.rs = .running) ∧
    (s.ifl.capt = true → t.ifl.capt = false → i = .dispatchCapt ∨ i = .endCmd ∨ ∃ pl mto on off, i = .beginCmd pl mto on off) ∧
    (s.ie.capt = false → t.ie.capt = true → ∃ pl mto on off, i = .beginCmd pl mto on off) ∧
    (s.ie.capt = true → t.ie.capt = false → i = .endCmd) ∧
    (∀ c : Ch,
      (s.ifl.cmp c = false → t.ifl.cmp c = true → i = .tick ∧ t.tcnt = (s.chan c).ocr) ∧
      (s.ifl.cmp c = true → t.ifl.cmp c = false →
        i = Instr.dispatch (.cmp c) ∨ (i = .dispatchCapt ∧ (s.chan c).en = true) ∨ i = .endCmd ∨
        (∃ pl mto on off, i = .beginCmd pl mto on off) ∨ (∃ ch, Names ch c ∧ i = .dis ch) ∨
        (∃ ch value, Names ch c ∧ i = .setB ch value)) ∧
      (s.ie.cmp c = false → t.ie.cmp c = true →
        (i = .dispatchCapt ∧ (s.chan c).en = true)) ∧
      (s.ie.cmp c = true → t.ie.cmp c = false →
        i = Instr.dispatch (.cmp c) ∨ (i = .dispatchCapt ∧ (s.chan c).en = true) ∨ i = .endCmd ∨
        (∃ pl mto on off, i = .beginCmd pl mto on off) ∨ (∃ ch, Names ch c ∧ i = .dis ch) ∨
        (∃ ch value, Names ch c ∧ i = .setB ch value)))

/-! ### Hardware steps -/

/-- 43_pulse_scheduler.md R85: `TICK`. -/
def Obligations.TickFollowsItsRule : Prop :=
  ∀ s : State,
    (s.rs ≠ .running → exec .tick s = .next s) ∧
    (s.rs = .running → exec .tick s = .next
      { s with tcnt := BitVec.ofNat 16 ((s.tcnt.toNat + 1) % 65536),
               ifl := { capt := s.ifl.capt, cmpA := s.ifl.cmpA || s.tcnt + 1 == s.chA.ocr,
                        cmpB := s.ifl.cmpB || s.tcnt + 1 == s.chB.ocr },
               chA := { s.chA with ocl :=
                 if s.tcnt + 1 = s.chA.ocr ∧ s.chA.com = .driveHigh then true
                 else if s.tcnt + 1 = s.chA.ocr ∧ s.chA.com = .driveLow then false else s.chA.ocl },
               chB := { s.chB with ocl :=
                 if s.tcnt + 1 = s.chB.ocr ∧ s.chB.com = .driveHigh then true
                 else if s.tcnt + 1 = s.chB.ocr ∧ s.chB.com = .driveLow then false else s.chB.ocl } })

/-- 43_pulse_scheduler.md R86: `ZC_EDGE`. -/
def Obligations.ZcFollowsItsRule : Prop :=
  ∀ s : State,
    (s.rs ≠ .running → exec .zc s = .next s) ∧
    (s.rs = .running → exec .zc s = .next
      { s with icr := s.tcnt, ifl := { capt := true, cmpA := s.ifl.cmpA, cmpB := s.ifl.cmpB } })

/-- `k` ticks advance the counter by `k` modulo 65536 while RUNNING (10_state.md R23). -/
def Obligations.TicksCountModulo : Prop :=
  ∀ (s : State) (k : Nat), s.rs = .running →
    ∃ t, runSteps (List.replicate k .tick) s = .next t ∧ t.tcnt.toNat = (s.tcnt.toNat + k) % 65536

/-- 43_pulse_scheduler.md R87 with 70_reset_and_hazards.md R126: `k` ticks after the base, the passed test compares the delay
with `k` modulo 65536, so it is exact for `k` below 65536. -/
def Obligations.PassedTestIsExactBelowTheModulus : Prop :=
  ∀ (base delay : Tick) (k : Nat),
    (passed base delay (base + BitVec.ofNat 16 k) = true ↔ delay.toNat ≤ k % 65536) ∧
    (k < 65536 → (passed base delay (base + BitVec.ofNat 16 k) = true ↔ delay.toNat ≤ k))

/-! ### Dispatch and handlers -/

/-- 60_exceptions.md R107 and R108: when a dispatch is a step of the block. Where it is not, the model refuses it by name
(the refusal is the model's choice, log 5). -/
def Obligations.DispatchEnabledExactlyWhen : Prop :=
  ∀ (s : State) (src : Source),
    let ready := fun x => s.ifl.get x = true ∧ s.ie.get x = true
    let allowed := s.params.irqOrder = .fixed →
      (src = .cmp .A → ¬ ready .capt) ∧ (src = .cmp .B → ¬ ready .capt ∧ ¬ ready (.cmp .A))
    (s.rs = .running ∧ ready src ∧ allowed → ∃ t, exec (Instr.dispatch src) s = .next t) ∧
    (¬ (s.rs = .running ∧ ready src ∧ allowed) →
      exec (Instr.dispatch src) s = .refused (.dispatchNotEnabled src))

/-- Under `IRQ_ORDER = FIXED` at most one source may be dispatched, and one may exactly where under FREE one may
(60_exceptions.md R108). -/
def Obligations.FixedOrderPicksOneSource : Prop :=
  ∀ s : State, s.params.irqOrder = .fixed →
    (∀ a b : Source, dispatchEnabled s a = true → dispatchEnabled s b = true → a = b) ∧
    ((∃ a, dispatchEnabled s a = true) ↔ s.rs = .running ∧ ∃ a : Source, s.ifl.get a = true ∧ s.ie.get a = true)

/-- 43_pulse_scheduler.md R90, with R88, R89, R92 and R60: the zero-cross handler, each channel in its four cases (disabled;
armed; rise forced; rise and fall forced). `off` is the dispatch latency `(n - T) mod M`. -/
def Obligations.ZeroCrossDispatchFollowsItsRule : Prop :=
  ∀ s : State, dispatchEnabled s .capt = true →
    ∃ t : State, exec .dispatchCapt s = .next t ∧
      t = { s with zct := s.icr, period := BitVec.ofNat 16 ((s.icr.toNat + 65536 - s.lastCapture.toNat) % 65536),
                   lastCapture := s.icr, chA := t.chA, chB := t.chB, ie := t.ie, ifl := t.ifl } ∧
      t.ie.capt = s.ie.capt ∧ t.ifl.capt = false ∧
      ∀ c : Ch,
        let x := s.chan c
        let off := (s.tcnt - s.icr).toNat
        (x.en = false → t.chan c = { x with ocl := false } ∧ t.ie.cmp c = s.ie.cmp c ∧ t.ifl.cmp c = s.ifl.cmp c) ∧
        (x.en = true → off < x.rise.toNat →
          t.chan c = { x with ocr := s.icr + x.rise, com := .driveHigh, fallBuf := x.fall, ph := .armedForRise,
                              ocl := false } ∧ t.ie.cmp c = true ∧ t.ifl.cmp c = false) ∧
        (x.en = true → x.rise.toNat ≤ off → off < x.fall.toNat →
          t.chan c = { x with ocr := s.icr + x.fall, com := .driveLow, fallBuf := x.fall, ph := .waitingForFall,
                              ocl := true } ∧ t.ie.cmp c = true ∧ t.ifl.cmp c = false) ∧
        (x.en = true → x.rise.toNat ≤ off → x.fall.toNat ≤ off →
          t.chan c = { x with ocr := s.icr + x.fall, com := .none, fallBuf := x.fall, ph := .quiescent,
                              ocl := false } ∧ t.ie.cmp c = false ∧ t.ifl.cmp c = false)

/-- 43_pulse_scheduler.md R91 to R94, with R89: a compare dispatch of either channel, by the phase at its entry. -/
def Obligations.CompareDispatchFollowsItsRule : Prop :=
  ∀ (s : State) (i : Instr) (c : Ch), (i = .dispatchA ∧ c = .A) ∨ (i = .dispatchB ∧ c = .B) →
    dispatchEnabled s (.cmp c) = true →
    let x := s.chan c
    let off := (s.tcnt - s.zct).toNat
    let after := fun (y : Chan) (e : Bool) =>
      { s.setChan c y with ie := s.ie.setCmp c e, ifl := s.ifl.setCmp c false }
    (x.ph = .armedForRise → off < x.fallBuf.toNat → exec i s = .next
      (after { x with ocr := s.zct + x.fallBuf, com := .driveLow, ph := .waitingForFall } true)) ∧
    (x.ph = .armedForRise → x.fallBuf.toNat ≤ off → exec i s = .next
      (after { x with ocr := s.zct + x.fallBuf, com := .none, ph := .quiescent, ocl := false } false)) ∧
    (x.ph = .waitingForFall → exec i s = .next (after { x with com := .none, ph := .quiescent } false)) ∧
    (x.ph = .quiescent → exec i s = .next (after x false))

/-- The recursion of the forced match ends: two calls are enough (43_pulse_scheduler.md R89). -/
def Obligations.ForcedMatchRecursionEnds : Prop :=
  ∀ (k : Nat) (c : Ch) (n : Tick) (s : State), hCmpBounded (k + 2) c n s = hCmp c n s

/-- 43_pulse_scheduler.md R95: a channel's scheduler state changes only as the table gives. -/
def Obligations.PhaseChangesOnlyAsTheTableGives : Prop :=
  ∀ (i : Instr) (s t : State) (c : Ch), exec i s = .next t →
    let x := s.chan c
    (i = .dispatchCapt → (t.chan c).ph =
      if x.en = false then x.ph
      else if passed s.icr x.rise s.tcnt = false then .armedForRise
      else if passed s.icr x.fall s.tcnt = false then .waitingForFall else .quiescent) ∧
    (i = Instr.dispatch (.cmp c) → (t.chan c).ph =
      if x.ph = .armedForRise ∧ passed s.zct x.fallBuf s.tcnt = false then .waitingForFall else .quiescent) ∧
    (i = .endCmd → (t.chan c).ph = .quiescent) ∧
    (∀ ch, i = .dis ch → Names ch c → s.rs ≠ .unconfigured → (t.chan c).ph = .quiescent) ∧
    (∀ ch value y, i = .setB ch value → Names ch c → s.rs ≠ .unconfigured → val value = some y →
      (aboveThreshold y s.cfgOnThresh = true ∨ belowThreshold y s.cfgOffThresh = true) → (t.chan c).ph = .quiescent) ∧
    ((t.chan c).ph ≠ x.ph →
      (i = .dispatchCapt ∧ x.en = true) ∨ i = Instr.dispatch (.cmp c) ∨ i = .endCmd ∨ (∃ ch, i = .dis ch ∧ Names ch c) ∨
      (∃ ch value y, i = .setB ch value ∧ Names ch c ∧ val value = some y ∧
        (aboveThreshold y s.cfgOnThresh = true ∨ belowThreshold y s.cfgOffThresh = true)))

/-- Where a channel is enabled and both its compare source and the capture are dispatched, the compare handler's work is
overwritten: the two orders end in the same state (95_test_vectors.md, program P5, orders X and Y), but for the model's own
count of arrivals (log 4). -/
def Obligations.CompareBeforeCaptureEndsAsCaptureAlone : Prop :=
  ∀ (s : State) (c : Ch), s.params.irqOrder = .free → (s.chan c).en = true →
    dispatchEnabled s .capt = true → dispatchEnabled s (.cmp c) = true →
    ∃ t n, runInstr .dispatchCapt s = .next t ∧
      runSteps [Instr.dispatch (.cmp c), .dispatchCapt] s = .next { t with draws := n }

/-- A period is the true interval between two handled captures, modulo 65536 (40_period_tracker.md R64): an edge `k` ticks
after the last capture gives `PERIOD = k mod 65536`, whatever the dispatch latency `j`. -/
def Obligations.PeriodIsTheIntervalModulo : Prop :=
  ∀ (s : State) (k j : Nat), s.rs = .running → s.ie.capt = true →
    s.tcnt = s.lastCapture + BitVec.ofNat 16 k →
    ∃ t, runSteps (.zc :: List.replicate j .tick ++ [.dispatchCapt]) s = .next t ∧ t.period.toNat = k % 65536 ∧
      t.lastCapture = s.tcnt ∧ t.zct = s.tcnt

/-! ### Invariants -/

/-- Every step, of any arrival, keeps the invariants of 10_state.md section 9. -/
def Obligations.EveryStepKeepsTheInvariants : Prop :=
  ∀ s t : State, s.Inv → step s = .next t → t.Inv

/-- Every step keeps the agreement of the latch and of the fall target with the phase (43_pulse_scheduler.md R85, R92, R93),
in states that meet the invariants of 10_state.md section 9. -/
def Obligations.EveryStepKeepsLatchAndTarget : Prop :=
  ∀ s t : State, s.Inv → (∀ c, s.LatchAgrees c ∧ s.FallTarget c) → step s = .next t →
    ∀ c, t.LatchAgrees c ∧ t.FallTarget c

/-- Power-on reset meets the invariants under every parameter. -/
def Obligations.PowerOnMeetsTheInvariants : Prop :=
  ∀ p : Params, (State.powerOn p).Inv ∧ ∀ c, (State.powerOn p).LatchAgrees c ∧ (State.powerOn p).FallTarget c

/-- 10_state.md R32 to R35, of every state reachable from power-on reset, with whatever arrives. -/
def Obligations.ReachableStatesMeetTheSpecInvariants : Prop :=
  ∀ s : State, Reachable s → ∀ c : Ch,
    ((s.chan c).en = false → (s.chan c).com = .none ∧ s.ie.cmp c = false ∧ (s.chan c).ph = .quiescent) ∧
    ((s.chan c).ph = .quiescent ↔ (s.chan c).com = .none) ∧ ((s.chan c).com = .none ↔ s.ie.cmp c = false) ∧
    ((s.chan c).ph = .armedForRise → (s.chan c).com = .driveHigh) ∧
    ((s.chan c).ph = .waitingForFall → (s.chan c).com = .driveLow) ∧
    (s.rs ≠ .running → s.ie.bits = 0#3 ∧ s.ifl.bits = 0#3 ∧ s.tcnt = 0 ∧ (s.chan c).com = .none ∧
      s.pin c = (s.chan c).static) ∧
    (s.chan c).rise.toNat ≤ (s.chan c).fall.toNat

/-- In a reachable state the falling-edge handler finds the latch low (43_pulse_scheduler.md, corner case of R93), and `ZCT`
equals `LAST_CAPTURE` (10_state.md R17). -/
def Obligations.ReachableFallHandlerFindsTheLatchLow : Prop :=
  ∀ s : State, Reachable s → s.zct = s.lastCapture ∧
    ∀ c : Ch, (s.chan c).ph = .waitingForFall → dispatchEnabled s (.cmp c) = true →
      (s.chan c).ocl = false ∧ ∃ t, exec (Instr.dispatch (.cmp c)) s = .next t ∧ t.pin c = (t.chan c).static

/-! ### Waveforms and isolation -/

/-- 43_pulse_scheduler.md R96, first half: after a zero-cross handler dispatched before the rise offset, and with nothing that
section 5 excludes, the latch is high exactly when the count of ticks since the capture has reached the rise offset. -/
def Obligations.RiseComesOnItsExactTick : Prop :=
  ∀ (c : Ch) (s0 s t : State) (steps : List Instr),
    runInstr .dispatchCapt s0 = .next s → (s0.chan c).en = true →
    (s0.tcnt - s0.icr).toNat < (s0.chan c).rise.toNat → QuietRun c s steps t →
    (t.chan c).ph = .armedForRise ∧ t.pin c = (t.chan c).ocl ∧
    ((t.chan c).ocl = true ↔ (s0.chan c).rise.toNat ≤ (s0.tcnt - s0.icr).toNat + tickCount steps)

/-- 43_pulse_scheduler.md R96 whole, with the snapshot of 20_memory.md R45: an on-time pulse rises and falls on exact ticks,
whatever the latencies of its two handlers and whatever mapped `SETB`s come between: it is high from the rise offset to
the fall offset that stood at the zero-cross handler. -/
def Obligations.OnTimePulseFallsOnItsExactTick : Prop :=
  ∀ (c : Ch) (s0 s1 s2 s3 s4 : State) (before after : List Instr),
    runInstr .dispatchCapt s0 = .next s1 → (s0.chan c).en = true →
    (s0.tcnt - s0.icr).toNat < (s0.chan c).rise.toNat →
    QuietRun c s1 before s2 →
    (s0.chan c).rise.toNat ≤ (s0.tcnt - s0.icr).toNat + tickCount before →
    (s0.tcnt - s0.icr).toNat + tickCount before < (s0.chan c).fall.toNat →
    runInstr (Instr.dispatch (.cmp c)) s2 = .next s3 →
    QuietRun c s3 after s4 →
    (s4.chan c).ph = .waitingForFall ∧ s4.pin c = (s4.chan c).ocl ∧
    ((s4.chan c).ocl = true ↔
      (s0.tcnt - s0.icr).toNat + tickCount before + tickCount after < (s0.chan c).fall.toNat)

/-- After `DIS c`, and as long as no `SETB` names `c`, no step of any kind arms the channel or moves its pin
(43_pulse_scheduler.md R99, 20_memory.md R47). -/
def Obligations.DisabledChannelStaysUntouched : Prop :=
  ∀ (c : Ch) (ch : Byte) (s t u : State) (steps : List Instr),
    Names ch c → s.rs ≠ .unconfigured → runInstr (.dis ch) s = .next t →
    (∀ i ∈ steps, ∀ ch' value, i = .setB ch' value → ¬ Names ch' c) →
    runSteps steps t = .next u →
    u.pin c = (s.chan c).static ∧ (u.chan c).ph = .quiescent ∧ (u.chan c).com = .none ∧ u.ie.cmp c = false

/-- One channel's state never influences what a step does to the rest of the block: two states that differ only in what
belongs to channel `c` (and in the response port) still do so after the same step. -/
def Obligations.ChannelsDoNotInfluenceEachOther : Prop :=
  ∀ (c : Ch) (i : Instr) (s s' t t' : State), SameButChannel c s s' →
    exec i s = .next t → exec i s' = .next t' → SameButChannel c t t'

/-! ### The timing map and its arithmetic -/

/-- 41_channel_timing_map.md R68, with R66 and R67: in the EXACT mode the rise delay of a brightness is the exact product
`P * phase` rounded half up, and lies in `[0, P]`; it is what `MapSet` gives in that mode (R65). -/
def Obligations.ExactRiseIsTheRoundedProduct : Prop :=
  ∀ (v : F32) (x : ExtReal) (p pl mto : Tick), val v = some x →
    let rise := (mapSet .exact x p pl mto).1
    ∃ ph : ℚ, 0 ≤ ph ∧ ph ≤ 1 ∧ rise = ⌊(p.toNat : ℚ) * ph + 1 / 2⌋ ∧ 0 ≤ rise ∧ rise ≤ p.toNat ∧ riseExact x p = rise ∧
      (x = .posInf → ph = 0) ∧ (x = .negInf → ph = 1) ∧
      ∀ q : Frac, x = .fin q →
        (1 ≤ q.toRat → ph = 0) ∧ (q.toRat ≤ 0 → ph = 1) ∧ (0 < q.toRat → q.toRat < 1 → ph = 1 - q.toRat)

/-- 41_channel_timing_map.md R75 and R71, in both modes and for every brightness that is no NaN, with `fall ≥ rise` (R70). -/
def Obligations.MapSetBounds : Prop :=
  ∀ (num : Numerics) (v : F32) (x : ExtReal) (p pl mto : Tick), val v = some x →
    let d := mapSet num x p pl mto
    0 ≤ d.1 ∧ d.1 ≤ p.toNat ∧ d.2 ≤ p.toNat ∧ d.1 ≤ d.2 ∧ ((mto.toNat : Int) ≤ d.2 ↔ mto.toNat ≤ p.toNat) ∧
    (p = 0 → d = (0, 0)) ∧ ((tickOf d.1).toNat : Int) = d.1 ∧ ((tickOf d.2).toNat : Int) = d.2

/-- 41_channel_timing_map.md, the list under R70: where the pulse keeps its length, is stretched, or is cut. That the pulse
keeps its length only where `MTO ≤ rise + PL` is said for `MTO ≤ P`: with `MTO > P` and `rise + PL = P` the fall is `P` too
(log 18). -/
def Obligations.FallDelayCases : Prop :=
  ∀ (num : Numerics) (v : F32) (x : ExtReal) (p pl mto : Tick), val v = some x →
    let d := mapSet num x p pl mto
    (mto.toNat ≤ d.1 + pl.toNat → d.1 + pl.toNat ≤ p.toNat → d.2 = d.1 + pl.toNat) ∧
    (d.2 = d.1 + pl.toNat → d.1 + pl.toNat ≤ p.toNat ∧ (mto.toNat ≤ p.toNat → mto.toNat ≤ d.1 + pl.toNat)) ∧
    (d.1 + pl.toNat < mto.toNat → mto.toNat ≤ p.toNat → d.2 = mto.toNat) ∧
    ((p.toNat : Int) < d.1 + pl.toNat → d.2 = p.toNat) ∧
    (p.toNat < mto.toNat → d.2 = p.toNat)

/-- 41_channel_timing_map.md R72: in the BINARY32 mode the difference and the product are each rounded by `rne32`, then to an
integer, and the result saturates to `[0, P]`; it is what `MapSet` gives in that mode (R65). -/
def Obligations.Binary32RiseFollowsItsSteps : Prop :=
  ∀ (v : F32) (x : ExtReal) (p pl mto : Tick), val v = some x →
    let rise := (mapSet .binary32 x p pl mto).1
    (x = .posInf → rise = 0) ∧ (x = .negInf → rise = p.toNat) ∧
    ∀ y : Frac, x = .fin y → ∃ (a b : Frac) (ph : ℚ), 0 < a.den ∧ a.toRat = 1 - y.toRat ∧ F32Is (rne32 a) ph ∧
      0 < b.den ∧ b.toRat = (p.toNat : ℚ) * ph ∧
      (∀ pr : ℚ, F32Is (rne32 b) pr → rise = max 0 (min (p.toNat : Int) ⌊pr + 1 / 2⌋)) ∧
      (val (rne32 b) = some .posInf → rise = p.toNat) ∧ (val (rne32 b) = some .negInf → rise = 0) ∧ val (rne32 b) ≠ none

/-- 41_channel_timing_map.md R73 and R74: in the EXACT mode `GETB` reports `1 - R / P` rounded once, in the BINARY32 mode the
quotient and the difference are each rounded. -/
def Obligations.ReadbackFollowsItsFormulas : Prop :=
  ∀ r p : Tick, p ≠ 0 →
    (∃ a : Frac, 0 < a.den ∧ a.toRat = 1 - (r.toNat : ℚ) / p.toNat ∧ mapGet .exact r p = rne32 a) ∧
    (∃ (a b : Frac) (q : ℚ), 0 < a.den ∧ a.toRat = (r.toNat : ℚ) / p.toNat ∧ F32Is (rne32 a) q ∧
      0 < b.den ∧ b.toRat = 1 - q ∧ mapGet .binary32 r p = rne32 b)

/-- 41_channel_timing_map.md, corner cases of R73, in both modes: a delay equal to the period reports `+0.0`, a zero delay
`1.0`, and no result is a NaN. -/
def Obligations.MapGetCorners : Prop :=
  ∀ (num : Numerics) (r p : Tick), p ≠ 0 →
    mapGet num p p = 0x00000000#32 ∧ mapGet num 0 p = 0x3F800000#32 ∧
    ∃ q : ℚ, F32Is (mapGet num r p) q ∧ -65534 ≤ q ∧ q ≤ 1

/-- 41_channel_timing_map.md R76: take a mapped `SETB` of a brightness between 0 and 1 in the EXACT mode at a period that is
not 0. Whatever follows but a `SETB` of the same channel, a `GETB` at the same period answers with the brightness, within half
a tick of the period and half a unit in the last place. After a forced `SETB` nothing of the kind holds: the rise delay is the
old one. -/
def Obligations.BrightnessRoundTrip : Prop :=
  ∀ (s t : State) (ch : Byte) (value : F32) (c : Ch) (x : Frac), chanOf ch = some c → s.rs ≠ .unconfigured →
    val value = some (.fin x) → runInstr (.setB ch value) s = .next t →
    (s.params.numerics = .exact → s.period ≠ 0 → 0 ≤ x.toRat → x.toRat ≤ 1 →
      aboveThreshold (.fin x) s.cfgOnThresh = false → belowThreshold (.fin x) s.cfgOffThresh = false →
      ∀ (u : State) (steps : List Instr), (∀ i ∈ steps, ∀ ch' value', i = .setB ch' value' → ¬ Names ch' c) →
        runSteps steps t = .next u → u.period = s.period →
        ∃ (w : State) (b : F32) (q : ℚ), runInstr (.getB ch) u = .next w ∧
          w.rsp = some { status := .ok, fault := u.fault, data := b } ∧ F32Is b q ∧
          |q - x.toRat| ≤ 1 / (2 * (s.period.toNat : ℚ)) + 1 / 2 ^ 25) ∧
    (aboveThreshold (.fin x) s.cfgOnThresh = true ∨ belowThreshold (.fin x) s.cfgOffThresh = true →
      (t.chan c).rise = (s.chan c).rise)

/-- 00_scope.md R9: `rne32` gives a nearest binary32 value, and on a tie the one with the even fraction. -/
def Obligations.RoundingIsToNearestEven : Prop :=
  ∀ (a : Frac) (q : ℚ), 0 < a.den → F32Is (rne32 a) q →
    ∀ (b : F32) (z : ℚ), F32Is b z →
      |q - a.toRat| ≤ |z - a.toRat| ∧ (|q - a.toRat| = |z - a.toRat| → z ≠ q → (rne32 a).toNat % 2 = 0)

/-- 00_scope.md R9: a magnitude that rounds beyond the largest finite value gives an infinity of its sign; every smaller one a
finite value; and zero gives `+0.0`. -/
def Obligations.RoundingOverflowsToInfinity : Prop :=
  ∀ a : Frac, 0 < a.den →
    (val (rne32 a) = some .posInf ↔ (2 ^ 128 - 2 ^ 103 : ℚ) ≤ a.toRat) ∧
    (val (rne32 a) = some .negInf ↔ a.toRat ≤ -(2 ^ 128 - 2 ^ 103 : ℚ)) ∧
    (|a.toRat| < (2 ^ 128 - 2 ^ 103 : ℚ) → ∃ q, F32Is (rne32 a) q) ∧ (a.toRat = 0 → rne32 a = 0)

/-! ### Reset and test programs -/

/-- 70_reset_and_hazards.md R121: every element after power-on reset; both pins are then low. -/
def Obligations.PowerOnResetValues : Prop :=
  ∀ p : Params,
    let s := State.powerOn p
    s.rs.code = 0#2 ∧ s.fault = 0x00#8 ∧ s.cfgPulseLength = 0 ∧ s.cfgMinTrigger = 0 ∧ s.cfgOnThresh = 0x00000000#32 ∧
    s.cfgOffThresh = 0x00000000#32 ∧ s.period = p.periodSeed ∧ s.lastCapture = 0 ∧ s.zct = 0 ∧ s.tcnt = 0 ∧ s.icr = 0 ∧
    s.ie.bits = 0b000#3 ∧ s.ifl.bits = 0b000#3 ∧
    ∀ c : Ch, (s.chan c).en = false ∧ (s.chan c).rise = 0 ∧ (s.chan c).fall = 0 ∧ (s.chan c).fallBuf = 0 ∧
      (s.chan c).ph.code = 0#2 ∧ (s.chan c).static = false ∧ (s.chan c).ocr = 0 ∧ (s.chan c).com.code = 0#2 ∧
      (s.chan c).ocl = false ∧ s.pin c = false

/-- 30_encoding.md R59: `RUNTO t` is `(t - TCNT) mod 65536` ticks, of the count at which the line starts, and while RUNNING it
runs to the count `t`. -/
def Obligations.RunToReachesItsCount : Prop :=
  ∀ (s : State) (k : Nat), k ≤ 65535 →
    let ticks := List.replicate ((k + 65536 - s.tcnt.toNat) % 65536) Instr.tick
    expandLine (.runTo k) s = some ticks ∧
    (s.rs = .running → ∃ t, runSteps ticks s = .next t ∧ t.tcnt.toNat = k)

/-- 30_encoding.md R59: each step of `DISPATCH*` is the dispatch of the first source, in the order CAPT, A, B, that may be
dispatched in the state in which it runs; all of them complete, and none may be dispatched then. -/
def Obligations.DispatchAllDrainsThePendingSources : Prop :=
  ∀ s : State, ∃ steps t, expandLine .dispatchAll s = some steps ∧ runSteps steps s = .next t ∧
    (∀ src, dispatchEnabled t src = false) ∧
    ∀ (k : Nat) (i : Instr), steps[k]? = some i →
      ∃ u src, runSteps (steps.take k) s = .next u ∧ i = Instr.dispatch src ∧ dispatchEnabled u src = true ∧
        (src = .cmp .A → dispatchEnabled u .capt = false) ∧
        (src = .cmp .B → dispatchEnabled u .capt = false ∧ dispatchEnabled u (.cmp .A) = false)
end

