-- ==== Sys2Proof/Laws/Decode.lean ====
section
/-! SUPPORT. The fields of the words that the encoder and the responses are made of. -/

namespace Sys2Proof

/-- A concatenation as a number: the first part stands in the more significant place (00_scope.md R6). -/
theorem toNat_append_add {m n : Nat} (x : BitVec m) (y : BitVec n) :
    (x ++ y).toNat = x.toNat * 2 ^ n + y.toNat := by
  rw [BitVec.toNat_append, ← Nat.shiftLeft_add_eq_or_of_lt y.isLt, Nat.shiftLeft_eq]

/-- A field as a number: shift and remainder. -/
theorem toNat_field {w : Nat} (x : BitVec w) (lo len : Nat) :
    (x.extractLsb' lo len).toNat = x.toNat / 2 ^ lo % 2 ^ len := by
  rw [BitVec.extractLsb'_toNat, Nat.shiftRight_eq_div_pow]

/-- A command word as a number (30_encoding.md R48). -/
theorem mkCmdWord_toNat (opc ch : BitVec 8) (rsv u16a u16b : BitVec 16) (f32a f32b : BitVec 32) :
    (mkCmdWord opc ch rsv u16a u16b f32a f32b).toNat =
      (((((opc.toNat * 2 ^ 8 + ch.toNat) * 2 ^ 16 + rsv.toNat) * 2 ^ 16 + u16a.toNat) * 2 ^ 16 + u16b.toNat) * 2 ^ 32
        + f32a.toNat) * 2 ^ 32 + f32b.toNat := by
  rw [← toNat_append_add, ← toNat_append_add, ← toNat_append_add, ← toNat_append_add, ← toNat_append_add,
    ← toNat_append_add]
  rfl

@[simp] theorem opcOf_mkCmdWord (opc ch : BitVec 8) (rsv u16a u16b : BitVec 16) (f32a f32b : BitVec 32) :
    opcOf (mkCmdWord opc ch rsv u16a u16b f32a f32b) = opc := by
  apply BitVec.eq_of_toNat_eq
  rw [opcOf, toNat_field, mkCmdWord_toNat]
  omega

@[simp] theorem chOf_mkCmdWord (opc ch : BitVec 8) (rsv u16a u16b : BitVec 16) (f32a f32b : BitVec 32) :
    chOf (mkCmdWord opc ch rsv u16a u16b f32a f32b) = ch := by
  apply BitVec.eq_of_toNat_eq
  rw [chOf, toNat_field, mkCmdWord_toNat]
  omega

@[simp] theorem rsvOf_mkCmdWord (opc ch : BitVec 8) (rsv u16a u16b : BitVec 16) (f32a f32b : BitVec 32) :
    rsvOf (mkCmdWord opc ch rsv u16a u16b f32a f32b) = rsv := by
  apply BitVec.eq_of_toNat_eq
  rw [rsvOf, toNat_field, mkCmdWord_toNat]
  omega

@[simp] theorem u16aOf_mkCmdWord (opc ch : BitVec 8) (rsv u16a u16b : BitVec 16) (f32a f32b : BitVec 32) :
    u16aOf (mkCmdWord opc ch rsv u16a u16b f32a f32b) = u16a := by
  apply BitVec.eq_of_toNat_eq
  rw [u16aOf, toNat_field, mkCmdWord_toNat]
  omega

@[simp] theorem u16bOf_mkCmdWord (opc ch : BitVec 8) (rsv u16a u16b : BitVec 16) (f32a f32b : BitVec 32) :
    u16bOf (mkCmdWord opc ch rsv u16a u16b f32a f32b) = u16b := by
  apply BitVec.eq_of_toNat_eq
  rw [u16bOf, toNat_field, mkCmdWord_toNat]
  omega

@[simp] theorem f32aOf_mkCmdWord (opc ch : BitVec 8) (rsv u16a u16b : BitVec 16) (f32a f32b : BitVec 32) :
    f32aOf (mkCmdWord opc ch rsv u16a u16b f32a f32b) = f32a := by
  apply BitVec.eq_of_toNat_eq
  rw [f32aOf, toNat_field, mkCmdWord_toNat]
  omega

@[simp] theorem f32bOf_mkCmdWord (opc ch : BitVec 8) (rsv u16a u16b : BitVec 16) (f32a f32b : BitVec 32) :
    f32bOf (mkCmdWord opc ch rsv u16a u16b f32a f32b) = f32b := by
  apply BitVec.eq_of_toNat_eq
  rw [f32bOf, toNat_field, mkCmdWord_toNat]
  omega

/-- A word is made of its fields: no bit stands outside them. -/
theorem mkCmdWord_fields (w : CmdWord) :
    mkCmdWord (opcOf w) (chOf w) (rsvOf w) (u16aOf w) (u16bOf w) (f32aOf w) (f32bOf w) = w := by
  apply BitVec.eq_of_toNat_eq
  have h := w.isLt
  rw [mkCmdWord_toNat, opcOf, chOf, rsvOf, u16aOf, u16bOf, f32aOf, f32bOf]
  simp only [toNat_field]
  omega

/-- Which fields of a word with an assigned opcode are nonzero where they must not be (30_encoding.md R49). -/
theorem unusedFieldsZero_eq_false_iff (w : CmdWord) :
    unusedFieldsZero w = false ↔
      (if opcOf w = 0x01#8 then ¬ chOf w = 0#8
      else if opcOf w = 0x02#8 then
        ¬ (chOf w = 0#8 ∧ u16aOf w = 0#16 ∧ u16bOf w = 0#16 ∧ f32aOf w = 0#32 ∧ f32bOf w = 0#32)
      else if opcOf w = 0x10#8 then ¬ (u16aOf w = 0#16 ∧ u16bOf w = 0#16 ∧ f32bOf w = 0#32)
      else ¬ (u16aOf w = 0#16 ∧ u16bOf w = 0#16 ∧ f32aOf w = 0#32 ∧ f32bOf w = 0#32)) := by
  unfold unusedFieldsZero
  split_ifs <;> simp [and_assoc]

/-- A word's bytes spell the word, most significant byte first (30_encoding.md R56). -/
theorem natOfBytes_bytesOf (n : Nat) : ∀ {w : Nat} (x : BitVec w), natOfBytes (bytesOf n x) = x.toNat % 2 ^ (8 * n) := by
  induction n with
  | zero => intro w x; simp [bytesOf, natOfBytes, Nat.mod_one]
  | succ n ih =>
    intro w x
    have h : bytesOf (n + 1) x = bytesOf n (x.extractLsb' 8 (8 * n)) ++ [x.extractLsb' 0 8] := by
      simp only [bytesOf, List.range_succ, List.map_append, List.map_cons, List.map_nil]
      congr 1
      · apply List.map_congr_left
        intro k hk
        have hk' : k < n := by simpa using hk
        apply BitVec.eq_of_toNat_eq
        simp only [toNat_field, Nat.reducePow]
        rw [show 8 * (n + 1 - 1 - k) = 8 + 8 * (n - 1 - k) by omega, Nat.pow_add, ← Nat.div_div_eq_div_mul]
        conv_rhs => rw [show 8 * n = 8 * (n - 1 - k) + 8 * (k + 1) by omega, Nat.pow_add]
        rw [Nat.mod_mul_right_div_self, show 8 * (k + 1) = 8 + 8 * k by omega, Nat.pow_add, Nat.mod_mul_right_mod]
      · simp
    have e := ih (x.extractLsb' 8 (8 * n))
    simp only [natOfBytes] at e
    rw [h]
    simp only [natOfBytes, List.foldl_append, List.foldl_cons, List.foldl_nil]
    rw [e, toNat_field, toNat_field, show 8 * (n + 1) = 8 + 8 * n by omega, Nat.pow_add, Nat.mod_mod, Nat.mod_mul]
    simp
    omega

namespace Machine

/-- A response word as a number (30_encoding.md R54). -/
theorem Response.word_toNat (r : Response) :
    r.word.toNat = (((r.status.code.toNat * 2 ^ 8 + 0) * 2 ^ 8 + r.fault.toNat) * 2 ^ 8 + 0) * 2 ^ 32 + r.data.toNat := by
  have z : (0#8).toNat = 0 := rfl
  rw [← z, ← toNat_append_add, ← toNat_append_add, ← toNat_append_add, ← toNat_append_add]
  rfl

end Machine

end Sys2Proof
end

