-- ==== Sys2Proof/Laws/State.lean ====
section
/-! SUPPORT. One lemma per field per update of the state, so that no later proof unfolds a record update. -/

namespace Sys2Proof.Machine

/-! ### The bits of a source register -/

@[simp] theorem SourceBits.cmp_setCmp_self (b : SourceBits) (c : Ch) (v : Bool) : (b.setCmp c v).cmp c = v := by
  cases c <;> rfl

theorem SourceBits.cmp_setCmp_ne (b : SourceBits) {c d : Ch} (v : Bool) (h : d ≠ c) :
    (b.setCmp c v).cmp d = b.cmp d := by
  cases c <;> cases d <;> first | rfl | exact absurd rfl h

@[simp] theorem SourceBits.capt_setCmp (b : SourceBits) (c : Ch) (v : Bool) : (b.setCmp c v).capt = b.capt := by
  cases c <;> rfl

@[simp] theorem SourceBits.setCmp_setCmp (b : SourceBits) (c : Ch) (v w : Bool) :
    (b.setCmp c v).setCmp c w = b.setCmp c w := by
  cases c <;> rfl

@[simp] theorem SourceBits.setCmp_cmp (b : SourceBits) (c : Ch) : b.setCmp c (b.cmp c) = b := by
  cases c <;> rfl

@[simp] theorem SourceBits.clear_capt (b : SourceBits) : b.clear .capt = { b with capt := false } := rfl

@[simp] theorem SourceBits.clear_cmp (b : SourceBits) (c : Ch) : b.clear (.cmp c) = b.setCmp c false := rfl

@[simp] theorem SourceBits.get_capt (b : SourceBits) : b.get .capt = b.capt := rfl

@[simp] theorem SourceBits.get_cmp (b : SourceBits) (c : Ch) : b.get (.cmp c) = b.cmp c := rfl

@[simp] theorem SourceBits.cmp_captUpdate (b : SourceBits) (v : Bool) (c : Ch) :
    ({ b with capt := v } : SourceBits).cmp c = b.cmp c := by
  cases c <;> rfl

@[simp] theorem SourceBits.cmp_none (c : Ch) : SourceBits.none.cmp c = false := by
  cases c <;> rfl

/-- The register is its three bits. -/
theorem SourceBits.ext_cmp {a b : SourceBits} (h : a.capt = b.capt) (k : ∀ c, a.cmp c = b.cmp c) : a = b := by
  obtain ⟨a0, a1, a2⟩ := a
  obtain ⟨b0, b1, b2⟩ := b
  have hA := k .A
  have hB := k .B
  simp only [SourceBits.cmp] at h hA hB
  simp [h, hA, hB]

/-! ### Channels -/

@[simp] theorem State.chan_A (s : State) : s.chan .A = s.chA := rfl

@[simp] theorem State.chan_B (s : State) : s.chan .B = s.chB := rfl

@[simp] theorem State.chan_setChan_self (s : State) (c : Ch) (x : Chan) : (s.setChan c x).chan c = x := by
  cases c <;> rfl

theorem State.chan_setChan_ne (s : State) {c d : Ch} (x : Chan) (h : d ≠ c) : (s.setChan c x).chan d = s.chan d := by
  cases c <;> cases d <;> first | rfl | exact absurd rfl h

@[simp] theorem State.setChan_setChan (s : State) (c : Ch) (x y : Chan) :
    (s.setChan c x).setChan c y = s.setChan c y := by
  cases c <;> rfl

@[simp] theorem State.setChan_chan (s : State) (c : Ch) : s.setChan c (s.chan c) = s := by
  cases c <;> rfl

/-- The state is its channels and the other fields. -/
theorem State.setChan_A (s : State) (x : Chan) : s.setChan .A x = { s with chA := x } := rfl

theorem State.setChan_B (s : State) (x : Chan) : s.setChan .B x = { s with chB := x } := rfl

@[simp] theorem State.setChan_rs (s : State) (c : Ch) (x : Chan) : (s.setChan c x).rs = s.rs := by
  cases c <;> rfl

@[simp] theorem State.setChan_fault (s : State) (c : Ch) (x : Chan) : (s.setChan c x).fault = s.fault := by
  cases c <;> rfl

@[simp] theorem State.setChan_cfgPulseLength (s : State) (c : Ch) (x : Chan) : (s.setChan c x).cfgPulseLength = s.cfgPulseLength := by
  cases c <;> rfl

@[simp] theorem State.setChan_cfgMinTrigger (s : State) (c : Ch) (x : Chan) : (s.setChan c x).cfgMinTrigger = s.cfgMinTrigger := by
  cases c <;> rfl

@[simp] theorem State.setChan_cfgOnThresh (s : State) (c : Ch) (x : Chan) : (s.setChan c x).cfgOnThresh = s.cfgOnThresh := by
  cases c <;> rfl

@[simp] theorem State.setChan_cfgOffThresh (s : State) (c : Ch) (x : Chan) : (s.setChan c x).cfgOffThresh = s.cfgOffThresh := by
  cases c <;> rfl

@[simp] theorem State.setChan_period (s : State) (c : Ch) (x : Chan) : (s.setChan c x).period = s.period := by
  cases c <;> rfl

@[simp] theorem State.setChan_lastCapture (s : State) (c : Ch) (x : Chan) : (s.setChan c x).lastCapture = s.lastCapture := by
  cases c <;> rfl

@[simp] theorem State.setChan_zct (s : State) (c : Ch) (x : Chan) : (s.setChan c x).zct = s.zct := by
  cases c <;> rfl

@[simp] theorem State.setChan_tcnt (s : State) (c : Ch) (x : Chan) : (s.setChan c x).tcnt = s.tcnt := by
  cases c <;> rfl

@[simp] theorem State.setChan_icr (s : State) (c : Ch) (x : Chan) : (s.setChan c x).icr = s.icr := by
  cases c <;> rfl

@[simp] theorem State.setChan_ie (s : State) (c : Ch) (x : Chan) : (s.setChan c x).ie = s.ie := by
  cases c <;> rfl

@[simp] theorem State.setChan_ifl (s : State) (c : Ch) (x : Chan) : (s.setChan c x).ifl = s.ifl := by
  cases c <;> rfl

@[simp] theorem State.setChan_rsp (s : State) (c : Ch) (x : Chan) : (s.setChan c x).rsp = s.rsp := by
  cases c <;> rfl

@[simp] theorem State.setChan_inputs (s : State) (c : Ch) (x : Chan) : (s.setChan c x).inputs = s.inputs := by
  cases c <;> rfl

@[simp] theorem State.setChan_draws (s : State) (c : Ch) (x : Chan) : (s.setChan c x).draws = s.draws := by
  cases c <;> rfl

@[simp] theorem State.setChan_lastInput (s : State) (c : Ch) (x : Chan) : (s.setChan c x).lastInput = s.lastInput := by
  cases c <;> rfl

@[simp] theorem State.setChan_params (s : State) (c : Ch) (x : Chan) : (s.setChan c x).params = s.params := by
  cases c <;> rfl

/-! ### The compare bits of `IE` and `IF` -/

@[simp] theorem State.chan_setIeCmp (s : State) (c d : Ch) (v : Bool) : (s.setIeCmp c v).chan d = s.chan d := by
  cases d <;> rfl

@[simp] theorem State.setIeCmp_ie (s : State) (c : Ch) (v : Bool) : (s.setIeCmp c v).ie = s.ie.setCmp c v := rfl

@[simp] theorem State.setIeCmp_rs (s : State) (c : Ch) (v : Bool) : (s.setIeCmp c v).rs = s.rs := rfl

@[simp] theorem State.setIeCmp_fault (s : State) (c : Ch) (v : Bool) : (s.setIeCmp c v).fault = s.fault := rfl

@[simp] theorem State.setIeCmp_cfgPulseLength (s : State) (c : Ch) (v : Bool) : (s.setIeCmp c v).cfgPulseLength = s.cfgPulseLength := rfl

@[simp] theorem State.setIeCmp_cfgMinTrigger (s : State) (c : Ch) (v : Bool) : (s.setIeCmp c v).cfgMinTrigger = s.cfgMinTrigger := rfl

@[simp] theorem State.setIeCmp_cfgOnThresh (s : State) (c : Ch) (v : Bool) : (s.setIeCmp c v).cfgOnThresh = s.cfgOnThresh := rfl

@[simp] theorem State.setIeCmp_cfgOffThresh (s : State) (c : Ch) (v : Bool) : (s.setIeCmp c v).cfgOffThresh = s.cfgOffThresh := rfl

@[simp] theorem State.setIeCmp_period (s : State) (c : Ch) (v : Bool) : (s.setIeCmp c v).period = s.period := rfl

@[simp] theorem State.setIeCmp_lastCapture (s : State) (c : Ch) (v : Bool) : (s.setIeCmp c v).lastCapture = s.lastCapture := rfl

@[simp] theorem State.setIeCmp_zct (s : State) (c : Ch) (v : Bool) : (s.setIeCmp c v).zct = s.zct := rfl

@[simp] theorem State.setIeCmp_tcnt (s : State) (c : Ch) (v : Bool) : (s.setIeCmp c v).tcnt = s.tcnt := rfl

@[simp] theorem State.setIeCmp_icr (s : State) (c : Ch) (v : Bool) : (s.setIeCmp c v).icr = s.icr := rfl

@[simp] theorem State.setIeCmp_ifl (s : State) (c : Ch) (v : Bool) : (s.setIeCmp c v).ifl = s.ifl := rfl

@[simp] theorem State.setIeCmp_rsp (s : State) (c : Ch) (v : Bool) : (s.setIeCmp c v).rsp = s.rsp := rfl

@[simp] theorem State.setIeCmp_inputs (s : State) (c : Ch) (v : Bool) : (s.setIeCmp c v).inputs = s.inputs := rfl

@[simp] theorem State.setIeCmp_draws (s : State) (c : Ch) (v : Bool) : (s.setIeCmp c v).draws = s.draws := rfl

@[simp] theorem State.setIeCmp_lastInput (s : State) (c : Ch) (v : Bool) : (s.setIeCmp c v).lastInput = s.lastInput := rfl

@[simp] theorem State.setIeCmp_params (s : State) (c : Ch) (v : Bool) : (s.setIeCmp c v).params = s.params := rfl

@[simp] theorem State.chan_setFCmp (s : State) (c d : Ch) (v : Bool) : (s.setFCmp c v).chan d = s.chan d := by
  cases d <;> rfl

@[simp] theorem State.setFCmp_ifl (s : State) (c : Ch) (v : Bool) : (s.setFCmp c v).ifl = s.ifl.setCmp c v := rfl

@[simp] theorem State.setFCmp_rs (s : State) (c : Ch) (v : Bool) : (s.setFCmp c v).rs = s.rs := rfl

@[simp] theorem State.setFCmp_fault (s : State) (c : Ch) (v : Bool) : (s.setFCmp c v).fault = s.fault := rfl

@[simp] theorem State.setFCmp_cfgPulseLength (s : State) (c : Ch) (v : Bool) : (s.setFCmp c v).cfgPulseLength = s.cfgPulseLength := rfl

@[simp] theorem State.setFCmp_cfgMinTrigger (s : State) (c : Ch) (v : Bool) : (s.setFCmp c v).cfgMinTrigger = s.cfgMinTrigger := rfl

@[simp] theorem State.setFCmp_cfgOnThresh (s : State) (c : Ch) (v : Bool) : (s.setFCmp c v).cfgOnThresh = s.cfgOnThresh := rfl

@[simp] theorem State.setFCmp_cfgOffThresh (s : State) (c : Ch) (v : Bool) : (s.setFCmp c v).cfgOffThresh = s.cfgOffThresh := rfl

@[simp] theorem State.setFCmp_period (s : State) (c : Ch) (v : Bool) : (s.setFCmp c v).period = s.period := rfl

@[simp] theorem State.setFCmp_lastCapture (s : State) (c : Ch) (v : Bool) : (s.setFCmp c v).lastCapture = s.lastCapture := rfl

@[simp] theorem State.setFCmp_zct (s : State) (c : Ch) (v : Bool) : (s.setFCmp c v).zct = s.zct := rfl

@[simp] theorem State.setFCmp_tcnt (s : State) (c : Ch) (v : Bool) : (s.setFCmp c v).tcnt = s.tcnt := rfl

@[simp] theorem State.setFCmp_icr (s : State) (c : Ch) (v : Bool) : (s.setFCmp c v).icr = s.icr := rfl

@[simp] theorem State.setFCmp_ie (s : State) (c : Ch) (v : Bool) : (s.setFCmp c v).ie = s.ie := rfl

@[simp] theorem State.setFCmp_rsp (s : State) (c : Ch) (v : Bool) : (s.setFCmp c v).rsp = s.rsp := rfl

@[simp] theorem State.setFCmp_inputs (s : State) (c : Ch) (v : Bool) : (s.setFCmp c v).inputs = s.inputs := rfl

@[simp] theorem State.setFCmp_draws (s : State) (c : Ch) (v : Bool) : (s.setFCmp c v).draws = s.draws := rfl

@[simp] theorem State.setFCmp_lastInput (s : State) (c : Ch) (v : Bool) : (s.setFCmp c v).lastInput = s.lastInput := rfl

@[simp] theorem State.setFCmp_params (s : State) (c : Ch) (v : Bool) : (s.setFCmp c v).params = s.params := rfl

/-! ### The response of a command that raised no fault -/

@[simp] theorem State.chan_respondOk (d : BitVec 32) (s : State) (c : Ch) : (respondOk d s).chan c = s.chan c := by
  cases c <;> rfl

@[simp] theorem State.respondOk_rsp (d : BitVec 32) (s : State) :
    (respondOk d s).rsp = some { status := .ok, fault := s.fault, data := d } := rfl

@[simp] theorem State.respondOk_rs (d : BitVec 32) (s : State) : (respondOk d s).rs = s.rs := rfl

@[simp] theorem State.respondOk_fault (d : BitVec 32) (s : State) : (respondOk d s).fault = s.fault := rfl

@[simp] theorem State.respondOk_cfgPulseLength (d : BitVec 32) (s : State) : (respondOk d s).cfgPulseLength = s.cfgPulseLength := rfl

@[simp] theorem State.respondOk_cfgMinTrigger (d : BitVec 32) (s : State) : (respondOk d s).cfgMinTrigger = s.cfgMinTrigger := rfl

@[simp] theorem State.respondOk_cfgOnThresh (d : BitVec 32) (s : State) : (respondOk d s).cfgOnThresh = s.cfgOnThresh := rfl

@[simp] theorem State.respondOk_cfgOffThresh (d : BitVec 32) (s : State) : (respondOk d s).cfgOffThresh = s.cfgOffThresh := rfl

@[simp] theorem State.respondOk_period (d : BitVec 32) (s : State) : (respondOk d s).period = s.period := rfl

@[simp] theorem State.respondOk_lastCapture (d : BitVec 32) (s : State) : (respondOk d s).lastCapture = s.lastCapture := rfl

@[simp] theorem State.respondOk_zct (d : BitVec 32) (s : State) : (respondOk d s).zct = s.zct := rfl

@[simp] theorem State.respondOk_tcnt (d : BitVec 32) (s : State) : (respondOk d s).tcnt = s.tcnt := rfl

@[simp] theorem State.respondOk_icr (d : BitVec 32) (s : State) : (respondOk d s).icr = s.icr := rfl

@[simp] theorem State.respondOk_ie (d : BitVec 32) (s : State) : (respondOk d s).ie = s.ie := rfl

@[simp] theorem State.respondOk_ifl (d : BitVec 32) (s : State) : (respondOk d s).ifl = s.ifl := rfl

@[simp] theorem State.respondOk_inputs (d : BitVec 32) (s : State) : (respondOk d s).inputs = s.inputs := rfl

@[simp] theorem State.respondOk_draws (d : BitVec 32) (s : State) : (respondOk d s).draws = s.draws := rfl

@[simp] theorem State.respondOk_lastInput (d : BitVec 32) (s : State) : (respondOk d s).lastInput = s.lastInput := rfl

@[simp] theorem State.respondOk_params (d : BitVec 32) (s : State) : (respondOk d s).params = s.params := rfl

/-! ### The state after a fault -/

@[simp] theorem State.chan_raiseFault (k : FaultKind) (s : State) (c : Ch) : (raiseFault k s).chan c = s.chan c := by
  cases k <;> cases c <;> rfl

@[simp] theorem State.raiseFault_fault (k : FaultKind) (s : State) : (raiseFault k s).fault = s.fault ||| k.mask := rfl

@[simp] theorem State.raiseFault_rs (k : FaultKind) (s : State) : (raiseFault k s).rs = s.rs := rfl

@[simp] theorem State.raiseFault_cfgPulseLength (k : FaultKind) (s : State) : (raiseFault k s).cfgPulseLength = s.cfgPulseLength := rfl

@[simp] theorem State.raiseFault_cfgMinTrigger (k : FaultKind) (s : State) : (raiseFault k s).cfgMinTrigger = s.cfgMinTrigger := rfl

@[simp] theorem State.raiseFault_cfgOnThresh (k : FaultKind) (s : State) : (raiseFault k s).cfgOnThresh = s.cfgOnThresh := rfl

@[simp] theorem State.raiseFault_cfgOffThresh (k : FaultKind) (s : State) : (raiseFault k s).cfgOffThresh = s.cfgOffThresh := rfl

@[simp] theorem State.raiseFault_period (k : FaultKind) (s : State) : (raiseFault k s).period = s.period := rfl

@[simp] theorem State.raiseFault_lastCapture (k : FaultKind) (s : State) : (raiseFault k s).lastCapture = s.lastCapture := rfl

@[simp] theorem State.raiseFault_zct (k : FaultKind) (s : State) : (raiseFault k s).zct = s.zct := rfl

@[simp] theorem State.raiseFault_tcnt (k : FaultKind) (s : State) : (raiseFault k s).tcnt = s.tcnt := rfl

@[simp] theorem State.raiseFault_icr (k : FaultKind) (s : State) : (raiseFault k s).icr = s.icr := rfl

@[simp] theorem State.raiseFault_ie (k : FaultKind) (s : State) : (raiseFault k s).ie = s.ie := rfl

@[simp] theorem State.raiseFault_ifl (k : FaultKind) (s : State) : (raiseFault k s).ifl = s.ifl := rfl

@[simp] theorem State.raiseFault_inputs (k : FaultKind) (s : State) : (raiseFault k s).inputs = s.inputs := rfl

@[simp] theorem State.raiseFault_params (k : FaultKind) (s : State) : (raiseFault k s).params = s.params := rfl

@[simp] theorem State.raiseFault_draws (k : FaultKind) (s : State) : (raiseFault k s).draws = s.draws := rfl

@[simp] theorem State.raiseFault_lastInput (k : FaultKind) (s : State) : (raiseFault k s).lastInput = s.lastInput := rfl

@[simp] theorem State.raiseFault_rsp (k : FaultKind) (s : State) :
    (raiseFault k s).rsp = some { status := k.status, fault := s.fault ||| k.mask, data := faultData k s } := rfl

/-- Only a DIV0 response has a DATA other than 0. -/
theorem faultData_eq_zero {k : FaultKind} (s : State) (h : k ≠ .div0) : faultData k s = 0 := by
  cases k <;> first | rfl | exact absurd rfl h

/-- Everything that raising a fault does: the sticky bit and the response. -/
theorem raiseFault_eq (k : FaultKind) (s : State) :
    ∃ d : BitVec 32, (k ≠ .div0 → d = 0) ∧
      raiseFault k s = { s with fault := s.fault ||| k.mask,
                                rsp := some { status := k.status, fault := s.fault ||| k.mask, data := d } } :=
  ⟨faultData k s, faultData_eq_zero s, rfl⟩

/-! ### The state in which a step begins -/

@[simp] theorem State.chan_noteInput (x : Input) (s : State) (c : Ch) : (noteInput x s).chan c = s.chan c := by
  cases c <;> rfl

@[simp] theorem State.noteInput_rs (x : Input) (s : State) : (noteInput x s).rs = s.rs := rfl

@[simp] theorem State.noteInput_fault (x : Input) (s : State) : (noteInput x s).fault = s.fault := rfl

@[simp] theorem State.noteInput_cfgPulseLength (x : Input) (s : State) : (noteInput x s).cfgPulseLength = s.cfgPulseLength := rfl

@[simp] theorem State.noteInput_cfgMinTrigger (x : Input) (s : State) : (noteInput x s).cfgMinTrigger = s.cfgMinTrigger := rfl

@[simp] theorem State.noteInput_cfgOnThresh (x : Input) (s : State) : (noteInput x s).cfgOnThresh = s.cfgOnThresh := rfl

@[simp] theorem State.noteInput_cfgOffThresh (x : Input) (s : State) : (noteInput x s).cfgOffThresh = s.cfgOffThresh := rfl

@[simp] theorem State.noteInput_period (x : Input) (s : State) : (noteInput x s).period = s.period := rfl

@[simp] theorem State.noteInput_lastCapture (x : Input) (s : State) : (noteInput x s).lastCapture = s.lastCapture := rfl

@[simp] theorem State.noteInput_zct (x : Input) (s : State) : (noteInput x s).zct = s.zct := rfl

@[simp] theorem State.noteInput_chA (x : Input) (s : State) : (noteInput x s).chA = s.chA := rfl

@[simp] theorem State.noteInput_chB (x : Input) (s : State) : (noteInput x s).chB = s.chB := rfl

@[simp] theorem State.noteInput_tcnt (x : Input) (s : State) : (noteInput x s).tcnt = s.tcnt := rfl

@[simp] theorem State.noteInput_icr (x : Input) (s : State) : (noteInput x s).icr = s.icr := rfl

@[simp] theorem State.noteInput_ie (x : Input) (s : State) : (noteInput x s).ie = s.ie := rfl

@[simp] theorem State.noteInput_ifl (x : Input) (s : State) : (noteInput x s).ifl = s.ifl := rfl

@[simp] theorem State.noteInput_rsp (x : Input) (s : State) : (noteInput x s).rsp = s.rsp := rfl

@[simp] theorem State.noteInput_inputs (x : Input) (s : State) : (noteInput x s).inputs = s.inputs := rfl

@[simp] theorem State.noteInput_params (x : Input) (s : State) : (noteInput x s).params = s.params := rfl

@[simp] theorem State.noteInput_lastInput (x : Input) (s : State) : (noteInput x s).lastInput = some x := rfl

/-- A step on the arrival of the step before begins in the state that step left. -/
theorem noteInput_of_last {x : Input} {s : State} (h : s.lastInput = some x) : noteInput x s = s := by
  cases s; simp only at h; subst h; simp [noteInput]

/-! ### The two channel records by name -/

@[simp] theorem State.setChan_A_chA (s : State) (x : Chan) : (s.setChan .A x).chA = x := rfl

@[simp] theorem State.setChan_A_chB (s : State) (x : Chan) : (s.setChan .A x).chB = s.chB := rfl

@[simp] theorem State.setChan_B_chA (s : State) (x : Chan) : (s.setChan .B x).chA = s.chA := rfl

@[simp] theorem State.setChan_B_chB (s : State) (x : Chan) : (s.setChan .B x).chB = x := rfl

@[simp] theorem State.setIeCmp_chA (s : State) (c : Ch) (v : Bool) : (s.setIeCmp c v).chA = s.chA := rfl

@[simp] theorem State.setIeCmp_chB (s : State) (c : Ch) (v : Bool) : (s.setIeCmp c v).chB = s.chB := rfl

@[simp] theorem State.setFCmp_chA (s : State) (c : Ch) (v : Bool) : (s.setFCmp c v).chA = s.chA := rfl

@[simp] theorem State.setFCmp_chB (s : State) (c : Ch) (v : Bool) : (s.setFCmp c v).chB = s.chB := rfl

@[simp] theorem State.respondOk_chA (d : BitVec 32) (s : State) : (respondOk d s).chA = s.chA := rfl

@[simp] theorem State.respondOk_chB (d : BitVec 32) (s : State) : (respondOk d s).chB = s.chB := rfl

@[simp] theorem State.raiseFault_chA (k : FaultKind) (s : State) : (raiseFault k s).chA = s.chA := rfl

@[simp] theorem State.raiseFault_chB (k : FaultKind) (s : State) : (raiseFault k s).chB = s.chB := rfl

/-- Two states are equal when their channels and their other fields are. -/
theorem State.ext_chan {s t : State} (hc : ∀ c, s.chan c = t.chan c)
    (h_rs : s.rs = t.rs)
    (h_fault : s.fault = t.fault)
    (h_cfgPulseLength : s.cfgPulseLength = t.cfgPulseLength)
    (h_cfgMinTrigger : s.cfgMinTrigger = t.cfgMinTrigger)
    (h_cfgOnThresh : s.cfgOnThresh = t.cfgOnThresh)
    (h_cfgOffThresh : s.cfgOffThresh = t.cfgOffThresh)
    (h_period : s.period = t.period)
    (h_lastCapture : s.lastCapture = t.lastCapture)
    (h_zct : s.zct = t.zct)
    (h_tcnt : s.tcnt = t.tcnt)
    (h_icr : s.icr = t.icr)
    (h_ie : s.ie = t.ie)
    (h_ifl : s.ifl = t.ifl)
    (h_rsp : s.rsp = t.rsp)
    (h_inputs : s.inputs = t.inputs)
    (h_draws : s.draws = t.draws)
    (h_lastInput : s.lastInput = t.lastInput)
    (h_params : s.params = t.params) : s = t := by
  have hA := hc .A
  have hB := hc .B
  cases s
  cases t
  simp only [State.chan] at *
  subst_vars
  rfl

end Sys2Proof.Machine
end

