-- ==== Sys2Proof/Laws/Ops.lean ====
section
/-! SUPPORT. What each shared operation of Machine/Ops.lean does, said once. -/

namespace Sys2Proof.Machine

/-- The channel selector names A by 0 and B by 1 (30_encoding.md R53). -/
theorem chanOf_eq_some_iff (ch : Byte) (c : Ch) : chanOf ch = some c ↔ (ch = 0 ∧ c = .A) ∨ (ch = 1 ∧ c = .B) := by
  unfold chanOf
  by_cases h0 : ch = 0#8
  · subst h0; cases c <;> simp
  · by_cases h1 : ch = 1#8
    · subst h1; cases c <;> simp
    · cases c <;> simp [h0, h1]

/-- No other selector names a channel. -/
theorem chanOf_eq_none_iff (ch : Byte) : chanOf ch = none ↔ ch ≠ 0 ∧ ch ≠ 1 := by
  unfold chanOf
  by_cases h0 : ch = 0#8
  · simp [h0]
  · by_cases h1 : ch = 1#8 <;> simp [h0, h1]

/-- A selector names at most one channel. -/
theorem chanOf_unique {ch : Byte} {c d : Ch} (h : chanOf ch = some c) (k : chanOf ch = some d) : c = d := by
  simpa [h] using k

/-- The passed test as a comparison of numbers (43_pulse_scheduler.md R87). -/
theorem passed_iff (base delay n : Tick) : passed base delay n = true ↔ delay.toNat ≤ (n - base).toNat := by
  simp [passed]

theorem passed_false_iff (base delay n : Tick) : passed base delay n = false ↔ (n - base).toNat < delay.toNat := by
  simp [passed]

/-- The compare action changes the latch of its channel alone. -/
theorem compareAction_eq (c : Ch) (s : State) :
    compareAction c s = s.setChan c { s.chan c with ocl :=
      match (s.chan c).com with
      | .driveHigh => true
      | .driveLow => false
      | .none => (s.chan c).ocl } := by
  unfold compareAction
  cases h : (s.chan c).com <;> simp
  cases c <;> rfl

/-- Everything that disabling a channel does (42_channel_control_facade.md R80). -/
theorem disable_eq (c : Ch) (s : State) :
    disable c s = { s.setChan c { s.chan c with en := false, com := .none, ph := .quiescent } with
      ie := s.ie.setCmp c false, ifl := s.ifl.setCmp c false } := by
  cases c <;> rfl

/-- The enabling condition of a dispatch, under either order (60_exceptions.md R107, R108). -/
theorem dispatchEnabled_iff (s : State) (src : Source) :
    dispatchEnabled s src = true ↔
      s.rs = .running ∧ s.ifl.get src = true ∧ s.ie.get src = true ∧ allowedByOrder s src = true := by
  simp [dispatchEnabled, pendingEnabled, and_assoc]

/-- The capture source is allowed under both orders. -/
@[simp] theorem allowedByOrder_capt (s : State) : allowedByOrder s .capt = true := by
  unfold allowedByOrder; cases s.params.irqOrder <;> rfl

/-- Under FREE every source is allowed. -/
theorem allowedByOrder_free {s : State} (h : s.params.irqOrder = .free) (src : Source) :
    allowedByOrder s src = true := by
  simp [allowedByOrder, h]

theorem takeInput_nil {s : State} (h : s.inputs = []) : takeInput s = none := by
  simp [takeInput, h]

theorem takeInput_cons {s : State} {x : Input} {rest : List Input} (h : s.inputs = x :: rest) :
    takeInput s = some (x, noteInput x { s with inputs := rest }) := by
  simp [takeInput, h]

/-- The first enabled source is enabled. -/
theorem firstEnabled_some {s : State} {src : Source} (h : firstEnabled s = some src) :
    dispatchEnabled s src = true := by
  unfold firstEnabled at h
  split at h
  · cases h; assumption
  · split at h
    · cases h; assumption
    · split at h
      · cases h; assumption
      · cases h

/-- Where no source is first, none is enabled. -/
theorem firstEnabled_none {s : State} (h : firstEnabled s = none) (src : Source) : dispatchEnabled s src = false := by
  unfold firstEnabled at h
  split at h
  · cases h
  · split at h
    · cases h
    · split at h
      · cases h
      · rcases src with _ | (_ | _) <;> simp_all

end Sys2Proof.Machine
end

