-- ==== Sys2Proof/Laws/Scheduler.lean ====
section
/-! SUPPORT. What the scheduler's operations and handlers do: which part of the state each may touch, and its result in
each case. -/

namespace Sys2Proof.Machine

/-- `t` is `s` but for what belongs to channel `c`: its record, its enable and its flag. -/
def OnlyChannel (c : Ch) (s t : State) : Prop :=
  ∃ (x : Chan) (e f : Bool), t = { s.setChan c x with ie := s.ie.setCmp c e, ifl := s.ifl.setCmp c f }

theorem OnlyChannel.refl (c : Ch) (s : State) : OnlyChannel c s s :=
  ⟨s.chan c, s.ie.cmp c, s.ifl.cmp c, by cases c <;> rfl⟩

theorem OnlyChannel.trans {c : Ch} {s t u : State} (h : OnlyChannel c s t) (k : OnlyChannel c t u) :
    OnlyChannel c s u := by
  obtain ⟨x, e, f, rfl⟩ := h
  obtain ⟨y, g, m, rfl⟩ := k
  exact ⟨y, g, m, by cases c <;> rfl⟩

/-- The other channel is untouched. -/
theorem OnlyChannel.other {c d : Ch} {s t : State} (h : OnlyChannel c s t) (hd : d ≠ c) :
    t.chan d = s.chan d ∧ t.ie.cmp d = s.ie.cmp d ∧ t.ifl.cmp d = s.ifl.cmp d := by
  obtain ⟨x, e, f, rfl⟩ := h
  cases c <;> cases d <;> first | exact absurd rfl hd | exact ⟨rfl, rfl, rfl⟩

/-- The state is determined by its part that belongs to the channel. -/
theorem OnlyChannel.eq {c : Ch} {s t : State} (h : OnlyChannel c s t) :
    t = { s.setChan c (t.chan c) with ie := s.ie.setCmp c (t.ie.cmp c), ifl := s.ifl.setCmp c (t.ifl.cmp c) } := by
  obtain ⟨x, e, f, rfl⟩ := h
  cases c <;> rfl

/-- No field outside the channels and the two source registers is touched, nor is the capture source. -/
theorem OnlyChannel.shared {c : Ch} {s t : State} (h : OnlyChannel c s t) :
    t.rs = s.rs ∧ t.fault = s.fault ∧ t.cfgPulseLength = s.cfgPulseLength ∧ t.cfgMinTrigger = s.cfgMinTrigger ∧
    t.cfgOnThresh = s.cfgOnThresh ∧ t.cfgOffThresh = s.cfgOffThresh ∧ t.period = s.period ∧
    t.lastCapture = s.lastCapture ∧ t.zct = s.zct ∧ t.tcnt = s.tcnt ∧ t.icr = s.icr ∧ t.ie.capt = s.ie.capt ∧
    t.ifl.capt = s.ifl.capt ∧ t.rsp = s.rsp ∧ t.inputs = s.inputs ∧ t.draws = s.draws ∧
    t.lastInput = s.lastInput ∧ t.params = s.params := by
  obtain ⟨x, e, f, rfl⟩ := h
  cases c <;> exact ⟨rfl, rfl, rfl, rfl, rfl, rfl, rfl, rfl, rfl, rfl, rfl, rfl, rfl, rfl, rfl, rfl, rfl, rfl⟩

theorem onlyChannel_setChan (c : Ch) (x : Chan) (s : State) : OnlyChannel c s (s.setChan c x) :=
  ⟨x, s.ie.cmp c, s.ifl.cmp c, by cases c <;> rfl⟩

theorem onlyChannel_setIeCmp (c : Ch) (v : Bool) (s : State) : OnlyChannel c s (s.setIeCmp c v) :=
  ⟨s.chan c, v, s.ifl.cmp c, by cases c <;> rfl⟩

theorem onlyChannel_setFCmp (c : Ch) (v : Bool) (s : State) : OnlyChannel c s (s.setFCmp c v) :=
  ⟨s.chan c, s.ie.cmp c, v, by cases c <;> rfl⟩

theorem onlyChannel_compareAction (c : Ch) (s : State) : OnlyChannel c s (compareAction c s) := by
  rw [compareAction_eq]; exact onlyChannel_setChan c _ s

/-! ### The compare handlers (43_pulse_scheduler.md R91 to R94) -/

/-- An armed channel whose fall offset has not passed waits for the fall. -/
theorem hCmp_armed_early {c : Ch} {n : Tick} {s : State} (h : (s.chan c).ph = .armedForRise)
    (hp : passed s.zct (s.chan c).fallBuf n = false) :
    hCmp c n s = { s.setChan c { s.chan c with ocr := s.zct + (s.chan c).fallBuf, com := .driveLow,
                                               ph := .waitingForFall } with
      ie := s.ie.setCmp c true, ifl := s.ifl.setCmp c false } := by
  cases c <;> simp_all [hCmp, hCmpBounded, armFall, State.setChan, State.setFCmp, State.setIeCmp, State.chan]

/-- An armed channel whose fall offset has passed ends its cycle in the same step. -/
theorem hCmp_armed_late {c : Ch} {n : Tick} {s : State} (h : (s.chan c).ph = .armedForRise)
    (hp : passed s.zct (s.chan c).fallBuf n = true) :
    hCmp c n s = { s.setChan c { s.chan c with ocr := s.zct + (s.chan c).fallBuf, com := .none, ph := .quiescent,
                                               ocl := false } with
      ie := s.ie.setCmp c false, ifl := s.ifl.setCmp c false } := by
  cases c <;> simp_all [hCmp, hCmpBounded, armFall, hFall, compareAction, State.setChan, State.setFCmp, State.setIeCmp,
    State.chan, SourceBits.setCmp]

/-- A waiting channel ends its cycle. -/
theorem hCmp_waiting {c : Ch} {n : Tick} {s : State} (h : (s.chan c).ph = .waitingForFall) :
    hCmp c n s = { s.setChan c { s.chan c with com := .none, ph := .quiescent } with ie := s.ie.setCmp c false } := by
  cases c <;> simp_all [hCmp, hCmpBounded, hFall, State.setChan, State.setIeCmp, State.chan]

/-- A quiescent channel loses its enable and nothing else. -/
theorem hCmp_quiescent {c : Ch} {n : Tick} {s : State} (h : (s.chan c).ph = .quiescent) :
    hCmp c n s = { s with ie := s.ie.setCmp c false } := by
  cases c <;> simp_all [hCmp, hCmpBounded, hSpur, State.setIeCmp, State.chan]

theorem onlyChannel_hCmp (c : Ch) (n : Tick) (s : State) : OnlyChannel c s (hCmp c n s) := by
  cases h : (s.chan c).ph
  · rw [hCmp_quiescent h]; exact onlyChannel_setIeCmp c false s
  · cases hp : passed s.zct (s.chan c).fallBuf n
    · rw [hCmp_armed_early h hp]; exact ⟨_, _, _, rfl⟩
    · rw [hCmp_armed_late h hp]; exact ⟨_, _, _, rfl⟩
  · rw [hCmp_waiting h]; exact ⟨{ s.chan c with com := .none, ph := .quiescent }, false, s.ifl.cmp c, by cases c <;> rfl⟩

/-! ### The parts of the zero-cross handler (43_pulse_scheduler.md R90) -/

theorem onlyChannel_forceLow (c : Ch) (s : State) : OnlyChannel c s (forceLow c s) := onlyChannel_setChan c _ s

theorem onlyChannel_armIfEnabled (c : Ch) (t : Tick) (s : State) : OnlyChannel c s (armIfEnabled c t s) := by
  unfold armIfEnabled
  split
  · exact ((onlyChannel_setChan c _ s).trans (onlyChannel_setFCmp c _ _)).trans (onlyChannel_setIeCmp c _ _)
  · exact OnlyChannel.refl c s

theorem onlyChannel_lateCheck (c : Ch) (t n : Tick) (s : State) : OnlyChannel c s (lateCheck c t n s) := by
  unfold lateCheck
  split
  · exact ((onlyChannel_compareAction c s).trans (onlyChannel_setFCmp c _ _)).trans (onlyChannel_hCmp c n _)
  · exact OnlyChannel.refl c s

/-- What the handler makes of one channel, its enable and its flag, from the capture `t` and the count `n`. -/
def zeroCrossChannel (t n : Tick) (x : Chan) (e f : Bool) : Chan × Bool × Bool :=
  if x.en then
    if passed t x.rise n then
      if passed t x.fall n then
        ({ x with ocr := t + x.fall, com := .none, fallBuf := x.fall, ph := .quiescent, ocl := false }, false, false)
      else
        ({ x with ocr := t + x.fall, com := .driveLow, fallBuf := x.fall, ph := .waitingForFall, ocl := true }, true, false)
    else
      ({ x with ocr := t + x.rise, com := .driveHigh, fallBuf := x.fall, ph := .armedForRise, ocl := false }, true, false)
  else ({ x with ocl := false }, e, f)

/-- The whole handler: the timestamps, and each channel by itself. -/
theorem hZc_eq (n : Tick) (s : State) :
    let a := zeroCrossChannel s.icr n s.chA s.ie.cmpA s.ifl.cmpA
    let b := zeroCrossChannel s.icr n s.chB s.ie.cmpB s.ifl.cmpB
    hZc n s = { s with zct := s.icr, period := s.icr - s.lastCapture, lastCapture := s.icr, chA := a.1, chB := b.1,
                       ie := { s.ie with cmpA := a.2.1, cmpB := b.2.1 },
                       ifl := { s.ifl with cmpA := a.2.2, cmpB := b.2.2 } } := by
  have low : forceLow .B (forceLow .A s) =
      { s with chA := { s.chA with ocl := false }, chB := { s.chB with ocl := false } } := rfl
  unfold hZc
  rw [low]
  cases ea : s.chA.en <;> cases eb : s.chB.en <;>
    cases ra : passed s.icr s.chA.rise n <;> cases rb : passed s.icr s.chB.rise n <;>
    cases fa : passed s.icr s.chA.fall n <;> cases fb : passed s.icr s.chB.fall n <;>
    simp [zeroCrossChannel, armIfEnabled, armRise, lateCheck, forceMatch, hCmp, hCmpBounded, armFall, hFall,
      compareAction, periodUpdate, State.setChan, State.setFCmp, State.setIeCmp, State.chan, SourceBits.setCmp,
      ea, eb, ra, rb, fa, fb]

/-- The handler's result for one channel. -/
theorem hZc_channel (n : Tick) (s : State) (c : Ch) :
    let r := zeroCrossChannel s.icr n (s.chan c) (s.ie.cmp c) (s.ifl.cmp c)
    (hZc n s).chan c = r.1 ∧ (hZc n s).ie.cmp c = r.2.1 ∧ (hZc n s).ifl.cmp c = r.2.2 := by
  rw [hZc_eq]
  cases c <;> exact ⟨rfl, rfl, rfl⟩

/-! ### Dispatch -/

/-- A dispatch has a next state exactly where it is enabled, and then it is its handler's. -/
theorem dispatch_eq_next_iff (src : Source) (s t : State) :
    dispatch src s = .next t ↔
      dispatchEnabled s src = true ∧ t = handler src s.tcnt (enterDispatch src s) := by
  unfold dispatch
  split
  · rename_i h; simp [h, eq_comm]
  · rename_i h; simp [h]

end Sys2Proof.Machine
end

