-- ==== Sys2Proof/Laws/Exec.lean ====
section
/-! SUPPORT. What one instruction can do when it answers a next state, said once for each. -/

namespace Sys2Proof.Machine

/-- The dispatch steps are the dispatch of their source. -/
theorem exec_dispatch (src : Source) (s : State) : exec (Instr.dispatch src) s = dispatch src s := by
  rcases src with _ | (_ | _) <;> rfl

theorem exec_dispatchCapt (s : State) : exec .dispatchCapt s = dispatch .capt s := rfl

theorem exec_dispatchA (s : State) : exec .dispatchA s = dispatch (.cmp .A) s := rfl

theorem exec_dispatchB (s : State) : exec .dispatchB s = dispatch (.cmp .B) s := rfl

/-- `BEGIN` faults while RUNNING, else configures and starts the unit. -/
theorem exec_beginCmd (pl mto : Tick) (on off : F32) (s : State) :
    exec (.beginCmd pl mto on off) s = .next (if s.rs = .running then raiseFault .state s else respondOk 0
      { s with cfgPulseLength := pl, cfgMinTrigger := mto, cfgOnThresh := on, cfgOffThresh := off,
               tcnt := 0, icr := 0, chA := s.chA.resetUnit, chB := s.chB.resetUnit,
               ifl := SourceBits.none, ie := { capt := true, cmpA := false, cmpB := false }, rs := .running }) := by
  change execBegin pl mto on off s = _
  unfold execBegin; split <;> rfl

theorem exec_endCmd (s : State) :
    exec .endCmd s = .next (respondOk 0
      { s with ie := SourceBits.none, tcnt := 0, icr := 0,
               chA := { s.chA.resetUnit with ph := .quiescent }, chB := { s.chB.resetUnit with ph := .quiescent },
               ifl := SourceBits.none, rs := if s.rs = .running then .stopped else s.rs }) := rfl

/-- `SETB`: a fault, or a channel forced or mapped. -/
theorem exec_setB_cases (ch : Byte) (value : F32) (s : State) :
    (s.rs = .unconfigured ∧ exec (.setB ch value) s = .next (raiseFault .state s)) ∨
    (s.rs ≠ .unconfigured ∧ chanOf ch = none ∧ exec (.setB ch value) s = .next (raiseFault .chan s)) ∨
    (∃ c, s.rs ≠ .unconfigured ∧ chanOf ch = some c ∧ val value = none ∧
      exec (.setB ch value) s = .next (raiseFault .value s)) ∨
    (∃ c x, s.rs ≠ .unconfigured ∧ chanOf ch = some c ∧ val value = some x ∧
      exec (.setB ch value) s = .next (respondOk 0 (setBrightness c x s))) := by
  change (_ ∧ execSetB ch value s = _) ∨ (_ ∧ _ ∧ execSetB ch value s = _) ∨ (∃ c, _ ∧ _ ∧ _ ∧ execSetB ch value s = _) ∨
    (∃ c x, _ ∧ _ ∧ _ ∧ execSetB ch value s = _)
  unfold execSetB
  by_cases hr : s.rs = .unconfigured
  · simp [hr]
  · cases hc : chanOf ch with
    | none => simp [hr]
    | some c => cases hv : val value <;> simp [hr]

/-- `GETB`: a fault, or the reported brightness. -/
theorem exec_getB_cases (ch : Byte) (s : State) :
    (s.rs = .unconfigured ∧ exec (.getB ch) s = .next (raiseFault .state s)) ∨
    (s.rs ≠ .unconfigured ∧ chanOf ch = none ∧ exec (.getB ch) s = .next (raiseFault .chan s)) ∨
    (∃ c, s.rs ≠ .unconfigured ∧ chanOf ch = some c ∧ s.period = 0 ∧
      exec (.getB ch) s = .next (raiseFault .div0 s)) ∨
    (∃ c, s.rs ≠ .unconfigured ∧ chanOf ch = some c ∧ s.period ≠ 0 ∧
      exec (.getB ch) s = .next (respondOk (mapGet s.params.numerics (s.chan c).rise s.period) s)) := by
  change (_ ∧ execGetB ch s = _) ∨ (_ ∧ _ ∧ execGetB ch s = _) ∨ (∃ c, _ ∧ _ ∧ _ ∧ execGetB ch s = _) ∨
    (∃ c, _ ∧ _ ∧ _ ∧ execGetB ch s = _)
  unfold execGetB
  by_cases hr : s.rs = .unconfigured
  · simp [hr]
  · cases hc : chanOf ch with
    | none => simp [hr]
    | some c => by_cases hp : s.period = 0#16 <;> simp [hr, hp]

/-- `DIS`: a fault, or the channel disabled. -/
theorem exec_dis_cases (ch : Byte) (s : State) :
    (s.rs = .unconfigured ∧ exec (.dis ch) s = .next (raiseFault .state s)) ∨
    (s.rs ≠ .unconfigured ∧ chanOf ch = none ∧ exec (.dis ch) s = .next (raiseFault .chan s)) ∨
    (∃ c, s.rs ≠ .unconfigured ∧ chanOf ch = some c ∧ exec (.dis ch) s = .next (respondOk 0 (disable c s))) := by
  change (_ ∧ execDis ch s = _) ∨ (_ ∧ _ ∧ execDis ch s = _) ∨ (∃ c, _ ∧ _ ∧ execDis ch s = _)
  unfold execDis
  by_cases hr : s.rs = .unconfigured
  · simp [hr]
  · cases hc : chanOf ch <;> simp [hr]

/-- `SETB` on a valid channel and value: a forced level or a mapped brightness (42_channel_control_facade.md R81). -/
theorem setBrightness_cases (c : Ch) (x : ExtReal) (s : State) :
    ((aboveThreshold x s.cfgOnThresh = true ∨ belowThreshold x s.cfgOffThresh = true) ∧
      ∃ level, setBrightness c x s = forceLevel c level s) ∨
    (aboveThreshold x s.cfgOnThresh = false ∧ belowThreshold x s.cfgOffThresh = false ∧
      setBrightness c x s = setMapped c x s) := by
  unfold setBrightness
  cases ha : aboveThreshold x s.cfgOnThresh <;> cases hb : belowThreshold x s.cfgOffThresh <;> simp

/-- A forced level: the channel disabled, its static level set. -/
theorem forceLevel_eq (c : Ch) (level : Bool) (s : State) :
    forceLevel c level s =
      { s.setChan c { s.chan c with en := false, com := .none, ph := .quiescent, static := level } with
        ie := s.ie.setCmp c false, ifl := s.ifl.setCmp c false } := by
  cases c <;> rfl

theorem onlyChannel_forceLevel (c : Ch) (level : Bool) (s : State) : OnlyChannel c s (forceLevel c level s) := by
  rw [forceLevel_eq]; exact ⟨_, _, _, rfl⟩

theorem onlyChannel_disable (c : Ch) (s : State) : OnlyChannel c s (disable c s) := by
  rw [disable_eq]; exact ⟨_, _, _, rfl⟩

theorem onlyChannel_setMapped (c : Ch) (x : ExtReal) (s : State) : OnlyChannel c s (setMapped c x s) :=
  onlyChannel_setChan c _ s

theorem onlyChannel_setBrightness (c : Ch) (x : ExtReal) (s : State) : OnlyChannel c s (setBrightness c x s) := by
  rcases setBrightness_cases c x s with ⟨_, level, h⟩ | ⟨_, _, h⟩ <;> rw [h]
  · exact onlyChannel_forceLevel c level s
  · exact onlyChannel_setMapped c x s

/-- One channel's compare on the new count (43_pulse_scheduler.md R85). -/
theorem compareChannel_eq (c : Ch) (s : State) :
    compareChannel c s = { s.setChan c { s.chan c with ocl :=
        if s.tcnt = (s.chan c).ocr ∧ (s.chan c).com = .driveHigh then true
        else if s.tcnt = (s.chan c).ocr ∧ (s.chan c).com = .driveLow then false else (s.chan c).ocl } with
      ifl := s.ifl.setCmp c (s.ifl.cmp c || s.tcnt == (s.chan c).ocr) } := by
  unfold compareChannel
  by_cases h : s.tcnt = (s.chan c).ocr
  · rw [if_pos h, compareAction_eq]
    cases c <;> cases hc : (s.chan _).com <;>
      simp_all [State.setChan, State.setFCmp, State.chan, SourceBits.setCmp]
  · rw [if_neg h]
    have hb : (s.tcnt == (s.chan c).ocr) = false := by simpa using h
    simp only [h, hb, false_and, if_false, Bool.or_false, SourceBits.setCmp_cmp]
    cases c <;> rfl

/-- `TICK` while RUNNING. -/
theorem exec_tick_running {s : State} (h : s.rs = .running) :
    exec .tick s = .next (countAndCompare s) := by
  change execTick s = _
  simp [execTick, h]

/-- `TICK` outside RUNNING. -/
theorem exec_tick_stopped {s : State} (h : s.rs ≠ .running) : exec .tick s = .next s := by
  change execTick s = _
  simp [execTick, h]

/-- `ZC` while RUNNING. -/
theorem exec_zc_running {s : State} (h : s.rs = .running) :
    exec .zc s = .next { s with icr := s.tcnt, ifl := { s.ifl with capt := true } } := by
  change execZc s = _
  simp [execZc, h]

/-- `ZC` outside RUNNING. -/
theorem exec_zc_stopped {s : State} (h : s.rs ≠ .running) : exec .zc s = .next s := by
  change execZc s = _
  simp [execZc, h]

/-- What a tick makes of one channel and its flag. -/
theorem tick_channel (s : State) (c : Ch) :
    let t := countAndCompare s
    t.chan c = { s.chan c with ocl :=
        if s.tcnt + 1 = (s.chan c).ocr ∧ (s.chan c).com = .driveHigh then true
        else if s.tcnt + 1 = (s.chan c).ocr ∧ (s.chan c).com = .driveLow then false else (s.chan c).ocl } ∧
    t.ifl.cmp c = (s.ifl.cmp c || s.tcnt + 1 == (s.chan c).ocr) := by
  rw [countAndCompare, compareChannel_eq .A, compareChannel_eq .B]
  cases c <;> exact ⟨rfl, rfl⟩

/-! ### Every next state of an instruction, in one case analysis -/

/-- What one instruction can make of a state: the cases of every rule that gives a step an effect. -/
inductive Effect (s : State) : Instr → State → Prop where
  | fault {i : Instr} (k : FaultKind) (hi : i.isCommand = true) (he : i ≠ .endCmd) (hk : k ≠ .illegal) :
      Effect s i (raiseFault k s)
  | beginCmd (pl mto : Tick) (on off : F32) (hr : s.rs ≠ .running) :
      Effect s (.beginCmd pl mto on off) (respondOk 0
        { s with cfgPulseLength := pl, cfgMinTrigger := mto, cfgOnThresh := on, cfgOffThresh := off,
                 tcnt := 0, icr := 0, chA := s.chA.resetUnit, chB := s.chB.resetUnit,
                 ifl := SourceBits.none, ie := { capt := true, cmpA := false, cmpB := false }, rs := .running })
  | endCmd :
      Effect s .endCmd (respondOk 0
        { s with ie := SourceBits.none, tcnt := 0, icr := 0,
                 chA := { s.chA.resetUnit with ph := .quiescent }, chB := { s.chB.resetUnit with ph := .quiescent },
                 ifl := SourceBits.none, rs := if s.rs = .running then .stopped else s.rs })
  | forced (ch : Byte) (value : F32) (c : Ch) (x : ExtReal) (level : Bool) (hr : s.rs ≠ .unconfigured)
      (hc : chanOf ch = some c) (hv : val value = some x)
      (hx : aboveThreshold x s.cfgOnThresh = true ∨ belowThreshold x s.cfgOffThresh = true) :
      Effect s (.setB ch value) (respondOk 0 (forceLevel c level s))
  | mapped (ch : Byte) (value : F32) (c : Ch) (x : ExtReal) (hr : s.rs ≠ .unconfigured)
      (hc : chanOf ch = some c) (hv : val value = some x) (ha : aboveThreshold x s.cfgOnThresh = false)
      (hb : belowThreshold x s.cfgOffThresh = false) :
      Effect s (.setB ch value) (respondOk 0 (setMapped c x s))
  | getB (ch : Byte) (c : Ch) (hr : s.rs ≠ .unconfigured) (hc : chanOf ch = some c) (hp : s.period ≠ 0) :
      Effect s (.getB ch) (respondOk (mapGet s.params.numerics (s.chan c).rise s.period) s)
  | dis (ch : Byte) (c : Ch) (hr : s.rs ≠ .unconfigured) (hc : chanOf ch = some c) :
      Effect s (.dis ch) (respondOk 0 (disable c s))
  | ignored {i : Instr} (hi : i = .tick ∨ i = .zc) (hr : s.rs ≠ .running) : Effect s i s
  | tick (hr : s.rs = .running) : Effect s .tick (countAndCompare s)
  | zc (hr : s.rs = .running) : Effect s .zc { s with icr := s.tcnt, ifl := { s.ifl with capt := true } }
  | dispatchCapt (hd : dispatchEnabled s .capt = true) : Effect s .dispatchCapt (hZc s.tcnt (enterDispatch .capt s))
  | dispatchCmp {i : Instr} (c : Ch) (hi : i = Instr.dispatch (.cmp c)) (hd : dispatchEnabled s (.cmp c) = true) :
      Effect s i (hCmp c s.tcnt (enterDispatch (.cmp c) s))

/-- An instruction that answers a next state has one of these effects. -/
theorem exec_effect {i : Instr} {s t : State} (h : exec i s = .next t) : Effect s i t := by
  cases i with
  | beginCmd pl mto on off =>
    rw [exec_beginCmd] at h
    split at h <;> cases h
    · exact .fault .state rfl (by simp) (by simp)
    · exact .beginCmd pl mto on off ‹_›
  | endCmd => rw [exec_endCmd] at h; cases h; exact .endCmd
  | setB ch value =>
    rcases exec_setB_cases ch value s with ⟨_, e⟩ | ⟨_, _, e⟩ | ⟨_, _, _, _, e⟩ | ⟨c, x, hr, hc, hv, e⟩ <;>
      rw [e] at h <;> cases h
    · exact .fault .state rfl (by simp) (by simp)
    · exact .fault .chan rfl (by simp) (by simp)
    · exact .fault .value rfl (by simp) (by simp)
    · rcases setBrightness_cases c x s with ⟨hx, level, e⟩ | ⟨ha, hb, e⟩ <;> rw [e]
      · exact .forced ch value c x level hr hc hv hx
      · exact .mapped ch value c x hr hc hv ha hb
  | getB ch =>
    rcases exec_getB_cases ch s with ⟨_, e⟩ | ⟨_, _, e⟩ | ⟨_, _, _, _, e⟩ | ⟨c, hr, hc, hp, e⟩ <;>
      rw [e] at h <;> cases h
    · exact .fault .state rfl (by simp) (by simp)
    · exact .fault .chan rfl (by simp) (by simp)
    · exact .fault .div0 rfl (by simp) (by simp)
    · exact .getB ch c hr hc hp
  | dis ch =>
    rcases exec_dis_cases ch s with ⟨_, e⟩ | ⟨_, _, e⟩ | ⟨c, hr, hc, e⟩ <;> rw [e] at h <;> cases h
    · exact .fault .state rfl (by simp) (by simp)
    · exact .fault .chan rfl (by simp) (by simp)
    · exact .dis ch c hr hc
  | tick =>
    by_cases hr : s.rs = .running
    · rw [exec_tick_running hr] at h; cases h; exact .tick hr
    · rw [exec_tick_stopped hr] at h; cases h; exact .ignored (.inl rfl) hr
  | zc =>
    by_cases hr : s.rs = .running
    · rw [exec_zc_running hr] at h; cases h; exact .zc hr
    · rw [exec_zc_stopped hr] at h; cases h; exact .ignored (.inr rfl) hr
  | dispatchCapt =>
    rw [exec_dispatchCapt, dispatch_eq_next_iff] at h
    obtain ⟨hd, rfl⟩ := h; exact .dispatchCapt hd
  | dispatchA =>
    rw [exec_dispatchA, dispatch_eq_next_iff] at h
    obtain ⟨hd, rfl⟩ := h; exact .dispatchCmp .A rfl hd
  | dispatchB =>
    rw [exec_dispatchB, dispatch_eq_next_iff] at h
    obtain ⟨hd, rfl⟩ := h; exact .dispatchCmp .B rfl hd

/-- The compare dispatch of a channel changes only what belongs to it. -/
theorem onlyChannel_dispatchCmp (c : Ch) (s : State) :
    OnlyChannel c s (hCmp c s.tcnt (enterDispatch (.cmp c) s)) :=
  (onlyChannel_setFCmp c false s).trans (onlyChannel_hCmp c _ _)

/-- What a tick leaves alone, and the count. -/
theorem tick_shared (s : State) :
    let t := countAndCompare s
    t.rs = s.rs ∧ t.fault = s.fault ∧ t.cfgPulseLength = s.cfgPulseLength ∧ t.cfgMinTrigger = s.cfgMinTrigger ∧
    t.cfgOnThresh = s.cfgOnThresh ∧ t.cfgOffThresh = s.cfgOffThresh ∧ t.period = s.period ∧
    t.lastCapture = s.lastCapture ∧ t.zct = s.zct ∧ t.tcnt = s.tcnt + 1 ∧ t.icr = s.icr ∧ t.ie = s.ie ∧
    t.ifl.capt = s.ifl.capt ∧ t.rsp = s.rsp ∧ t.inputs = s.inputs ∧ t.draws = s.draws ∧
    t.lastInput = s.lastInput ∧ t.params = s.params := by
  rw [countAndCompare, compareChannel_eq .A, compareChannel_eq .B]
  exact ⟨rfl, rfl, rfl, rfl, rfl, rfl, rfl, rfl, rfl, rfl, rfl, rfl, rfl, rfl, rfl, rfl, rfl, rfl⟩

/-- What the zero-cross dispatch leaves alone, and what it writes outside the channels. -/
theorem zeroCross_shared (s : State) :
    let t := hZc s.tcnt (enterDispatch .capt s)
    t.rs = s.rs ∧ t.fault = s.fault ∧ t.cfgPulseLength = s.cfgPulseLength ∧ t.cfgMinTrigger = s.cfgMinTrigger ∧
    t.cfgOnThresh = s.cfgOnThresh ∧ t.cfgOffThresh = s.cfgOffThresh ∧ t.period = s.icr - s.lastCapture ∧
    t.lastCapture = s.icr ∧ t.zct = s.icr ∧ t.tcnt = s.tcnt ∧ t.icr = s.icr ∧ t.ie.capt = s.ie.capt ∧
    t.ifl.capt = false ∧ t.rsp = s.rsp ∧ t.inputs = s.inputs ∧ t.draws = s.draws ∧
    t.lastInput = s.lastInput ∧ t.params = s.params := by
  rw [hZc_eq]
  exact ⟨rfl, rfl, rfl, rfl, rfl, rfl, rfl, rfl, rfl, rfl, rfl, rfl, rfl, rfl, rfl, rfl, rfl, rfl⟩

/-- What the zero-cross dispatch makes of one channel, its enable and its flag. -/
theorem zeroCross_channel (s : State) (c : Ch) :
    let t := hZc s.tcnt (enterDispatch .capt s)
    let r := zeroCrossChannel s.icr s.tcnt (s.chan c) (s.ie.cmp c) (s.ifl.cmp c)
    t.chan c = r.1 ∧ t.ie.cmp c = r.2.1 ∧ t.ifl.cmp c = r.2.2 := by
  have h := hZc_channel s.tcnt (enterDispatch .capt s) c
  cases c <;> exact h

/-- A step is the next arrival, decoded and executed or rejected. -/
theorem step_nil {s : State} (h : s.inputs = []) : step s = idle s := by
  simp [step, takeInput_nil h]

theorem step_cons_ok {s : State} {x : Input} {rest : List Input} {i : Instr} (h : s.inputs = x :: rest)
    (d : decodeInput x = .ok i) : step s = exec i (noteInput x { s with inputs := rest }) := by
  simp [step, takeInput_cons h, d]

theorem step_cons_error {s : State} {x : Input} {rest : List Input} {e : DecodeError} (h : s.inputs = x :: rest)
    (d : decodeInput x = .error e) : step s = rejectInput x (noteInput x { s with inputs := rest }) := by
  simp [step, takeInput_cons h, d]

/-- Everything a step can be when it answers a next state: nothing, an illegal word's fault, or an instruction. -/
theorem step_cases {s t : State} (h : step s = .next t) :
    (s.inputs = [] ∧ t = s) ∨
    (∃ w rest e, s.inputs = .cmd w :: rest ∧ decodeCommand w = .error e ∧
      t = raiseFault .illegal (noteInput (.cmd w) { s with inputs := rest })) ∨
    (∃ x rest i, s.inputs = x :: rest ∧ decodeInput x = .ok i ∧
      exec i (noteInput x { s with inputs := rest }) = .next t) := by
  cases hi : s.inputs with
  | nil =>
    rw [step_nil hi] at h
    exact .inl ⟨rfl, by simpa [idle, eq_comm] using h⟩
  | cons x rest =>
    cases hd : decodeInput x with
    | ok i => exact .inr (.inr ⟨x, rest, i, rfl, hd, by rw [← step_cons_ok hi hd]; exact h⟩)
    | error e =>
      rw [step_cons_error hi hd] at h
      cases x with
      | cmd w => exact .inr (.inl ⟨w, rest, e, rfl, hd, by simpa [rejectInput, eq_comm] using h⟩)
      | evt code => simp [rejectInput] at h

end Sys2Proof.Machine
end

