-- ==== Sys2Proof/Laws/PerInstr.lean ====
section
/-! SUPPORT. For every instruction: its encoding is a word of its own row of the opcode table. -/

namespace Sys2Proof.Laws.TableRow

/-- The leading byte that the opcode table gives a row: the opcode of a command, the code of an event. -/
def leadingByte : Instr → BitVec 8
  | .beginCmd _ _ _ _ => 0x01
  | .endCmd => 0x02
  | .setB _ _ => 0x10
  | .getB _ => 0x11
  | .dis _ => 0x12
  | .tick => 0x01
  | .zc => 0x02
  | .dispatchCapt => 0x03
  | .dispatchA => 0x04
  | .dispatchB => 0x05

/-- A command's word has its row's opcode and zeros in `RSV` and in every field the row does not use; an event's code is
its row's (30_encoding.md R49, R55). -/
def Statement (i : Instr) : Prop :=
  match encode i with
  | .cmd w => i.isCommand = true ∧ opcOf w = leadingByte i ∧ rsvOf w = 0 ∧ unusedFieldsZero w = true
  | .evt code => i.isCommand = false ∧ code = leadingByte i

theorem beginCmd (pl mto : Tick) (on off : F32) : Statement (.beginCmd pl mto on off) := by
  simp [Statement, encode, Instr.isCommand, leadingByte, unusedFieldsZero]

theorem endCmd : Statement .endCmd := by
  simp [Statement, encode, Instr.isCommand, leadingByte, unusedFieldsZero]

theorem setB (ch : Byte) (value : F32) : Statement (.setB ch value) := by
  simp [Statement, encode, Instr.isCommand, leadingByte, unusedFieldsZero]

theorem getB (ch : Byte) : Statement (.getB ch) := by
  simp [Statement, encode, Instr.isCommand, leadingByte, unusedFieldsZero]

theorem dis (ch : Byte) : Statement (.dis ch) := by
  simp [Statement, encode, Instr.isCommand, leadingByte, unusedFieldsZero]

theorem tick : Statement .tick := ⟨rfl, rfl⟩

theorem zc : Statement .zc := ⟨rfl, rfl⟩

theorem dispatchCapt : Statement .dispatchCapt := ⟨rfl, rfl⟩

theorem dispatchA : Statement .dispatchA := ⟨rfl, rfl⟩

theorem dispatchB : Statement .dispatchB := ⟨rfl, rfl⟩

end Sys2Proof.Laws.TableRow
end

