-- ==== Sys2Proof/Laws/Rational.lean ====
section
/-! SUPPORT. Which rational each operation on fractions computes. -/

namespace Sys2Proof.Machine

theorem Frac.toRat_mk (n : Int) (d : Nat) : ({ num := n, den := d } : Frac).toRat = (n : ℚ) / d := rfl

@[simp] theorem Frac.toRat_ofInt (n : Int) : (Frac.ofInt n).toRat = n := by simp [Frac.ofInt, Frac.toRat]

@[simp] theorem toRat_fracOne : fracOne.toRat = 1 := by simp [fracOne]

@[simp] theorem Frac.toRat_neg (a : Frac) : a.neg.toRat = -a.toRat := by simp [Frac.neg, Frac.toRat, neg_div]

@[simp] theorem Frac.toRat_mul (a b : Frac) : (a.mul b).toRat = a.toRat * b.toRat := by
  simp [Frac.mul, Frac.toRat, div_mul_div_comm]

theorem Frac.toRat_sub {a b : Frac} (ha : 0 < a.den) (hb : 0 < b.den) : (a.sub b).toRat = a.toRat - b.toRat := by
  have ha' : (a.den : ℚ) ≠ 0 := by positivity
  have hb' : (b.den : ℚ) ≠ 0 := by positivity
  simp only [Frac.sub, Frac.toRat, Int.cast_sub, Int.cast_mul, Int.cast_natCast, Nat.cast_mul]
  field_simp

theorem Frac.toRat_abs (a : Frac) : a.abs.toRat = |a.toRat| := by
  simp only [Frac.abs, Frac.toRat, abs_div, Nat.abs_cast]
  congr 1
  exact_mod_cast Int.natCast_natAbs a.num

@[simp] theorem Frac.den_ofInt (n : Int) : (Frac.ofInt n).den = 1 := rfl

@[simp] theorem den_fracOne : fracOne.den = 1 := rfl

@[simp] theorem Frac.den_neg (a : Frac) : a.neg.den = a.den := rfl

@[simp] theorem Frac.den_abs (a : Frac) : a.abs.den = a.den := rfl

theorem Frac.den_mul_pos {a b : Frac} (ha : 0 < a.den) (hb : 0 < b.den) : 0 < (a.mul b).den := Nat.mul_pos ha hb

theorem Frac.den_sub_pos {a b : Frac} (ha : 0 < a.den) (hb : 0 < b.den) : 0 < (a.sub b).den := Nat.mul_pos ha hb

/-- The comparisons are those of the rationals. -/
theorem Frac.lt_iff {a b : Frac} (ha : 0 < a.den) (hb : 0 < b.den) : a.lt b = true ↔ a.toRat < b.toRat := by
  have ha' : (0 : ℚ) < a.den := by positivity
  have hb' : (0 : ℚ) < b.den := by positivity
  simp only [Frac.lt, Frac.toRat, decide_eq_true_eq, div_lt_div_iff₀ ha' hb']
  exact_mod_cast Iff.rfl

theorem Frac.le_iff {a b : Frac} (ha : 0 < a.den) (hb : 0 < b.den) : a.le b = true ↔ a.toRat ≤ b.toRat := by
  have ha' : (0 : ℚ) < a.den := by positivity
  have hb' : (0 : ℚ) < b.den := by positivity
  simp only [Frac.le, Frac.toRat, decide_eq_true_eq, div_le_div_iff₀ ha' hb']
  exact_mod_cast Iff.rfl

theorem Frac.num_eq_zero_iff {a : Frac} (ha : 0 < a.den) : a.num = 0 ↔ a.toRat = 0 := by
  have ha' : (a.den : ℚ) ≠ 0 := by positivity
  simp [Frac.toRat, div_eq_zero_iff, ha']

theorem Frac.num_neg_iff {a : Frac} (ha : 0 < a.den) : a.num < 0 ↔ a.toRat < 0 := by
  have ha' : (0 : ℚ) < a.den := by positivity
  simp [Frac.toRat, div_lt_iff₀ ha']

theorem Frac.num_nonneg_iff {a : Frac} (ha : 0 < a.den) : 0 ≤ a.num ↔ 0 ≤ a.toRat := by
  rw [← not_lt, Frac.num_neg_iff ha, not_lt]

theorem Frac.num_pos_iff {a : Frac} (ha : 0 < a.den) : 0 < a.num ↔ 0 < a.toRat := by
  have ha' : (0 : ℚ) < a.den := by positivity
  simp [Frac.toRat, div_pos_iff_of_pos_right ha']

theorem Frac.floor_eq (a : Frac) : a.floor = ⌊a.toRat⌋ := (Rat.floor_intCast_div_natCast a.num a.den).symm

/-- `round` is half up on non-negative rationals (41_channel_timing_map.md R67). -/
theorem Frac.round_of_nonneg {a : Frac} (ha : 0 < a.den) (h : 0 ≤ a.toRat) : a.round = ⌊a.toRat + 1 / 2⌋ := by
  have hd : (a.den : ℚ) ≠ 0 := by positivity
  rw [Frac.round, if_pos ((Frac.num_nonneg_iff ha).2 h)]
  have e : a.toRat + 1 / 2 = ((2 * a.num + a.den : Int) : ℚ) / ((2 * a.den : Nat) : ℚ) := by
    simp only [Frac.toRat]; push_cast; field_simp
  rw [e, Rat.floor_intCast_div_natCast]
  push_cast
  rfl

/-- A power of two with an exponent of either sign. -/
theorem Frac.toRat_pow2 (e : Int) : (Frac.pow2 e).toRat = 2 ^ e := by
  unfold Frac.pow2
  split
  · rename_i h
    rw [Frac.toRat_mk]
    obtain ⟨n, rfl⟩ := Int.eq_ofNat_of_zero_le h
    simp
  · rename_i h
    rw [Frac.toRat_mk]
    obtain ⟨n, hn⟩ := Int.eq_ofNat_of_zero_le (show 0 ≤ -e by omega)
    obtain rfl : e = -(n : Int) := by omega
    simp

theorem Frac.den_pow2_pos (e : Int) : 0 < (Frac.pow2 e).den := by
  unfold Frac.pow2; split <;> simp

theorem Frac.toRat_scaleDown (a : Frac) (e : Int) : (a.scaleDown e).toRat = a.toRat / 2 ^ e := by
  rw [Frac.scaleDown, Frac.toRat_mul, Frac.toRat_pow2, zpow_neg, div_eq_mul_inv]

theorem Frac.den_scaleDown_pos {a : Frac} (ha : 0 < a.den) (e : Int) : 0 < (a.scaleDown e).den :=
  Frac.den_mul_pos ha (Frac.den_pow2_pos _)

/-- The exponent of a positive rational. -/
theorem Frac.log2_spec {a : Frac} (ha : 0 < a.den) (hn : 0 < a.toRat) :
    (2 : ℚ) ^ a.log2 ≤ a.toRat ∧ a.toRat < 2 ^ (a.log2 + 1) := by
  have hnum := (Frac.num_pos_iff ha).2 hn
  obtain ⟨n, hN⟩ := Int.eq_ofNat_of_zero_le hnum.le
  have hn0 : n ≠ 0 := by rintro rfl; simp [hN] at hnum
  have key : ∀ m : Nat, m ≠ 0 → (2 : ℚ) ^ (Nat.log2 m : Int) ≤ m ∧ (m : ℚ) < 2 ^ ((Nat.log2 m : Int) + 1) := by
    intro m hm
    have h1 := Nat.log2_self_le hm
    have h2 := Nat.lt_log2_self (n := m)
    constructor
    · rw [zpow_natCast]; exact_mod_cast h1
    · rw [← Nat.cast_succ, zpow_natCast]; exact_mod_cast h2
  obtain ⟨n1, n2⟩ := key n hn0
  obtain ⟨d1, d2⟩ := key a.den (by omega)
  have hd : (0 : ℚ) < a.den := by positivity
  have hr : a.toRat = (n : ℚ) / a.den := by simp [Frac.toRat, hN]
  have two : (0 : ℚ) < 2 := by norm_num
  have e : (Nat.log2 a.num.natAbs : Int) = Nat.log2 n := by simp [hN]
  have up : a.toRat < 2 ^ ((Nat.log2 n : Int) - Nat.log2 a.den + 1) := by
    rw [hr, div_lt_iff₀ hd]
    calc (n : ℚ) < 2 ^ ((Nat.log2 n : Int) + 1) := n2
      _ = 2 ^ ((Nat.log2 n : Int) - Nat.log2 a.den + 1) * 2 ^ (Nat.log2 a.den : Int) := by
        rw [← zpow_add₀ two.ne']; congr 1; ring
      _ ≤ _ := by gcongr
  have low : 2 ^ ((Nat.log2 n : Int) - Nat.log2 a.den - 1) < a.toRat := by
    rw [hr, lt_div_iff₀ hd]
    calc (2 : ℚ) ^ ((Nat.log2 n : Int) - Nat.log2 a.den - 1) * a.den
        < 2 ^ ((Nat.log2 n : Int) - Nat.log2 a.den - 1) * 2 ^ ((Nat.log2 a.den : Int) + 1) := by gcongr
      _ = 2 ^ (Nat.log2 n : Int) := by rw [← zpow_add₀ two.ne']; congr 1; ring
      _ ≤ _ := n1
  unfold Frac.log2
  simp only [e]
  split
  · rename_i h
    rw [Frac.lt_iff ha (Frac.den_pow2_pos _), Frac.toRat_pow2] at h
    exact ⟨low.le, by rw [sub_add_cancel]; exact h⟩
  · rename_i h
    rw [Frac.lt_iff ha (Frac.den_pow2_pos _), Frac.toRat_pow2, not_lt] at h
    exact ⟨h, up⟩

/-- `roundEven` is a nearest integer, the even one on a tie. -/
theorem Frac.roundEven_spec {a : Frac} (ha : 0 < a.den) :
    |(a.roundEven : ℚ) - a.toRat| ≤ 1 / 2 ∧
    (|(a.roundEven : ℚ) - a.toRat| = 1 / 2 → a.roundEven % 2 = 0) := by
  have hd : (0 : ℚ) < a.den := by positivity
  have hf := Frac.floor_eq a
  have e : a.toRat = ((a.num - a.floor * a.den : Int) : ℚ) / a.den + a.floor := by
    simp only [Frac.toRat]; push_cast; field_simp; ring
  have f0 : (0 : ℚ) ≤ ((a.num - a.floor * a.den : Int) : ℚ) / a.den := by
    have := Int.floor_le a.toRat; rw [← hf] at this; linarith
  have f1 : ((a.num - a.floor * a.den : Int) : ℚ) / a.den < 1 := by
    have := Int.lt_floor_add_one a.toRat; rw [← hf] at this; linarith
  simp only [Frac.roundEven]
  generalize a.num - a.floor * a.den = r at *
  rw [e]
  split_ifs with h1 h2 h3
  · have : (r : ℚ) / a.den < 1 / 2 := by
      rw [div_lt_div_iff₀ hd (by norm_num)]; have : ((2 * r : Int) : ℚ) < (a.den : Int) := by exact_mod_cast h1
      push_cast at this; linarith
    rw [sub_add_cancel_right, abs_neg, abs_of_nonneg f0]
    exact ⟨this.le, fun h => absurd h this.ne⟩
  · have : 1 / 2 < (r : ℚ) / a.den := by
      rw [div_lt_div_iff₀ (by norm_num) hd]; have : ((a.den : Int) : ℚ) < (2 * r : Int) := by exact_mod_cast h2
      push_cast at this; linarith
    have e2 : ((a.floor + 1 : Int) : ℚ) - ((r : ℚ) / a.den + a.floor) = 1 - (r : ℚ) / a.den := by push_cast; ring
    rw [e2, abs_of_nonneg (by linarith)]
    exact ⟨by linarith, fun h => by linarith⟩
  all_goals
    have hr : (r : ℚ) / a.den = 1 / 2 := by
      rw [div_eq_div_iff hd.ne' (by norm_num)]
      have : ((2 * r : Int) : ℚ) = (a.den : Int) := by exact_mod_cast (by omega : (2 * r : Int) = a.den)
      push_cast at this; linarith
  · rw [sub_add_cancel_right, abs_neg, abs_of_nonneg f0, hr]
    exact ⟨le_rfl, fun _ => h3⟩
  · have e2 : ((a.floor + 1 : Int) : ℚ) - ((r : ℚ) / a.den + a.floor) = 1 - (r : ℚ) / a.den := by push_cast; ring
    rw [e2, hr]
    refine ⟨by norm_num, fun _ => by omega⟩

/-! ### binary32 values (00_scope.md R9) -/

theorem den_f32Magnitude_pos (e f : Nat) : 0 < (f32Magnitude e f).den := by
  unfold f32Magnitude; split_ifs <;> simp

/-- A finite binary32 value has a positive denominator. -/
theorem den_pos_of_val {b : F32} {x : Frac} (h : val b = some (.fin x)) : 0 < x.den := by
  unfold val at h
  split_ifs at h <;> simp at h <;> subst h <;> simp [den_f32Magnitude_pos]

/-- The magnitude of a finite encoding, as a rational. -/
theorem toRat_f32Magnitude (e f : Nat) :
    (f32Magnitude e f).toRat = if e = 0 then (f : ℚ) * 2 ^ (-149 : Int) else (2 ^ 23 + f : ℚ) * 2 ^ ((e : Int) - 150) := by
  unfold f32Magnitude
  split_ifs with h0 h1
  · rw [Frac.toRat_mk, zpow_neg, div_eq_mul_inv]; push_cast; rfl
  · rw [Frac.toRat_mk]
    obtain ⟨k, rfl⟩ := Nat.exists_eq_add_of_le h1
    have : ((150 + k : Nat) : Int) - 150 = (k : Int) := by push_cast; ring
    rw [this, zpow_natCast]; push_cast; norm_num
  · rw [Frac.toRat_mk]
    obtain ⟨k, hk⟩ := Nat.exists_eq_add_of_le (show e ≤ 150 by omega)
    have : (e : Int) - 150 = -(k : Int) := by omega
    rw [this, zpow_neg, zpow_natCast, hk, Nat.add_sub_cancel_left, div_eq_mul_inv]; push_cast; norm_num

/-- The order of extended reals is the order of the line. -/
theorem ExtReal.lt_iff {x y : ExtReal} (hx : ∀ q, x = .fin q → 0 < q.den) (hy : ∀ q, y = .fin q → 0 < q.den) :
    x.lt y = true ↔ x.toLine < y.toLine := by
  cases x with
  | negInf => cases y <;> simp [ExtReal.lt, ExtReal.toLine]
  | posInf => cases y <;> simp [ExtReal.lt, ExtReal.toLine]
  | fin a =>
    cases y with
    | negInf => simp [ExtReal.lt, ExtReal.toLine]
    | posInf => exact iff_of_true rfl (WithBot.coe_lt_coe.2 (WithTop.coe_lt_top _))
    | fin b => simp [ExtReal.lt, ExtReal.toLine, Frac.lt_iff (hx a rfl) (hy b rfl)]

end Sys2Proof.Machine
end

