-- ==== Sys2Proof/Laws/Rounding.lean ====
section
/-! SUPPORT. What the rounding to binary32 computes: a nearest number of units in the last place of its binade, set beside
the exponent. -/

namespace Sys2Proof.Machine

/-- The magnitude whose bits are `k` binades and `n` units: `n * 2^(k - 149)`; a carry out of the fraction is right. -/
theorem toRat_magnitude_of_units {k n : Nat} (hn : n ≤ 2 ^ 24) (hk : k = 0 ∨ 2 ^ 23 ≤ n) :
    (f32Magnitude ((k * 2 ^ 23 + n) / 2 ^ 23) ((k * 2 ^ 23 + n) % 2 ^ 23)).toRat = n * 2 ^ ((k : Int) - 149) := by
  have two : (2 : ℚ) ≠ 0 := by norm_num
  rw [toRat_f32Magnitude]
  rcases Nat.lt_or_ge n (2 ^ 23) with h | h
  · obtain rfl : k = 0 := by omega
    rw [if_pos (by omega), show (0 * 2 ^ 23 + n) % 2 ^ 23 = n by omega]
    simp
  · rcases Nat.lt_or_ge n (2 ^ 24) with h' | h'
    · have e1 : (k * 2 ^ 23 + n) / 2 ^ 23 = k + 1 := by omega
      have e2 : (k * 2 ^ 23 + n) % 2 ^ 23 = n - 2 ^ 23 := by omega
      rw [if_neg (by omega), e1, e2, Nat.cast_sub h]
      push_cast
      rw [show (k : Int) + 1 - 150 = k - 149 by ring]
      ring
    · obtain rfl : n = 2 ^ 24 := by omega
      have e1 : (k * 2 ^ 23 + 2 ^ 24) / 2 ^ 23 = k + 2 := by omega
      have e2 : (k * 2 ^ 23 + 2 ^ 24) % 2 ^ 23 = 0 := by omega
      rw [if_neg (by omega), e1, e2]
      push_cast
      rw [show (k : Int) + 2 - 150 = (k - 149) + 1 by ring, zpow_add₀ two]
      ring

theorem f32_fields_ofNat {m : Nat} (hm : m < 2 ^ 31) :
    f32Sign (BitVec.ofNat 32 m) = false ∧ f32Exp (BitVec.ofNat 32 m) = m / 2 ^ 23 ∧
    f32Frac (BitVec.ofNat 32 m) = m % 2 ^ 23 := by
  have e : (BitVec.ofNat 32 m).toNat = m := by rw [BitVec.toNat_ofNat]; omega
  refine ⟨?_, ?_, ?_⟩
  · have : (BitVec.ofNat 32 m).extractLsb' 31 1 = 0#1 := by
      apply BitVec.eq_of_toNat_eq
      rw [BitVec.extractLsb'_toNat, Nat.shiftRight_eq_div_pow, e, Nat.div_eq_of_lt hm]
      rfl
    rw [f32Sign, this]; rfl
  · rw [f32Exp, BitVec.extractLsb'_toNat, Nat.shiftRight_eq_div_pow, e]; omega
  · rw [f32Frac, BitVec.extractLsb'_toNat, Nat.shiftRight_eq_div_pow, e]; omega

theorem f32_fields_ofNat_neg {m : Nat} (hm : m < 2 ^ 31) :
    f32Sign (BitVec.ofNat 32 (2 ^ 31 + m)) = true ∧ f32Exp (BitVec.ofNat 32 (2 ^ 31 + m)) = m / 2 ^ 23 ∧
    f32Frac (BitVec.ofNat 32 (2 ^ 31 + m)) = m % 2 ^ 23 := by
  have e : (BitVec.ofNat 32 (2 ^ 31 + m)).toNat = 2 ^ 31 + m := by rw [BitVec.toNat_ofNat]; omega
  refine ⟨?_, ?_, ?_⟩
  · have : (BitVec.ofNat 32 (2 ^ 31 + m)).extractLsb' 31 1 = 1#1 := by
      apply BitVec.eq_of_toNat_eq
      rw [BitVec.extractLsb'_toNat, Nat.shiftRight_eq_div_pow, e]
      have : (2 ^ 31 + m) / 2 ^ 31 = 1 := by omega
      rw [this]; rfl
    rw [f32Sign, this]; rfl
  · rw [f32Exp, BitVec.extractLsb'_toNat, Nat.shiftRight_eq_div_pow, e]; omega
  · rw [f32Frac, BitVec.extractLsb'_toNat, Nat.shiftRight_eq_div_pow, e]; omega

/-- The value of an encoding given as its sign and its magnitude bits. -/
theorem val_ofNat {m : Nat} (hm : m < 0x7F800000) :
    val (BitVec.ofNat 32 m) = some (.fin (f32Magnitude (m / 2 ^ 23) (m % 2 ^ 23))) ∧
    val (BitVec.ofNat 32 (2 ^ 31 + m)) = some (.fin (f32Magnitude (m / 2 ^ 23) (m % 2 ^ 23)).neg) := by
  obtain ⟨a, b, c⟩ := f32_fields_ofNat (m := m) (by omega)
  obtain ⟨d, e, f⟩ := f32_fields_ofNat_neg (m := m) (by omega)
  have h : m / 2 ^ 23 ≠ 255 := by omega
  constructor
  · rw [val, b, if_neg h, a, c]; rfl
  · rw [val, e, if_neg h, d, f]; rfl

theorem val_posInf : val (BitVec.ofNat 32 0x7F800000) = some .posInf := by decide

theorem val_negInf : val (BitVec.ofNat 32 (2 ^ 31 + 0x7F800000)) = some .negInf := by decide

/-- The rounding of a positive rational: `n` is a nearest number of units `2^(k - 149)`, even on a tie; `k` is 0 below the
normal range, and names the binade of the rational in it. -/
theorem rneMagnitude_units {a : Frac} (ha : 0 < a.den) (hp : 0 < a.toRat) :
    ∃ k n : Nat, rneMagnitude a = min (k * 2 ^ 23 + n) 0x7F800000 ∧ n ≤ 2 ^ 24 ∧ (k = 0 ∨ 2 ^ 23 ≤ n) ∧
      |(n : ℚ) - a.toRat / 2 ^ ((k : Int) - 149)| ≤ 1 / 2 ∧
      (|(n : ℚ) - a.toRat / 2 ^ ((k : Int) - 149)| = 1 / 2 → n % 2 = 0) ∧
      (k = 0 ∨ (2 : ℚ) ^ ((k : Int) - 126) ≤ a.toRat) ∧ a.toRat < 2 ^ ((k : Int) - 125) := by
  have two : (2 : ℚ) ≠ 0 := by norm_num
  obtain ⟨l1, l2⟩ := Frac.log2_spec ha hp
  obtain ⟨k, hk⟩ := Int.eq_ofNat_of_zero_le (show 0 ≤ max a.log2 (-126) + 126 by omega)
  have hE : max a.log2 (-126) = (k : Int) - 126 := by omega
  obtain ⟨r1, r2⟩ := Frac.roundEven_spec (Frac.den_scaleDown_pos ha ((k : Int) - 149))
  rw [Frac.toRat_scaleDown] at r1 r2
  set u : ℚ := 2 ^ ((k : Int) - 149) with hu
  have hu0 : 0 < u := by positivity
  have q0 : 0 ≤ a.toRat / u := by positivity
  have low : k = 0 ∨ (2 : ℚ) ^ ((k : Int) - 126) ≤ a.toRat := by
    rcases Nat.eq_zero_or_pos k with h | h
    · exact .inl h
    · right; rwa [show (k : Int) - 126 = a.log2 by omega]
  have up : a.toRat < 2 ^ ((k : Int) - 125) := by
    refine l2.trans_le (zpow_le_zpow_right₀ (by norm_num) (by omega))
  have e23 : (2 : ℚ) ^ ((k : Int) - 126) = 2 ^ 23 * u := by
    rw [hu, ← zpow_natCast, ← zpow_add₀ two]; congr 1; push_cast; ring
  have e24 : (2 : ℚ) ^ ((k : Int) - 125) = 2 ^ 24 * u := by
    rw [hu, ← zpow_natCast, ← zpow_add₀ two]; congr 1; push_cast; ring
  have hn0 : 0 ≤ (a.scaleDown ((k : Int) - 149)).roundEven := by
    have := (abs_le.1 r1).1
    by_contra h
    have h' : (a.scaleDown ((k : Int) - 149)).roundEven ≤ -1 := by omega
    have : ((a.scaleDown ((k : Int) - 149)).roundEven : ℚ) ≤ (-1 : Int) := Int.cast_le.2 h'
    push_cast at this
    linarith
  obtain ⟨n, hn⟩ := Int.eq_ofNat_of_zero_le hn0
  rw [hn] at r1 r2
  have hn24 : n ≤ 2 ^ 24 := by
    have h1 := (abs_le.1 r1).2
    have h2 : a.toRat / u < 2 ^ 24 := by rw [div_lt_iff₀ hu0, ← e24]; exact up
    have h3 : (n : ℚ) < (2 ^ 24 + 1 : Nat) := by push_cast; push_cast at h1; linarith
    have : n < 2 ^ 24 + 1 := by exact_mod_cast h3
    omega
  refine ⟨k, n, ?_, hn24, ?_, r1, fun h => ?_, low, up⟩
  · simp only [rneMagnitude, hE]
    rw [show (k : Int) - 126 - 23 = k - 149 by ring, hn, show (k : Int) - 126 + 126 = k by ring]
    rfl
  · rcases low with h | h
    · exact .inl h
    · right
      have h2 : (2 : ℚ) ^ 23 ≤ a.toRat / u := by rw [le_div_iff₀ hu0, ← e23]; exact h
      have h1 := (abs_le.1 r1).1
      by_contra hc
      have h' : n ≤ 8388607 := by omega
      have : (n : ℚ) ≤ (8388607 : Nat) := Nat.cast_le.2 h'
      push_cast at this h1
      norm_num at h2
      linarith
  · have := r2 h
    omega

/-- The sign cases of the rounding. -/
theorem rne32_of_pos {a : Frac} (ha : 0 < a.den) (h : 0 < a.toRat) : rne32 a = BitVec.ofNat 32 (rneMagnitude a) := by
  have := (Frac.num_pos_iff ha).2 h
  rw [rne32, if_neg (by omega), if_neg (by omega)]

theorem rne32_of_neg {a : Frac} (ha : 0 < a.den) (h : a.toRat < 0) :
    rne32 a = BitVec.ofNat 32 (2 ^ 31 + rneMagnitude a.abs) := by
  have := (Frac.num_neg_iff ha).2 h
  rw [rne32, if_neg (by omega), if_pos this]

theorem rne32_of_zero {a : Frac} (ha : 0 < a.den) (h : a.toRat = 0) : rne32 a = 0 := by
  rw [rne32, if_pos ((Frac.num_eq_zero_iff ha).2 h)]

/-- A finite encoding stands for one rational. -/
theorem F32Is.unique {b : F32} {q r : ℚ} (h : F32Is b q) (k : F32Is b r) : q = r := by
  obtain ⟨x, hx, rfl⟩ := h
  obtain ⟨y, hy, rfl⟩ := k
  rw [hx] at hy
  cases hy
  rfl

/-- Every finite value is a number of units of some binade, below the carry. -/
theorem F32Is.shape {b : F32} {z : ℚ} (h : F32Is b z) :
    ∃ k n : Nat, n < 2 ^ 24 ∧ (k = 0 ∨ 2 ^ 23 ≤ n) ∧ |z| = n * 2 ^ ((k : Int) - 149) := by
  obtain ⟨x, hv, rfl⟩ := h
  have hf : f32Frac b < 2 ^ 23 := (b.extractLsb' 0 23).isLt
  have key : ∃ k n : Nat, n < 2 ^ 24 ∧ (k = 0 ∨ 2 ^ 23 ≤ n) ∧
      (f32Magnitude (f32Exp b) (f32Frac b)).toRat = n * 2 ^ ((k : Int) - 149) := by
    rw [toRat_f32Magnitude]
    split_ifs with h0
    · exact ⟨0, f32Frac b, by omega, .inl rfl, by simp⟩
    · refine ⟨f32Exp b - 1, 2 ^ 23 + f32Frac b, by omega, .inr (by omega), ?_⟩
      push_cast
      congr 2
      omega
  obtain ⟨k, n, a, c, e⟩ := key
  refine ⟨k, n, a, c, ?_⟩
  have e' : |(f32Magnitude (f32Exp b) (f32Frac b)).toRat| = n * 2 ^ ((k : Int) - 149) := by
    rw [e, abs_of_nonneg (by positivity)]
  unfold val at hv
  split_ifs at hv with h1 h2 h3 h4
  all_goals (simp at hv; try subst hv)
  · rw [Frac.toRat_neg, abs_neg, e']
  · exact e'

end Sys2Proof.Machine
end

