-- ==== Sys2Proof/Laws/Runs.lean ====
section
/-! SUPPORT. Runs of steps: composition, and what a step that leaves a channel alone keeps. -/

namespace Sys2Proof.Machine

/-- A run is the composition of its parts (20_memory.md R41). -/
theorem runSteps_append (a b : List Instr) (s : State) :
    runSteps (a ++ b) s = match runSteps a s with
      | .next t => runSteps b t
      | .fault r => .fault r
      | .refused r => .refused r := by
  induction a generalizing s with
  | nil => rfl
  | cons i rest ih =>
    simp only [List.cons_append, runSteps]
    cases runInstr i s <;> simp [ih]

/-- A run of at least one step: its first step answers a next state, from which the rest runs. -/
theorem runSteps_cons_eq_next {i : Instr} {rest : List Instr} {s u : State} :
    runSteps (i :: rest) s = .next u ↔ ∃ t, runInstr i s = .next t ∧ runSteps rest t = .next u := by
  simp only [runSteps]
  cases runInstr i s <;> simp

/-- A step on the encoding of `i` runs `i`. -/
theorem step_eq_runInstr {s : State} {i : Instr} {rest : List Input} (h : s.inputs = encode i :: rest)
    (d : decodeInput (encode i) = .ok i) : step s = runInstr i { s with inputs := rest } :=
  step_cons_ok h d

/-- Whether a step leaves a channel alone does not depend on what the model notes of the arrival. -/
@[simp] theorem leavesArmed_noteInput (c : Ch) (i : Instr) (x : Input) (s : State) :
    LeavesArmed c i (noteInput x s) ↔ LeavesArmed c i s := by
  cases i <;> rfl

/-- A dispatch that is enabled, as a step of the machine. -/
theorem runInstr_dispatch {s : State} {src : Source} (h : dispatchEnabled s src = true) :
    runInstr (Instr.dispatch src) s = .next (afterDispatch src s) := by
  rw [runInstr, exec_dispatch, dispatch, if_pos (by exact h)]; rfl

/-- A step that leaves channel `c` alone, in RUNNING, keeps its compare side; only a tick moves the count or the latch. -/
theorem leavesArmed_keeps {c : Ch} {i : Instr} {s t : State} (hr : s.rs = .running) (hl : LeavesArmed c i s)
    (h : exec i s = .next t) :
    t.rs = .running ∧ (t.chan c).ph = (s.chan c).ph ∧ (t.chan c).com = (s.chan c).com ∧
    (t.chan c).ocr = (s.chan c).ocr ∧ (t.chan c).fallBuf = (s.chan c).fallBuf ∧ t.zct = s.zct ∧
    (i ≠ .tick → (t.chan c).ocl = (s.chan c).ocl ∧ t.tcnt = s.tcnt) ∧ (i = .tick → t = countAndCompare s) := by
  cases exec_effect h with
  | tick _ => have sh := tick_shared s; simp [sh, tick_channel, hr]
  | zc _ => cases c <;> simp [hr]
  | dispatchCapt _ => exact absurd hl (by simp [LeavesArmed])
  | dispatchCmp d hi _ =>
    have sh := (onlyChannel_dispatchCmp d s).shared
    have hcd : c ≠ d := by subst hi; cases d <;> exact hl
    rw [((onlyChannel_dispatchCmp d s).other hcd).1]
    subst hi
    cases d <;> simp [sh, hr, Instr.dispatch]
  | ignored _ hn => exact absurd hr hn
  | fault k hi _ _ =>
    simp [hr]
    rintro rfl
    cases hi
  | getB => simp [hr]
  | endCmd => exact absurd hl (by simp [LeavesArmed])
  | beginCmd _ _ _ _ hn => exact absurd hr hn
  | forced ch v d x l _ hc hv hx =>
    have hcd : c ≠ d := by rintro rfl; have := hl hc x hv; simp_all
    simp only [forceLevel_eq]
    cases c <;> cases d <;> simp_all [State.setChan]
  | mapped ch v d x _ _ _ _ _ =>
    simp only [setMapped]
    cases c <;> cases d <;> simp_all [State.setChan]
  | dis ch d _ hc =>
    have hcd : c ≠ d := by rintro rfl; exact hl hc
    simp only [disable_eq]
    cases c <;> cases d <;> simp_all [State.setChan]

/-- The same of a step of the machine. -/
theorem leavesArmed_runInstr {c : Ch} {i : Instr} {s t : State} (hr : s.rs = .running) (hl : LeavesArmed c i s)
    (h : runInstr i s = .next t) :
    t.rs = .running ∧ (t.chan c).ph = (s.chan c).ph ∧ (t.chan c).com = (s.chan c).com ∧
    (t.chan c).ocr = (s.chan c).ocr ∧ (t.chan c).fallBuf = (s.chan c).fallBuf ∧ t.zct = s.zct ∧
    (i ≠ .tick → (t.chan c).ocl = (s.chan c).ocl ∧ t.tcnt = s.tcnt) ∧
    (i = .tick → t = countAndCompare (noteInput (encode i) s)) := by
  have k := leavesArmed_keeps (s := noteInput (encode i) s) hr ((leavesArmed_noteInput c i _ s).2 hl) h
  simpa using k

end Sys2Proof.Machine
end

