-- ==== Sys2Proof/Tests/Slice0.lean ====
section
/-! SUPPORT. The model's own tests. Expected results are those of spec/95_test_vectors.md (named in each comment) and of
the encodings of spec/30_encoding.md; none is the model's answer. Then, for every statement with hypotheses, a concrete
state and operands that meet them. -/

namespace Sys2Proof.Tests

open Sys2Proof.Machine

/-! ### Ill-formed terms are refused -/

theorem test_params_seed_zero_refused :
    ({ numerics := .exact, irqOrder := .free, periodSeed := 0 } : Params).wellFormed = false := by decide

theorem test_params_default_accepted : Params.default.wellFormed = true := by decide

theorem test_event_codes_refused :
    (Input.evt 0x00).wellFormed = false ∧ (Input.evt 0x06).wellFormed = false ∧ (Input.evt 0xFF).wellFormed = false := by
  decide

theorem test_asm_channel_256_refused : (AsmCh.raw 256).wellFormed = false := by decide

theorem test_asm_bits_33_refused : (AsmF32.bits (2 ^ 32)).wellFormed = false := by decide

theorem test_asm_counts_refused :
    (AsmLine.beginCmd 65536 0 .posInf .negInf).wellFormed = false ∧
    (AsmLine.beginCmd 0 65536 .posInf .negInf).wellFormed = false ∧ (AsmLine.runTo 65536).wellFormed = false := by decide

theorem test_asm_operands_refused :
    (AsmLine.beginCmd 0 0 (.bits (2 ^ 32)) .nan).wellFormed = false ∧ (AsmLine.setB (.raw 256) .nan).wellFormed = false ∧
    (AsmLine.setB .A (.bits (2 ^ 32))).wellFormed = false ∧ (AsmLine.getB (.raw 256)).wellFormed = false ∧
    (AsmLine.dis (.raw 256)).wellFormed = false := by decide

/-! ### Decoding: words written out from 30_encoding.md R48, R49, R55 and section 8 -/

/-- Fields left to right: OPC, CH, RSV, U16A, U16B, F32A, F32B. -/
theorem test_decode_begin :
    decodeCommand (0x01#8 ++ 0x00#8 ++ 0x0000#16 ++ 0x0014#16 ++ 0x07D0#16 ++ 0x40000000#32 ++ 0xBF800000#32) =
      .ok (.beginCmd 20 2000 0x40000000 0xBF800000) := by decide

theorem test_decode_begin_cfg1 :
    decodeCommand 0x01000000001407D03F7D70A43C23D70A = .ok (.beginCmd 20 2000 0x3F7D70A4 0x3C23D70A) := by decide

theorem test_decode_end : decodeCommand 0x02000000000000000000000000000000 = .ok .endCmd := by decide

theorem test_decode_setb :
    decodeCommand (0x10#8 ++ 0x01#8 ++ 0x0000#16 ++ 0x0000#16 ++ 0x0000#16 ++ 0x3F800000#32 ++ 0x00000000#32) =
      .ok (.setB 1 0x3F800000) := by decide

theorem test_decode_getb : decodeCommand 0x11000000000000000000000000000000 = .ok (.getB 0) := by decide

theorem test_decode_dis : decodeCommand 0x12010000000000000000000000000000 = .ok (.dis 1) := by decide

theorem test_decode_events :
    decodeEvent 0b00000001 = .ok .tick ∧ decodeEvent 0b00000010 = .ok .zc ∧ decodeEvent 0b00000011 = .ok .dispatchCapt ∧
    decodeEvent 0b00000100 = .ok .dispatchA ∧ decodeEvent 0b00000101 = .ok .dispatchB := by decide

/-- DEC1 to DEC10: the illegal words. -/
theorem test_decode_illegal :
    decodeCommand 0 = .error .unassignedOpcode ∧
    decodeCommand 0x03000000000000000000000000000000 = .error .unassignedOpcode ∧
    decodeCommand 0xFF000000000000000000000000000000 = .error .unassignedOpcode ∧
    decodeCommand 0x10000001000000003F00000000000000 = .error .reservedNonzero ∧
    decodeCommand 0x02010000000000000000000000000000 = .error .unusedFieldNonzero ∧
    decodeCommand 0x01010000001407D03F7D70A43C23D70A = .error .unusedFieldNonzero ∧
    decodeCommand 0x10000000000100003F00000000000000 = .error .unusedFieldNonzero ∧
    decodeCommand 0x10000000000000003F00000000000001 = .error .unusedFieldNonzero ∧
    decodeCommand 0x12000000000000000000000000000001 = .error .unusedFieldNonzero ∧
    decodeCommand 0x11000000000000000000000100000000 = .error .unusedFieldNonzero := by decide

theorem test_decode_event_unassigned :
    decodeEvent 0x00 = .error .unassignedEvent ∧ decodeEvent 0x06 = .error .unassignedEvent := by decide

/-- 30_encoding.md section 8: the bytes of `SETB A, 0.5`, most significant first, with a byte of the next word after. -/
theorem test_decode_bytes :
    decodeBytes [0x10, 0, 0, 0, 0, 0, 0, 0, 0x3F, 0, 0, 0, 0, 0, 0, 0, 0x11] =
      some (.ok (.setB 0 0x3F000000), [0x11]) := by decide

theorem test_encode_setb : encode (.setB 0 0x3F000000) = .cmd 0x10000000000000003F00000000000000 := by decide

theorem test_table_words :
    decodeTableWord 128 0x12000000000000000000000000000000 = some (.dis 0) ∧ decodeTableWord 8 0x04 = some .dispatchA := by
  decide

/-- A response word, DEC18: STATUS CHAN, FAULT 0x05. -/
theorem test_response_word :
    ({ status := .chan, fault := 0x05, data := 0 } : Response).word = 0x0300050000000000 ∧
    ({ status := .chan, fault := 0x05, data := 0 } : Response).bytes = [0x03, 0, 0x05, 0, 0, 0, 0, 0] := by decide

/-- 30_encoding.md R58: a line of text, and the decimal literals of CFG1. -/
theorem test_assembler :
    parseLine "SETB A, 0.5".toList = some (.setB .A (.decimal false 5 (-1))) ∧ parseLine "DIS #256".toList = none ∧
    parseLine "DIS #7".toList = some (.dis (.raw 7)) ∧ parseLine "DIS #0x07".toList = some (.dis (.raw 7)) ∧
    asmF32Encoding (.decimal false 99 (-2)) = 0x3F7D70A4 ∧ asmF32Encoding (.decimal false 1 (-2)) = 0x3C23D70A := by
  decide

/-! ### Small states and what one step leaves in them -/

/-- A part of the next state, none where there is no next state. -/
def after {α : Type} (o : Host.Outcome State Fault Refusal) (f : State → α) : Option α :=
  match o with
  | .next t => some (f t)
  | .fault _ => none
  | .refused _ => none

/-- The refusal, none where there is none. -/
def refusal (o : Host.Outcome State Fault Refusal) : Option Refusal :=
  match o with
  | .next _ => none
  | .fault _ => none
  | .refused r => some r

/-- Steps of the block, one after another. -/
def steps : Nat → State → Option State
  | 0, s => some s
  | k + 1, s =>
    match step s with
    | .next t => steps k t
    | .fault _ => none
    | .refused _ => none

/-- The state after `CFG1` of 95_test_vectors.md. -/
def cfg1 : State :=
  { State.reset with rs := .running, cfgPulseLength := 20, cfgMinTrigger := 2000, cfgOnThresh := 0x3F7D70A4,
                     cfgOffThresh := 0x3C23D70A, ie := { capt := true, cmpA := false, cmpB := false } }

/-- The state after `CFG2`. -/
def cfg2 : State := { cfg1 with cfgOnThresh := 0x40000000, cfgOffThresh := 0xBF800000 }

/-- Channel A as vectors H1, H4, H5 and H6 have it, in a given phase. -/
def channel (ph : Phase) (com : Com) (ocl : Bool) : Chan :=
  { Chan.reset with en := true, rise := 8334, fall := 8354, fallBuf := 8354, ph := ph, com := com, ocl := ocl }

/-- The state of vector H4, with channel A armed: `ZCT` 100, the count given. -/
def armed (n : Tick) : State :=
  { cfg1 with tcnt := n, zct := 100, icr := 100, lastCapture := 100, chA := channel .armedForRise .driveHigh true,
              ie := { capt := true, cmpA := true, cmpB := false }, ifl := { capt := false, cmpA := true, cmpB := false } }

/-- The state of vector H6, with channel A waiting for its fall. -/
def waiting : State := { armed 8460 with chA := channel .waitingForFall .driveLow false }

/-- A state before a zero-cross dispatch: capture at `t`, count `n`, channel A with the given delays. -/
def captured (t n rise fall : Tick) : State :=
  { cfg1 with tcnt := n, icr := t, ifl := { capt := true, cmpA := false, cmpB := false },
              chA := { Chan.reset with en := true, rise := rise, fall := fall } }

/-! ### One step of each instruction -/

/-- BE1. -/
theorem test_begin :
    after (exec (.beginCmd 20 2000 0x3F7D70A4 0x3C23D70A) State.reset) id =
      some { cfg1 with rsp := some { status := .ok, fault := 0, data := 0 } } := by decide

/-- BE2. -/
theorem test_begin_running :
    after (exec (.beginCmd 20 2000 0x40000000 0xBF800000) cfg1) (fun t => (t.cfgOnThresh, t.rsp.map Response.word)) =
      some (0x3F7D70A4, some 0x0200020000000000) := by decide

/-- BE4. -/
theorem test_end :
    after (exec .endCmd { waiting with tcnt := 700 })
      (fun t => (t.rs, t.ie.bits, t.ifl.bits, t.tcnt, t.icr, t.chA)) =
      some (.stopped, 0b000, 0b000, 0, 0, { channel .quiescent .none false with ocr := 0 }) := by decide

/-- BE3. -/
theorem test_end_unconfigured :
    after (exec .endCmd State.reset) id =
      some { State.reset with rsp := some { status := .ok, fault := 0, data := 0 } } := by decide

/-- SETB1: forced high. -/
theorem test_setb_forced :
    after (exec (.setB 0 0x3F7EB852) cfg1) (fun t => (t.chA, t.pin .A, t.rsp.map Response.word)) =
      some ({ Chan.reset with static := true }, true, some 0) := by decide

/-- SETB2: a value equal to the threshold is mapped. -/
theorem test_setb_mapped :
    after (exec (.setB 0 0x3F7D70A4) cfg1) (fun t => (t.chA.rise, t.chA.fall, t.chA.en, t.chA.static)) =
      some (167, 2000, true, false) := by decide

/-- GETB1, in both modes. -/
theorem test_getb :
    after (exec (.getB 0) (armed 0)) (fun t => t.rsp.map Response.word) = some (some 0x000000003EFFFC11) ∧
    after (exec (.getB 0) { armed 0 with params := { Params.default with numerics := .binary32 } })
      (fun t => t.rsp.map Response.word) = some (some 0x000000003EFFFC12) := by decide

/-- DEC17: everything of the response but its free DATA. -/
theorem test_getb_div0 :
    after (exec (.getB 0) { cfg1 with period := 0 }) (fun t => (t.fault, t.rsp.map Response.status, t.rs)) =
      some (0x10, some .div0, .running) := by decide

/-- DIS1: the pulse is cut. -/
theorem test_dis :
    after (exec (.dis 0) { waiting with chA := channel .waitingForFall .driveLow true })
      (fun t => (t.chA, t.ie.bits, t.ifl.bits, t.pin .A)) =
      some ({ channel .quiescent .none true with en := false }, 0b001, 0b000, false) := by decide

/-- TK2: a match on the wrap. -/
theorem test_tick_wrap :
    after (exec .tick { cfg1 with tcnt := 65535, chA := { Chan.reset with com := .driveLow, ocl := true } })
      (fun t => (t.tcnt, t.ifl.cmpA, t.chA.ocl)) = some (0, true, false) := by decide

/-- TK6: both channels match on one tick. -/
theorem test_tick_both :
    after (exec .tick { cfg1 with tcnt := 99, chA := { Chan.reset with ocr := 100, com := .driveHigh },
                                  chB := { Chan.reset with ocr := 100, com := .driveLow, ocl := true } })
      (fun t => (t.ifl.bits, t.chA.ocl, t.chB.ocl)) = some (0b110, true, false) := by decide

/-- ZC1. -/
theorem test_zc :
    after (exec .zc { cfg1 with tcnt := 1234 }) id =
      some { cfg1 with tcnt := 1234, icr := 1234, ifl := { capt := true, cmpA := false, cmpB := false } } := by decide

/-- ZC3. -/
theorem test_zc_stopped : after (exec .zc State.reset) id = some State.reset := by decide

/-- H1. -/
theorem test_dispatch_capt :
    after (exec .dispatchCapt (captured 100 103 8334 8354))
      (fun t => (t.zct, t.period, t.lastCapture, t.ifl.bits, t.ie.bits, t.chA)) =
      some (100, 100, 100, 0b000, 0b011, { channel .armedForRise .driveHigh false with ocr := 8434 }) := by decide

/-- H3: the rise is forced inside the dispatch. -/
theorem test_dispatch_capt_late :
    after (exec .dispatchCapt (captured 50 54 0 2000)) (fun t => (t.chA.ocl, t.chA.ocr, t.chA.com, t.chA.ph, t.pin .A)) =
      some (true, 2050, .driveLow, .waitingForFall, true) := by decide

/-- H4. -/
theorem test_dispatch_a :
    after (exec .dispatchA (armed 8436)) (fun t => (t.chA, t.ie.bits, t.ifl.bits)) =
      some ({ channel .waitingForFall .driveLow true with ocr := 8454 }, 0b011, 0b000) := by decide

/-- H5: the fall is forced inside the dispatch. -/
theorem test_dispatch_a_late :
    after (exec .dispatchA (armed 8460)) (fun t => (t.chA.ocl, t.chA.com, t.chA.ph, t.ie.bits, t.ifl.bits)) =
      some (false, .none, .quiescent, 0b001, 0b000) := by decide

/-- H6 of channel B. -/
theorem test_dispatch_b :
    after (exec .dispatchB { cfg1 with chB := { channel .waitingForFall .driveLow false with ocr := 8454 },
                                       ie := { capt := true, cmpA := false, cmpB := true },
                                       ifl := { capt := false, cmpA := false, cmpB := true } })
      (fun t => (t.chB, t.ie.bits, t.ifl.bits)) =
      some ({ channel .quiescent .none false with ocr := 8454 }, 0b001, 0b000) := by decide

/-- H8 and H10: not enabled. -/
theorem test_dispatch_not_enabled :
    dispatchEnabled { armed 0 with params := { Params.default with irqOrder := .fixed },
                                   ifl := { capt := true, cmpA := true, cmpB := false } } (.cmp .A) = false ∧
    refusal (exec .dispatchA { cfg1 with ifl := { capt := false, cmpA := true, cmpB := false } }) =
      some (.dispatchNotEnabled (.cmp .A)) := by decide

/-- MAP23, and MAP24 read back: the two modes differ. -/
theorem test_map_modes :
    (∃ x, val 0x3F7DB816 = some x ∧ mapSet .exact x 16667 20 2000 = (148, 2000) ∧
      mapSet .binary32 x 16667 20 2000 = (149, 2000)) ∧
    mapGet .exact 164 16667 = 0x3F7D7B23 ∧ mapGet .binary32 164 16667 = 0x3F7D7B24 := by
  exact ⟨⟨.fin (f32Magnitude 126 0x7DB816), by decide, by decide, by decide⟩, by decide, by decide⟩

/-! ### Witnesses: a concrete state and operands that meet the hypotheses of each statement -/

/-- DecodeOfEncode, EncodeOfDecode. -/
theorem witness_round_trip :
    (Instr.beginCmd 65535 0 0xFFFFFFFF 0).wellFormed = true ∧ Instr.tick.wellFormed = true ∧
    decodeInput (.cmd 0x12FF0000000000000000000000000000) = .ok (.dis 0xFF) ∧
    decodeInput (.evt 0x05) = .ok .dispatchB := by decide

/-- StepRunsTheDecodedInstruction. -/
theorem witness_step :
    ({ cfg1 with inputs := [.evt 0x01] } : State).inputs = .evt 0x01 :: [] ∧ decodeInput (.evt 0x01) = .ok .tick ∧
    encode .tick = .evt 0x01 ∧ State.reset.inputs = [] := by decide

/-- IllegalWordRaisesIllegal, and the last but one clause of RunStateTransitions. -/
theorem witness_illegal_word :
    ({ cfg1 with inputs := [.cmd 0] } : State).inputs = .cmd 0 :: [] ∧
    decodeCommand 0 = .error .unassignedOpcode ∧
    after (step { cfg1 with inputs := [.cmd 0] }) (fun t => (t.rs, t.fault, t.inputs)) = some (.running, 0x01, []) := by
  decide

/-- UnassignedEventIsRefused: both ranges at their ends. -/
theorem witness_unassigned_event :
    ({ cfg1 with inputs := [.evt 0x00] } : State).inputs = .evt 0x00 :: [] ∧ (0x00#8).toNat = 0 ∧
    ({ cfg1 with inputs := [.evt 0x06] } : State).inputs = .evt 0x06 :: [] ∧ 6 ≤ (0x06#8).toNat ∧ 6 ≤ (0xFF#8).toNat := by
  decide

/-- EveryStepButADispatchCompletes. -/
theorem witness_not_dispatch : ∀ src, Instr.tick ≠ Instr.dispatch src := by
  rintro (_ | _ | _) <;> decide

/-- EveryCommandResponds: an answer of `GETB`, and one of another command. -/
theorem witness_command_responds :
    (Instr.getB 1).isCommand = true ∧ chanOf 1 = some .B ∧ Instr.endCmd.isCommand = true ∧
    after (exec (.getB 1) cfg1) (fun t => t.rsp.map Response.status) = some (some .ok) := by decide

/-- FaultsArePreciseAndSticky: a command that answers with a fault, and a step. -/
theorem witness_fault :
    (Instr.setB 7 0x3F000000).isCommand = true ∧
    after (exec (.setB 7 0x3F000000) { cfg1 with fault := 0x01 }) (fun t => (t.fault, t.rsp.map Response.status)) =
      some (0x05, some .chan) ∧
    after (step { cfg1 with fault := 0x01, inputs := [.evt 0x01] }) (fun t => (t.fault, t.tcnt)) = some (0x01, 1) := by
  decide

/-- OnlyFaultingCommandsTouchFault: an event step, and a command that answers OK. -/
theorem witness_no_fault :
    Instr.zc.isCommand = false ∧ (after (exec .zc cfg1) State.fault).isSome = true ∧ Instr.endCmd.isCommand = true ∧
    after (exec .endCmd cfg1) (fun t => t.rsp.map Response.status) = some (some .ok) := by decide

/-- RunStateTransitions: the event clause. -/
theorem witness_run_state : Instr.tick.isCommand = false ∧ (after (exec .tick cfg1) State.rs).isSome = true := by decide

/-- BeginFollowsItsRule, SetbFollowsItsRule, GetbFollowsItsRule, DisFollowsItsRule: the run states and the selectors. -/
theorem witness_run_states_and_selectors :
    cfg1.rs = .running ∧ State.reset.rs ≠ .running ∧ State.reset.rs = .unconfigured ∧ cfg1.rs ≠ .unconfigured ∧
    (0x02#8 ≠ 0 ∧ 0x02#8 ≠ 1) ∧ (0xFF#8 ≠ 0 ∧ 0xFF#8 ≠ 1) ∧ chanOf 0 = some .A ∧ chanOf 1 = some .B ∧ chanOf 2 = none := by
  decide

/-- SetbFollowsItsRule: a NaN; a value above, below and between the thresholds of CFG1; thresholds that are NaNs. -/
theorem witness_setb_branches :
    val 0x7F800001 = none ∧
    (∃ x y, val 0x3F7EB852 = some x ∧ val cfg1.cfgOnThresh = some y ∧ y.toLine < x.toLine) ∧
    (∃ x y z, val 0x3BA3D70A = some x ∧ val cfg1.cfgOnThresh = some y ∧ ¬ y.toLine < x.toLine ∧
      val cfg1.cfgOffThresh = some z ∧ x.toLine < z.toLine) ∧
    (∃ x y z, val 0x3F7D70A4 = some x ∧ val cfg1.cfgOnThresh = some y ∧ ¬ y.toLine < x.toLine ∧
      val cfg1.cfgOffThresh = some z ∧ ¬ x.toLine < z.toLine) ∧
    (∃ x, val 0x40A00000 = some x ∧ ¬ ∃ y, val f32NaN = some y ∧ y.toLine < x.toLine) := by
  have lt : ∀ {b d : F32} {x y : ExtReal}, val b = some x → val d = some y → (x.lt y = true ↔ x.toLine < y.toLine) := by
    intro b d x y hx hy
    exact ExtReal.lt_iff (fun q h => by subst h; exact den_pos_of_val hx) (fun q h => by subst h; exact den_pos_of_val hy)
  have on : val cfg1.cfgOnThresh = some (.fin (f32Magnitude 126 0x7D70A4)) := by decide
  have off : val cfg1.cfgOffThresh = some (.fin (f32Magnitude 120 0x23D70A)) := by decide
  have a : val 0x3F7EB852 = some (.fin (f32Magnitude 126 0x7EB852)) := by decide
  have b : val 0x3BA3D70A = some (.fin (f32Magnitude 119 0x23D70A)) := by decide
  have d : val 0x3F7D70A4 = some (.fin (f32Magnitude 126 0x7D70A4)) := by decide
  refine ⟨by decide, ⟨_, _, a, on, ?_⟩, ⟨_, _, _, b, on, ?_, off, ?_⟩, ⟨_, _, _, d, on, ?_, off, ?_⟩,
    ⟨.fin (f32Magnitude 129 0x200000), by decide, ?_⟩⟩
  · rw [← lt on a]; decide
  · rw [← lt on b]; decide
  · rw [← lt b off]; decide
  · rw [← lt on d]; decide
  · rw [← lt d off]; decide
  · rintro ⟨y, h, _⟩
    rw [show val f32NaN = none by decide] at h
    cases h

/-- GetbFollowsItsRule: the period 0, and another. -/
theorem witness_getb_periods : ({ cfg1 with period := 0 } : State).period = 0 ∧ cfg1.period ≠ 0 := by decide

/-- The invariants hold at reset, and in a running state. -/
theorem witness_inv : State.reset.Inv ∧ cfg1.Inv := by
  constructor
  · exact ⟨fun c => by cases c <;> exact fun _ => by decide, fun c => by cases c <;> constructor <;> decide,
      fun _ => ⟨rfl, rfl, rfl, rfl, fun c => by cases c <;> decide⟩, by decide, fun c => by cases c <;> exact le_rfl,
      by decide, by decide⟩
  · exact ⟨fun c => by cases c <;> exact fun _ => by decide, fun c => by cases c <;> constructor <;> decide,
      fun h => absurd rfl h, by decide, fun c => by cases c <;> exact le_rfl, by decide, by decide⟩

/-- EndOutsideRunningChangesNothing. -/
theorem witness_end_outside_running : State.reset.Inv ∧ State.reset.rs ≠ .running := ⟨witness_inv.1, by decide⟩

/-- FacadeCommandsAreIdempotent: a `GETB` that answers OK, two that fault DIV0 in two successive steps, a `SETB` and a `DIS`
that arrive twice, and a command that is no `GETB`. -/
theorem witness_facade_twice :
    after (exec (.getB 0) cfg1) (fun t => t.rsp.map Response.status) = some (some .ok) ∧
    decodeInput (.cmd 0x11000000000000000000000000000000) = .ok (.getB 0) ∧
    (steps 2 { cfg1 with period := 0, inputs := [.cmd 0x11000000000000000000000000000000,
      .cmd 0x11000000000000000000000000000000] }).map (fun t => (t.rsp.map Response.status, t.fault)) =
      some (some .div0, 0x10) ∧
    decodeInput (.cmd 0x10000000000000003F00000000000000) = .ok (.setB 0 0x3F000000) ∧
    decodeInput (.cmd 0x12010000000000000000000000000000) = .ok (.dis 1) ∧
    Instr.endCmd.isCommand = true ∧ (∀ ch, Instr.endCmd ≠ .getB ch) := by
  exact ⟨by decide, by decide, by decide, by decide, by decide, rfl, by intro ch h; cases h⟩

/-- A repeated arrival keeps the index of the free value; another arrival between gives a new one (20_memory.md R40). -/
theorem test_note_input :
    let getb : Input := .cmd 0x11000000000000000000000000000000
    (noteInput getb (noteInput getb cfg1)).draws = (noteInput getb cfg1).draws ∧
    (noteInput getb (noteInput (.evt 0x01) (noteInput getb cfg1))).draws ≠ (noteInput getb cfg1).draws := by decide

/-- GetbDoesNotReportTheForcedLevel: forced high, and forced low. -/
theorem witness_forced :
    chanOf 0 = some .A ∧ val 0x3F7EB852 = some (.fin (f32Magnitude 126 0x7EB852)) ∧
    aboveThreshold (.fin (f32Magnitude 126 0x7EB852)) cfg1.cfgOnThresh = true ∧
    val 0x3BA3D70A = some (.fin (f32Magnitude 119 0x23D70A)) ∧
    belowThreshold (.fin (f32Magnitude 119 0x23D70A)) cfg1.cfgOffThresh = true ∧ cfg1.period ≠ 0 ∧
    (after (exec (.setB 0 0x3F7EB852) cfg1) State.rs).isSome = true ∧
    (after (exec (.setB 0 0x3BA3D70A) cfg1) State.rs).isSome = true := by decide

/-- OnlyBeginConfigures: another instruction, and `BEGIN` while RUNNING. -/
theorem witness_configures :
    (after (exec .tick cfg1) State.rs).isSome = true ∧ (∀ pl mto on off, Instr.tick ≠ .beginCmd pl mto on off) ∧
    (after (exec (.beginCmd 1 1 0 0) cfg1) State.rs).isSome = true ∧ cfg1.rs = .running := by
  exact ⟨by decide, (by intro pl mto on off h; cases h), by decide, rfl⟩

/-- OnlyTheZeroCrossHandlerMeasures, OnlyTheZeroCrossHandlerTakesTheSnapshot: the handler with an enabled and a disabled
channel, and another step. -/
theorem witness_handler_runs :
    after (exec .dispatchCapt (captured 100 103 8334 8354)) (fun t => (t.chA.fallBuf, t.chB.fallBuf)) = some (8354, 0) ∧
    (captured 100 103 8334 8354).chA.en = true ∧ (captured 100 103 8334 8354).chB.en = false ∧
    (after (exec .dispatchA (armed 8436)) State.rs).isSome = true ∧ Instr.dispatchA ≠ .dispatchCapt := by decide

/-- OnlyTheFacadeWritesChannelState: a step that names the other channel. -/
theorem witness_other_channel :
    (after (exec (.setB 1 0x3F000000) cfg1) State.rs).isSome = true ∧
    (∀ ch value, Instr.setB 1 0x3F000000 = .setB ch value → ¬ Names ch .A) ∧
    (∀ ch, Instr.setB 1 0x3F000000 = .dis ch → ¬ Names ch .A) := by
  refine ⟨by decide, fun ch value h => ?_, fun ch h => by cases h⟩
  cases h
  exact (by decide : ¬ chanOf 1 = some .A)

/-- SourceFlagsAndEnablesTable: each flag and each enable set by a step, and cleared by a step. -/
theorem witness_flags :
    after (exec .zc cfg1) (fun t => t.ifl.capt) = some true ∧
    after (exec .dispatchCapt (captured 0 0 1 2)) (fun t => t.ifl.capt) = some false ∧
    after (exec (.beginCmd 0 0 0 0) State.reset) (fun t => t.ie.capt) = some true ∧
    after (exec .endCmd cfg1) (fun t => t.ie.capt) = some false ∧
    after (exec .tick { cfg1 with tcnt := 65535 }) (fun t => (t.ifl.cmpA, t.ifl.cmpB)) = some (true, true) ∧
    after (exec .dispatchA (armed 8436)) (fun t => t.ifl.cmpA) = some false ∧
    after (exec .dispatchCapt (captured 0 0 1 2)) (fun t => t.ie.cmpA) = some true ∧
    after (exec (.dis 0) (armed 8436)) (fun t => (t.ifl.cmpA, t.ie.cmpA)) = some (false, false) := by decide

/-- TickFollowsItsRule, ZcFollowsItsRule, TicksCountModulo, RunToReachesItsCount (its two ends). -/
theorem witness_running_or_not : cfg1.rs = .running ∧ State.reset.rs ≠ .running ∧ (65535 : Nat) ≤ 65535 ∧ (0 : Nat) ≤ 65535 := by decide

/-- DispatchEnabledExactlyWhen: a dispatch that is one, and one that is none, under each order (H8, H9). -/
theorem witness_dispatch_enabled :
    let s := { armed 0 with ifl := { capt := true, cmpA := true, cmpB := false } }
    let f := { s with params := { Params.default with irqOrder := .fixed } }
    s.rs = .running ∧ s.ifl.get (.cmp .A) = true ∧ s.ie.get (.cmp .A) = true ∧ s.params.irqOrder ≠ .fixed ∧
    f.params.irqOrder = .fixed ∧ f.ifl.get .capt = true ∧ f.ie.get .capt = true ∧ dispatchEnabled f .capt = true ∧
    dispatchEnabled f (.cmp .A) = false := by decide

/-- ZeroCrossDispatchFollowsItsRule: the four cases, at the ends of their ranges. -/
theorem witness_zero_cross_cases :
    (dispatchEnabled (captured 100 103 4 9) .capt = true ∧ (captured 100 103 4 9).chB.en = false ∧
      (captured 100 103 4 9).chA.en = true ∧ ((103 : Tick) - 100).toNat < (4#16).toNat) ∧
    (dispatchEnabled (captured 100 104 4 5) .capt = true ∧ (4#16).toNat ≤ ((104 : Tick) - 100).toNat ∧
      ((104 : Tick) - 100).toNat < (5#16).toNat) ∧
    (dispatchEnabled (captured 100 105 4 5) .capt = true ∧ (4#16).toNat ≤ ((105 : Tick) - 100).toNat ∧
      (5#16).toNat ≤ ((105 : Tick) - 100).toNat) := by decide

/-- CompareDispatchFollowsItsRule: the four cases, the first two at the ends of their ranges (H4 to H7). -/
theorem witness_compare_cases :
    (dispatchEnabled (armed 8453) (.cmp .A) = true ∧ (armed 8453).chA.ph = .armedForRise ∧
      ((8453 : Tick) - 100).toNat < (armed 8453).chA.fallBuf.toNat) ∧
    (dispatchEnabled (armed 8454) (.cmp .A) = true ∧ (armed 8454).chA.fallBuf.toNat ≤ ((8454 : Tick) - 100).toNat) ∧
    (dispatchEnabled waiting (.cmp .A) = true ∧ waiting.chA.ph = .waitingForFall) ∧
    (dispatchEnabled { waiting with chA := Chan.reset } (.cmp .A) = true ∧
      ({ waiting with chA := Chan.reset } : State).chA.ph = .quiescent) := by decide

/-- PhaseChangesOnlyAsTheTableGives: a step of each clause. -/
theorem witness_phase_clauses :
    after (exec .dispatchCapt (captured 0 0 1 2)) (fun t => t.chA.ph) = some .armedForRise ∧
    after (exec .dispatchA (armed 8436)) (fun t => t.chA.ph) = some .waitingForFall ∧
    after (exec .endCmd (armed 8436)) (fun t => t.chA.ph) = some .quiescent ∧
    after (exec (.dis 0) (armed 8436)) (fun t => t.chA.ph) = some .quiescent ∧
    after (exec (.setB 0 0x3F7EB852) (armed 8436)) (fun t => t.chA.ph) = some .quiescent ∧ chanOf 0 = some .A := by
  decide

/-- CompareBeforeCaptureEndsAsCaptureAlone: the state of H9. -/
theorem witness_both_pending :
    let s := { armed 8436 with ifl := { capt := true, cmpA := true, cmpB := false } }
    s.params.irqOrder = .free ∧ (s.chan .A).en = true ∧ dispatchEnabled s .capt = true ∧
    dispatchEnabled s (.cmp .A) = true := by decide

/-- PeriodIsTheIntervalModulo: an interval below the modulus, and one that wraps (PT2). -/
theorem witness_interval :
    ({ cfg1 with tcnt := 9334, lastCapture := 1000 } : State).tcnt = (1000 : Tick) + BitVec.ofNat 16 8334 ∧
    ({ cfg1 with tcnt := 500, lastCapture := 65000 } : State).tcnt = (65000 : Tick) + BitVec.ofNat 16 1036 ∧
    cfg1.rs = .running ∧ cfg1.ie.capt = true := by decide

/-- EveryStepKeepsTheInvariants, EveryStepKeepsLatchAndTarget: a running state and a step. -/
theorem witness_step_from_inv :
    ({ cfg1 with inputs := [.evt 0x02] } : State).Inv ∧
    (∀ c, ({ cfg1 with inputs := [.evt 0x02] } : State).LatchAgrees c ∧
      ({ cfg1 with inputs := [.evt 0x02] } : State).FallTarget c) ∧
    (after (step { cfg1 with inputs := [.evt 0x02] }) State.rs).isSome = true := by
  obtain ⟨a, b, d, e, f, g, h⟩ := witness_inv.2
  refine ⟨⟨a, fun c => ⟨(b c).1, (b c).2, (b c).3, (b c).4⟩, fun h => absurd rfl h, e, f, g, h⟩, fun c => ?_, by decide⟩
  cases c <;> exact ⟨⟨by decide, by decide⟩, by exact fun h => absurd h (by decide)⟩

theorem reachable_steps {k : Nat} {s t : State} (h : Reachable s) (e : steps k s = some t) : Reachable t := by
  induction k generalizing s with
  | zero => cases e; exact h
  | succ n ih =>
    simp only [steps] at e
    split at e
    · rename_i u hu; exact ih (h.step hu) e
    · cases e
    · cases e

/-- `BEGIN 2, 0, 2.0, -1.0`; `SETB A, 1.0`; `ZC`; `DISPATCH CAPT`; two ticks. -/
def firstPulse : State :=
  { State.reset with inputs := [.cmd 0x010000000002000040000000BF800000, .cmd 0x10000000000000003F80000000000000, .evt 0x02,
                                .evt 0x03, .evt 0x01, .evt 0x01] }

theorem reachable_firstPulse : Reachable firstPulse :=
  ((((((Reachable.powerOn Params.default (by decide)).arrive _).arrive _).arrive _).arrive _).arrive _).arrive _

/-- ReachableStatesMeetTheSpecInvariants, ReachableFallHandlerFindsTheLatchLow: a reachable state with channel A waiting,
its fall matched and its dispatch enabled. -/
theorem witness_reachable :
    ∃ s, Reachable s ∧ (s.chan .A).ph = .waitingForFall ∧ dispatchEnabled s (.cmp .A) = true := by
  have h : (steps 6 firstPulse).map (fun t => (t.chA.ph, dispatchEnabled t (.cmp .A))) = some (.waitingForFall, true) := by
    decide
  obtain ⟨s, hs, e⟩ := Option.map_eq_some_iff.1 h
  exact ⟨s, reachable_steps reachable_firstPulse hs, by simpa using congrArg Prod.fst e, by simpa using congrArg Prod.snd e⟩

/-- RiseComesOnItsExactTick: armed at once, a tick before the rise, with a `GETB` between. -/
theorem witness_rise :
    ∃ s t, runInstr .dispatchCapt (captured 0 0 1 3) = .next s ∧ ((captured 0 0 1 3).chan .A).en = true ∧
      ((captured 0 0 1 3).tcnt - (captured 0 0 1 3).icr).toNat < ((captured 0 0 1 3).chan .A).rise.toNat ∧
      QuietRun .A s [.tick, .getB 0] t :=
  ⟨_, _, rfl, by decide, by decide, .cons trivial rfl (.cons trivial rfl (.nil _))⟩

/-- OnTimePulseFallsOnItsExactTick: rise at 1, handler there, fall at 3. -/
theorem witness_pulse :
    ∃ s1 s2 s3 s4, runInstr .dispatchCapt (captured 0 0 1 3) = .next s1 ∧ QuietRun .A s1 [.tick] s2 ∧
      runInstr (Instr.dispatch (.cmp .A)) s2 = .next s3 ∧ QuietRun .A s3 [.tick, .tick] s4 ∧
      ((captured 0 0 1 3).chan .A).en = true ∧
      ((captured 0 0 1 3).tcnt - (captured 0 0 1 3).icr).toNat < ((captured 0 0 1 3).chan .A).rise.toNat ∧
      ((captured 0 0 1 3).chan .A).rise.toNat ≤
        ((captured 0 0 1 3).tcnt - (captured 0 0 1 3).icr).toNat + tickCount [.tick] ∧
      ((captured 0 0 1 3).tcnt - (captured 0 0 1 3).icr).toNat + tickCount [.tick] <
        ((captured 0 0 1 3).chan .A).fall.toNat :=
  ⟨_, _, _, _, rfl, .cons trivial rfl (.nil _), rfl, .cons trivial rfl (.cons trivial rfl (.nil _)), by decide, by decide,
    by decide, by decide⟩

/-- DisabledChannelStaysUntouched: `DIS A`, then a zero-cross and its handler. -/
theorem witness_disabled :
    ∃ t u, Names 0 .A ∧ (armed 8436).rs ≠ .unconfigured ∧ runInstr (.dis 0) (armed 8436) = .next t ∧
      (∀ i ∈ [Instr.zc, .dispatchCapt], ∀ ch' value, i = .setB ch' value → ¬ Names ch' .A) ∧
      runSteps [.zc, .dispatchCapt] t = .next u :=
  ⟨_, _, by exact (by decide : chanOf 0 = some .A), by decide, rfl,
    by intro i hi ch' value h; subst h; simp at hi, rfl⟩

/-- ChannelsDoNotInfluenceEachOther: two states that differ in channel A. -/
theorem witness_two_states :
    SameButChannel .A cfg1 { cfg1 with chA := channel .quiescent .none true } ∧
    (after (exec .zc cfg1) State.rs).isSome = true ∧
    (after (exec .zc { cfg1 with chA := channel .quiescent .none true }) State.rs).isSome = true :=
  ⟨⟨channel .quiescent .none true, false, false, none, rfl⟩, by decide, by decide⟩

/-- ExactRiseIsTheRoundedProduct, MapSetBounds, Binary32RiseFollowsItsSteps: a brightness of each kind. -/
theorem witness_brightness_kinds :
    val f32PosInf = some .posInf ∧ val f32NegInf = some .negInf ∧ val 0x3F800000 = some (.fin (f32Magnitude 127 0)) ∧
    val 0x00000000 = some (.fin (f32Magnitude 0 0)) ∧ val 0x3F000000 = some (.fin (f32Magnitude 126 0)) ∧
    fracOne.le (f32Magnitude 127 0) = true ∧ (f32Magnitude 0 0).le (Frac.ofInt 0) = true ∧
    (Frac.ofInt 0).lt (f32Magnitude 126 0) = true ∧ (f32Magnitude 126 0).lt fracOne = true := by decide

/-- FallDelayCases: kept (MAP1), stretched (MAP3), cut (MAP4), and the floor above the period (MAP11). -/
theorem witness_fall_cases :
    (mapSet .exact (.fin (f32Magnitude 126 0)) 16667 20 2000 = (8334, 8354)) ∧
    (mapSet .exact (.fin (f32Magnitude 126 0x666666)) 16667 20 2000 = (1667, 2000)) ∧
    (mapSet .exact (.fin (f32Magnitude 0 0)) 16667 20 2000 = (16667, 16667)) ∧
    (mapSet .exact (.fin (f32Magnitude 126 0)) 1036 20 2000 = (518, 1036)) := by decide

/-- Binary32RiseFollowsItsSteps: a product that is finite, one that overflows up and one that overflows down. -/
theorem witness_products :
    (∃ y, val (rne32 ((Frac.ofInt 16667).mul (f32Magnitude 126 0))) = some (.fin y)) ∧
    val 0xFF7FFFFF = some (.fin (f32Magnitude 254 0x7FFFFF).neg) ∧
    val (rne32 ((Frac.ofInt 65535).mul (fracOne.sub (f32Magnitude 254 0x7FFFFF).neg))) = some .posInf ∧
    val 0x7F7FFFFF = some (.fin (f32Magnitude 254 0x7FFFFF)) ∧
    val (rne32 ((Frac.ofInt 65535).mul (fracOne.sub (f32Magnitude 254 0x7FFFFF)))) = some .negInf := by
  exact ⟨⟨f32Magnitude 140 0x23600, by decide⟩, by decide, by decide, by decide, by decide⟩

/-- ReadbackFollowsItsFormulas, MapGetCorners. -/
theorem witness_period_nonzero : (1 : Tick) ≠ 0 ∧ (65535 : Tick) ≠ 0 := by decide

/-- BrightnessRoundTrip: 0.5 mapped, then a tick; and 0.995 forced. -/
theorem witness_round_trip_brightness :
    (∃ t u, runInstr (.setB 0 0x3F000000) cfg1 = .next t ∧ runSteps [.tick] t = .next u ∧ u.period = cfg1.period) ∧
    chanOf 0 = some .A ∧ cfg1.rs ≠ .unconfigured ∧ val 0x3F000000 = some (.fin (f32Magnitude 126 0)) ∧
    cfg1.params.numerics = .exact ∧ cfg1.period ≠ 0 ∧ 0 ≤ (f32Magnitude 126 0).toRat ∧ (f32Magnitude 126 0).toRat ≤ 1 ∧
    aboveThreshold (.fin (f32Magnitude 126 0)) cfg1.cfgOnThresh = false ∧
    belowThreshold (.fin (f32Magnitude 126 0)) cfg1.cfgOffThresh = false ∧
    (∀ i ∈ [Instr.tick], ∀ ch' value', i = .setB ch' value' → ¬ Names ch' .A) ∧
    (∃ t, runInstr (.setB 0 0x3F7EB852) cfg1 = .next t) ∧ val 0x3F7EB852 = some (.fin (f32Magnitude 126 0x7EB852)) ∧
    aboveThreshold (.fin (f32Magnitude 126 0x7EB852)) cfg1.cfgOnThresh = true := by
  refine ⟨⟨_, _, rfl, rfl, by decide⟩, by decide, by decide, by decide, rfl, by decide, ?_, ?_, by decide, by decide, ?_,
    ⟨_, rfl⟩, by decide, by decide⟩
  · exact (Frac.num_nonneg_iff (by decide)).1 (by decide)
  · rw [← toRat_fracOne]; exact (Frac.le_iff (by decide) (by decide)).1 (by decide)
  · intro i hi ch' value' h
    subst h
    simp at hi

/-- RoundingIsToNearestEven: the tie between `2^24` and `2^24 + 2` goes to `2^24`, whose fraction is even. -/
theorem witness_tie :
    0 < (Frac.ofInt 16777217).den ∧ rne32 (Frac.ofInt 16777217) = 0x4B800000 ∧ F32Is 0x4B800000 16777216 ∧
    F32Is 0x4B800001 16777218 := by
  refine ⟨by decide, by decide, ⟨Frac.ofInt 16777216, by decide, by simp⟩, ⟨Frac.ofInt 16777218, by decide, by simp⟩⟩

/-- RoundingOverflowsToInfinity: the smallest magnitude that overflows, and a larger denominator just below it. -/
theorem witness_overflow :
    0 < (Frac.ofInt (2 ^ 128 - 2 ^ 103)).den ∧ rne32 (Frac.ofInt (2 ^ 128 - 2 ^ 103)) = f32PosInf ∧
    rne32 (Frac.ofInt (-(2 ^ 128 - 2 ^ 103))) = f32NegInf ∧
    rne32 (Frac.mk (2 ^ 129 - 2 ^ 104 - 1) 2) = 0x7F7FFFFF ∧ rne32 (Frac.ofInt 0) = 0 := by decide

/-- DispatchAllDrainsThePendingSources: a line that is two dispatches, the capture first. -/
theorem witness_dispatch_all :
    expandLine .dispatchAll { armed 0 with ifl := { capt := true, cmpA := true, cmpB := false },
                                           chA := { channel .armedForRise .driveHigh true with en := false } } =
      some [.dispatchCapt, .dispatchA] := by decide

end Sys2Proof.Tests
end

section
/-! PROOF. Rounding to binary32 (00_scope.md R9): a finite result is a nearest value, and the magnitudes that overflow. -/

namespace Sys2Proof.Machine

/-! ### Nearest integers

The rounding works in units `2^(k - 149)` of the binade of the rational; there it is the rounding to an integer. -/

/-- Every other integer than one within a half of `x` is at least a half away. -/
theorem half_le_abs_sub_of_ne {x : ℚ} {n j : ℤ} (hn : |n - x| ≤ 1 / 2) (hj : j ≠ n) : 1 / 2 ≤ |j - x| := by
  have one : (1 : ℚ) ≤ |(j : ℚ) - n| := by exact_mod_cast Int.one_le_abs (sub_ne_zero.2 hj)
  have tri := abs_sub_le (j : ℚ) x n
  rw [abs_sub_comm x n] at tri
  linarith

/-- An integer within a half of `x` is as near as any `y` that is an integer or lies beyond an integer below `x`; as near
is only another integer, on a tie. -/
theorem abs_sub_le_of_int_or_beyond {x y : ℚ} {n : ℤ} (hn : |n - x| ≤ 1 / 2)
    (hy : (∃ j : ℤ, y = j) ∨ ∃ j : ℤ, y < j ∧ j ≤ x) :
    |n - x| ≤ |y - x| ∧ (|n - x| = |y - x| → y ≠ n → |n - x| = 1 / 2) := by
  have nearest (j : ℤ) : |n - x| ≤ |j - x| := by
    rcases eq_or_ne j n with rfl | hj
    · rfl
    · exact hn.trans (half_le_abs_sub_of_ne hn hj)
  rcases hy with ⟨j, rfl⟩ | ⟨j, hyj, hjx⟩
  · refine ⟨nearest j, fun he hne => le_antisymm hn ?_⟩
    rw [he]
    exact half_le_abs_sub_of_ne hn (by exact_mod_cast hne)
  · have far : |n - x| < |y - x| := by
      have hj := nearest j
      rw [abs_of_nonpos (by linarith : (j : ℚ) - x ≤ 0)] at hj
      rw [abs_of_neg (by linarith : y - x < 0)]
      linarith
    exact ⟨far.le, fun he => absurd he far.ne⟩

/-- An integer up to an even bound, nearest to `x` and even on a tie, is the bound exactly when `x` is at least the bound less
a half: the tie there goes to the bound. -/
theorem eq_even_bound_iff {x : ℚ} {n bound : Nat} (hn : n ≤ bound) (heven : bound % 2 = 0) (near : |n - x| ≤ 1 / 2)
    (tie : |n - x| = 1 / 2 → n % 2 = 0) : n = bound ↔ bound - 1 / 2 ≤ x := by
  obtain ⟨lo, hi⟩ := abs_le.1 near
  constructor
  · rintro rfl
    linarith
  · intro hx
    by_contra hne
    have hle : bound ≤ n + 1 := by
      have : (bound : ℚ) ≤ (n + 1 : Nat) := by push_cast; linarith
      exact_mod_cast this
    obtain rfl : bound = n + 1 := by omega
    push_cast at hx
    have := tie (by rw [abs_of_nonpos (by linarith)]; linarith)
    omega

/-! ### The finite values -/

/-- The rational whose encoding without its sign is `m`. -/
def magnitudeValue (m : Nat) : ℚ := (f32Magnitude (m / 2 ^ 23) (m % 2 ^ 23)).toRat

theorem f32Is_ofNat {m : Nat} (hm : m < 0x7F800000) : F32Is (BitVec.ofNat 32 m) (magnitudeValue m) :=
  ⟨_, (val_ofNat hm).1, rfl⟩

theorem f32Is_ofNat_neg {m : Nat} (hm : m < 0x7F800000) : F32Is (BitVec.ofNat 32 (2 ^ 31 + m)) (-magnitudeValue m) :=
  ⟨_, (val_ofNat hm).2, Frac.toRat_neg _⟩

@[simp] theorem magnitudeValue_zero : magnitudeValue 0 = 0 := by simp [magnitudeValue, toRat_f32Magnitude]

/-- What a finite encoding stands for, when its magnitude bits are known not to pass those of an infinity. -/
theorem F32Is.of_ofNat {m : Nat} {q : ℚ} (hm : m ≤ 0x7F800000) (h : F32Is (BitVec.ofNat 32 m) q) :
    m < 0x7F800000 ∧ q = magnitudeValue m := by
  rcases hm.eq_or_lt with rfl | hm
  · obtain ⟨x, hx, -⟩ := h
    cases val_posInf.symm.trans hx
  · exact ⟨hm, h.unique (f32Is_ofNat hm)⟩

theorem F32Is.of_ofNat_neg {m : Nat} {q : ℚ} (hm : m ≤ 0x7F800000) (h : F32Is (BitVec.ofNat 32 (2 ^ 31 + m)) q) :
    m < 0x7F800000 ∧ q = -magnitudeValue m := by
  rcases hm.eq_or_lt with rfl | hm
  · obtain ⟨x, hx, -⟩ := h
    cases val_negInf.symm.trans hx
  · exact ⟨hm, h.unique (f32Is_ofNat_neg hm)⟩

/-- Seen from binade `k`, a value of either sign is a whole number of units, or lies below the binade. -/
theorem F32Is.int_units_or_below {b : F32} {w z : ℚ} (hw : F32Is b w) (hz : |z| = |w|) (k : Nat) :
    (∃ j : ℤ, z = j * 2 ^ ((k : Int) - 149)) ∨ 0 < k ∧ |z| < 2 ^ 23 * 2 ^ ((k : Int) - 149) := by
  have two : (2 : ℚ) ≠ 0 := by norm_num
  obtain ⟨k', n, hn, -, hw'⟩ := hw.shape
  rw [← hz] at hw'
  rcases Nat.lt_or_ge k' k with hlt | hge
  · right
    refine ⟨by omega, ?_⟩
    have hn' : (n : ℚ) < 2 ^ 24 := by exact_mod_cast hn
    calc |z| = n * 2 ^ ((k' : Int) - 149) := hw'
      _ < 2 ^ 24 * 2 ^ ((k' : Int) - 149) := mul_lt_mul_of_pos_right hn' (by positivity)
      _ = 2 ^ 23 * 2 ^ ((k' : Int) + 1 - 149) := by
        rw [show (k' : Int) + 1 - 149 = (k' - 149) + 1 by ring, zpow_add₀ two]; ring
      _ ≤ 2 ^ 23 * 2 ^ ((k : Int) - 149) :=
        mul_le_mul_of_nonneg_left (zpow_le_zpow_right₀ (by norm_num) (by omega)) (by positivity)
  · left
    obtain ⟨d, rfl⟩ := Nat.exists_eq_add_of_le hge
    have units : (n : ℚ) * 2 ^ (((k + d : Nat) : Int) - 149) = (n * 2 ^ d : ℤ) * 2 ^ ((k : Int) - 149) := by
      rw [show ((k + d : Nat) : Int) - 149 = d + (k - 149) by push_cast; ring, zpow_add₀ two, zpow_natCast]
      push_cast
      ring
    rw [units] at hw'
    rcases eq_or_eq_neg_of_abs_eq hw' with h | h
    · exact ⟨n * 2 ^ d, h⟩
    · exact ⟨-(n * 2 ^ d), by rw [h]; push_cast; ring⟩

/-! ### The rounding of a positive rational -/

theorem rneMagnitude_le (a : Frac) : rneMagnitude a ≤ 0x7F800000 := Nat.min_le_right _ _

/-- The magnitude of a finite result is a nearest one, with an even encoding on a tie. The value compared with is given by
its absolute value, so that a negative rational, whose result is reflected, can cite this. -/
theorem rneMagnitude_nearest {a : Frac} (ha : 0 < a.den) (hp : 0 < a.toRat) (hm : rneMagnitude a < 0x7F800000) {b : F32}
    {w z : ℚ} (hw : F32Is b w) (hz : |z| = |w|) :
    |magnitudeValue (rneMagnitude a) - a.toRat| ≤ |z - a.toRat| ∧
    (|magnitudeValue (rneMagnitude a) - a.toRat| = |z - a.toRat| → z ≠ magnitudeValue (rneMagnitude a) →
      rneMagnitude a % 2 = 0) := by
  obtain ⟨k, n, hbits, hn, hk, near, tie, low, -⟩ := rneMagnitude_units ha hp
  have bits : rneMagnitude a = k * 2 ^ 23 + n := by omega
  rw [bits, magnitudeValue, toRat_magnitude_of_units hn hk]
  have below := hw.int_units_or_below hz k
  rw [show (k : Int) - 126 = 23 + (k - 149) by ring, zpow_add₀ two_ne_zero] at low
  set u : ℚ := 2 ^ ((k : Int) - 149)
  have u0 : 0 < u := by positivity
  have scale (y : ℚ) : |y * u - a.toRat| = u * |y - a.toRat / u| := by
    rw [← abs_of_pos u0, ← abs_mul, abs_of_pos u0]
    congr 1
    field_simp
  obtain ⟨y, rfl⟩ : ∃ y, z = y * u := ⟨z / u, by field_simp⟩
  have place : (∃ j : ℤ, y = j) ∨ ∃ j : ℤ, y < j ∧ j ≤ a.toRat / u := by
    rcases below with ⟨j, hj⟩ | ⟨hk0, hlt⟩
    · exact .inl ⟨j, mul_right_cancel₀ u0.ne' hj⟩
    · refine .inr ⟨2 ^ 23, ?_, ?_⟩
      · push_cast
        exact lt_of_mul_lt_mul_right ((le_abs_self _).trans_lt hlt) u0.le
      · push_cast
        rw [le_div_iff₀ u0]
        exact low.resolve_left (by omega)
  obtain ⟨le, eq⟩ := abs_sub_le_of_int_or_beyond (n := n) near place
  rw [Int.cast_natCast] at le eq
  simp only [scale, mul_le_mul_iff_right₀ u0, mul_right_inj' u0.ne']
  refine ⟨le, fun he hne => ?_⟩
  have := tie (eq he fun h => hne (by rw [h]))
  omega

/-- The overflow point: half a unit above the largest finite value. -/
theorem rneMagnitude_eq_infinity_iff {a : Frac} (ha : 0 < a.den) (hp : 0 < a.toRat) :
    rneMagnitude a = 0x7F800000 ↔ (2 ^ 128 - 2 ^ 103 : ℚ) ≤ a.toRat := by
  obtain ⟨k, n, hbits, hn, hk, near, tie, low, up⟩ := rneMagnitude_units ha hp
  rcases lt_trichotomy k 253 with h | rfl | h
  · -- below the last binade: no overflow, and the rational is too small
    have small : a.toRat < 2 ^ 127 := by
      refine up.trans_le ?_
      rw [← zpow_natCast]
      exact zpow_le_zpow_right₀ (by norm_num) (by omega)
    exact iff_of_false (by omega) (not_le.2 (small.trans (by norm_num)))
  · -- the last binade, of unit `2^104`: overflow is the carry out of it
    have unit : (2 : ℚ) ^ (((253 : Nat) : Int) - 149) = 2 ^ 104 := by norm_num
    rw [unit] at near tie
    calc rneMagnitude a = 0x7F800000 ↔ n = 2 ^ 24 := by omega
      _ ↔ ((2 ^ 24 : Nat) : ℚ) - 1 / 2 ≤ a.toRat / 2 ^ 104 := eq_even_bound_iff hn (by norm_num) near tie
      _ ↔ (2 ^ 128 - 2 ^ 103 : ℚ) ≤ a.toRat := by rw [le_div_iff₀ (by norm_num)]; norm_num
  · -- above it: overflow, and the rational is at least `2^128`
    have large : (2 : ℚ) ^ 128 ≤ a.toRat := by
      refine le_trans ?_ (low.resolve_left (by omega))
      rw [← zpow_natCast]
      exact zpow_le_zpow_right₀ (by norm_num) (by omega)
    exact iff_of_true (by omega) (le_trans (by norm_num) large)

/-! ### The rounding of any rational -/

theorem Frac.toRat_abs_of_neg {a : Frac} (h : a.toRat < 0) : a.abs.toRat = -a.toRat := by
  rw [Frac.toRat_abs, abs_of_neg h]

/-- A rational and the result of its rounding, by range: from the overflow point on an infinity of its sign, below a
finite value. -/
theorem rne32_range {a : Frac} (ha : 0 < a.den) :
    ((2 ^ 128 - 2 ^ 103 : ℚ) ≤ a.toRat ∧ val (rne32 a) = some .posInf) ∨
    (a.toRat ≤ -(2 ^ 128 - 2 ^ 103 : ℚ) ∧ val (rne32 a) = some .negInf) ∨
    (|a.toRat| < (2 ^ 128 - 2 ^ 103 : ℚ) ∧ ∃ q, F32Is (rne32 a) q) := by
  rcases lt_trichotomy a.toRat 0 with h | h | h
  · have reflect := Frac.toRat_abs_of_neg h
    have overflow := rneMagnitude_eq_infinity_iff (a := a.abs) ha (by linarith)
    rw [reflect] at overflow
    rw [rne32_of_neg ha h]
    rcases (rneMagnitude_le a.abs).eq_or_lt with hm | hm
    · exact .inr (.inl ⟨le_neg_of_le_neg (overflow.1 hm), by rw [hm]; exact val_negInf⟩)
    · rw [abs_of_neg h]
      exact .inr (.inr ⟨not_le.1 fun h => hm.ne (overflow.2 h), _, f32Is_ofNat_neg hm⟩)
  · rw [rne32_of_zero ha h, h]
    exact .inr (.inr ⟨by norm_num, _, f32Is_ofNat (m := 0) (by omega)⟩)
  · have overflow := rneMagnitude_eq_infinity_iff ha h
    rw [rne32_of_pos ha h]
    rcases (rneMagnitude_le a).eq_or_lt with hm | hm
    · exact .inl ⟨overflow.1 hm, by rw [hm]; exact val_posInf⟩
    · rw [abs_of_pos h]
      exact .inr (.inr ⟨not_le.1 fun h => hm.ne (overflow.2 h), _, f32Is_ofNat hm⟩)

/-- Settles O56. A positive rational is `rneMagnitude_nearest`; a negative one is its reflection. -/
theorem roundingIsToNearestEven : Obligations.RoundingIsToNearestEven := by
  intro a q ha hq b z hz
  rcases lt_trichotomy a.toRat 0 with h | h | h
  · rw [rne32_of_neg ha h] at hq ⊢
    obtain ⟨hm, rfl⟩ := F32Is.of_ofNat_neg (rneMagnitude_le _) hq
    have habs := Frac.toRat_abs_of_neg h
    have reflect (x : ℚ) : |-x - a.toRat| = |x - a.abs.toRat| := by
      rw [habs, ← abs_neg]; congr 1; ring
    obtain ⟨le, even⟩ := rneMagnitude_nearest (a := a.abs) ha (by linarith) hm hz (abs_neg z)
    rw [← reflect, ← reflect, neg_neg] at le even
    refine ⟨le, fun he hne => ?_⟩
    have := even he fun h => hne (neg_eq_iff_eq_neg.1 h)
    rw [BitVec.toNat_ofNat]
    omega
  · rw [rne32_of_zero ha h] at hq ⊢
    obtain ⟨-, rfl⟩ := F32Is.of_ofNat (m := 0) (by omega) hq
    rw [h]
    simp
  · rw [rne32_of_pos ha h] at hq ⊢
    obtain ⟨hm, rfl⟩ := F32Is.of_ofNat (rneMagnitude_le _) hq
    obtain ⟨le, even⟩ := rneMagnitude_nearest ha h hm hz rfl
    refine ⟨le, fun he hne => ?_⟩
    have := even he hne
    rw [BitVec.toNat_ofNat]
    omega

/-- Settles O57, by the ranges of `rne32_range`, which exclude each other as their results do. -/
theorem roundingOverflowsToInfinity : Obligations.RoundingOverflowsToInfinity := by
  intro a ha
  rcases rne32_range ha with ⟨h, hv⟩ | ⟨h, hv⟩ | ⟨h, q, x, hv, hx⟩
  · have : ¬ |a.toRat| < 2 ^ 128 - 2 ^ 103 := not_lt.2 (h.trans (le_abs_self _))
    exact ⟨iff_of_true hv h, iff_of_false (by simp [hv]) (by linarith), fun hlt => absurd hlt this, rne32_of_zero ha⟩
  · have : ¬ |a.toRat| < 2 ^ 128 - 2 ^ 103 := not_lt.2 ((le_neg_of_le_neg h).trans (neg_le_abs _))
    exact ⟨iff_of_false (by simp [hv]) (by linarith), iff_of_true hv h, fun hlt => absurd hlt this, rne32_of_zero ha⟩
  · obtain ⟨lo, hi⟩ := abs_lt.1 h
    exact ⟨iff_of_false (by simp [hv]) (not_le.2 hi), iff_of_false (by simp [hv]) (not_le.2 lo), fun _ => ⟨q, x, hv, hx⟩,
      rne32_of_zero ha⟩

end Sys2Proof.Machine
end

section
/-! PROOF. The timing map's delays lie in the period and are ordered (41_channel_timing_map.md R66 to R72). -/

namespace Sys2Proof.Machine

/-- The phase saturates (R66). -/
theorem phase_mem_Icc {x : ExtReal} (hx : ∀ q, x = .fin q → 0 < q.den) :
    0 < (phase x).den ∧ 0 ≤ (phase x).toRat ∧ (phase x).toRat ≤ 1 := by
  cases x with
  | negInf => simp [phase]
  | posInf => simp [phase]
  | fin q =>
    have hq := hx q rfl
    simp only [phase]
    split_ifs with hone hzero
    · simp
    · simp
    · rw [Frac.le_iff (by simp) hq, toRat_fracOne, not_le] at hone
      rw [Frac.le_iff hq (by simp), Frac.toRat_ofInt, Int.cast_zero, not_le] at hzero
      rw [Frac.toRat_sub (by simp) hq, toRat_fracOne]
      exact ⟨Frac.den_sub_pos (by simp) hq, by linarith, by linarith⟩

theorem riseExact_bounds {x : ExtReal} (hx : ∀ q, x = .fin q → 0 < q.den) (p : Tick) :
    0 ≤ riseExact x p ∧ riseExact x p ≤ p.toNat := by
  obtain ⟨hden, hlo, hhi⟩ := phase_mem_Icc hx
  have hp : (0 : ℚ) ≤ p.toNat := by positivity
  have value : ((Frac.ofInt p.toNat).mul (phase x)).toRat = p.toNat * (phase x).toRat := by simp
  have nonneg : 0 ≤ (p.toNat : ℚ) * (phase x).toRat := by positivity
  have le : (p.toNat : ℚ) * (phase x).toRat ≤ p.toNat := mul_le_of_le_one_right hp hhi
  rw [riseExact, Frac.round_of_nonneg (Frac.den_mul_pos (by simp) hden) (by rw [value]; exact nonneg), value]
  refine ⟨Int.floor_nonneg.2 (by linarith), Int.lt_add_one_iff.1 (Int.floor_lt.2 ?_)⟩
  push_cast
  linarith

/-- The result saturates to `[0, P]`, whatever was rounded (R72). -/
theorem rise32_bounds (x : ExtReal) (p : Tick) : 0 ≤ rise32 x p ∧ rise32 x p ≤ p.toNat := by
  unfold rise32 clamp
  split
  · omega
  · split
    · omega
    · omega
    · omega
    · split_ifs <;> omega

theorem riseDelay_bounds (num : Numerics) {x : ExtReal} (hx : ∀ q, x = .fin q → 0 < q.den) (p : Tick) :
    0 ≤ riseDelay num x p ∧ riseDelay num x p ≤ p.toNat := by
  cases num with
  | exact => exact riseExact_bounds hx p
  | binary32 => exact rise32_bounds x p

/-- The rise is at least 0, the fall at least the rise and at most the period: the clamp's upper bound, which wins, is no
less than the rise (R69, R70). -/
theorem mapSet_ordered (num : Numerics) {x : ExtReal} (hx : ∀ q, x = .fin q → 0 < q.den) (p pl mto : Tick) :
    0 ≤ (mapSet num x p pl mto).1 ∧ (mapSet num x p pl mto).1 ≤ (mapSet num x p pl mto).2 ∧
    (mapSet num x p pl mto).2 ≤ p.toNat := by
  have rise := riseDelay_bounds num hx p
  simp only [mapSet, clamp]
  omega

/-- A delay in the range of a count is held unchanged. -/
theorem toNat_tickOf {d : Int} (lo : 0 ≤ d) (hi : d < 65536) : ((tickOf d).toNat : Int) = d := by
  rw [tickOf, BitVec.toNat_ofInt]
  omega

/-- The delays that a mapped brightness stores are ordered (10_state.md R35). -/
theorem tickOf_mapSet_ordered (num : Numerics) {value : F32} {x : ExtReal} (hv : val value = some x) (p pl mto : Tick) :
    (tickOf (mapSet num x p pl mto).1).toNat ≤ (tickOf (mapSet num x p pl mto).2).toNat := by
  have ordered := mapSet_ordered num (x := x) (fun q hq => den_pos_of_val (hq ▸ hv)) p pl mto
  have hp := p.isLt
  have rise := toNat_tickOf (d := (mapSet num x p pl mto).1) (by omega) (by omega)
  have fall := toNat_tickOf (d := (mapSet num x p pl mto).2) (by omega) (by omega)
  omega

end Sys2Proof.Machine
end

section
/-! PROOF. The invariants of 10_state.md section 9: what they ask of one channel and of the shared part of the state, that
every step keeps them, and that every reachable state meets them. -/

namespace Sys2Proof.Machine

/-! ### The invariants, channel by channel -/

/-- The compare drive that goes with a phase (10_state.md R33). -/
def Phase.drive : Phase → Com
  | .quiescent => .none
  | .armedForRise => .driveHigh
  | .waitingForFall => .driveLow

/-- Is a compare awaited in the phase (10_state.md R33)? -/
def Phase.awaits : Phase → Bool
  | .quiescent => false
  | .armedForRise => true
  | .waitingForFall => true

@[simp] theorem Phase.drive_eq_none_iff (p : Phase) : p.drive = .none ↔ p = .quiescent := by
  cases p <;> simp [Phase.drive]

@[simp] theorem Phase.awaits_eq_false_iff (p : Phase) : p.awaits = false ↔ p = .quiescent := by
  cases p <;> simp [Phase.awaits]

/-- What `State.Inv` asks of one channel's record `x`, its enable `ie` and its flag `f`: the phase fixes the drive and the
enable (R33), only an enabled channel awaits a compare (R32), the delays are ordered (R35), and outside RUNNING the channel is
at rest (R34). -/
structure Chan.Inv (rs : RunState) (x : Chan) (ie f : Bool) : Prop where
  com : x.com = x.ph.drive
  ie : ie = x.ph.awaits
  enabled : x.ph.awaits = true → x.en = true
  delays : x.rise.toNat ≤ x.fall.toNat
  rest : rs ≠ .running → x.ph = .quiescent ∧ x.ocr = 0 ∧ x.ocl = false ∧ f = false

/-- What `State.Inv` asks outside the channels. -/
structure State.SharedInv (s : State) : Prop where
  stopped : s.rs ≠ .running → s.ie.capt = false ∧ s.ifl.capt = false ∧ s.tcnt = 0 ∧ s.icr = 0
  running : s.rs = .running → s.ie.capt = true
  faultReserved : s.fault &&& 0xE0#8 = 0#8
  zct : s.zct = s.lastCapture

theorem State.SharedInv.of_running {s : State} (running : s.rs = .running) (capt : s.ie.capt = true)
    (faultReserved : s.fault &&& 0xE0#8 = 0#8) (zct : s.zct = s.lastCapture) : s.SharedInv :=
  ⟨fun hr => absurd running hr, fun _ => capt, faultReserved, zct⟩

theorem Chan.Inv.of_inv {s : State} (h : s.Inv) (c : Ch) : (s.chan c).Inv s.rs (s.ie.cmp c) (s.ifl.cmp c) := by
  obtain ⟨com_iff, ie_iff, armed, waiting⟩ := h.phase c
  have hd := h.disabled c
  refine ⟨?_, ?_, fun ha => ?_, h.delays c, fun hr => ?_⟩
  · cases hp : (s.chan c).ph with
    | quiescent => exact com_iff.1 hp
    | armedForRise => exact armed hp
    | waitingForFall => exact waiting hp
  · cases hp : (s.chan c).ph <;> simpa [hp, Phase.awaits] using ie_iff
  · by_contra he
    obtain ⟨-, -, hp⟩ := hd (by simpa using he)
    simp [hp, Phase.awaits] at ha
  · obtain ⟨-, hifl, -, -, unit⟩ := h.stopped hr
    obtain ⟨hcom, hocr, hocl⟩ := unit c
    exact ⟨com_iff.2 hcom, hocr, hocl, by rw [hifl, SourceBits.cmp_none]⟩

theorem State.SharedInv.of_inv {s : State} (h : s.Inv) : s.SharedInv := by
  refine ⟨fun hr => ?_, h.running, h.faultReserved, h.zct⟩
  obtain ⟨hie, hifl, htcnt, hicr, -⟩ := h.stopped hr
  exact ⟨by rw [hie]; rfl, by rw [hifl]; rfl, htcnt, hicr⟩

theorem Chan.Inv.disabledIsQuiet {s : State} {c : Ch} (h : (s.chan c).Inv s.rs (s.ie.cmp c) (s.ifl.cmp c)) :
    s.DisabledIsQuiet c := by
  intro he
  have hp : (s.chan c).ph = .quiescent := by simpa [he] using h.enabled
  exact ⟨by rw [h.com, hp]; rfl, by rw [h.ie, hp]; rfl, hp⟩

theorem Chan.Inv.phaseAgrees {s : State} {c : Ch} (h : (s.chan c).Inv s.rs (s.ie.cmp c) (s.ifl.cmp c)) :
    s.PhaseAgrees c :=
  ⟨by rw [h.com, Phase.drive_eq_none_iff], by rw [h.ie, Phase.awaits_eq_false_iff],
    fun hp => by rw [h.com, hp]; rfl, fun hp => by rw [h.com, hp]; rfl⟩

/-- The invariants are those of the shared part and of each channel. -/
theorem inv_iff (s : State) :
    s.Inv ↔ s.SharedInv ∧ ∀ c, (s.chan c).Inv s.rs (s.ie.cmp c) (s.ifl.cmp c) := by
  constructor
  · exact fun h => ⟨.of_inv h, .of_inv h⟩
  · rintro ⟨hs, hc⟩
    refine ⟨fun c => (hc c).disabledIsQuiet, fun c => (hc c).phaseAgrees, fun hr => ?_, hs.running,
      fun c => (hc c).delays, hs.faultReserved, hs.zct⟩
    obtain ⟨hie, hifl, htcnt, hicr⟩ := hs.stopped hr
    refine ⟨SourceBits.ext_cmp hie fun c => ?_, SourceBits.ext_cmp hifl fun c => ?_, htcnt, hicr, fun c => ?_⟩ <;>
      obtain ⟨hp, hocr, hocl, hf⟩ := (hc c).rest hr
    · rw [(hc c).ie, hp, SourceBits.cmp_none]; rfl
    · rw [hf, SourceBits.cmp_none]
    · exact ⟨by rw [(hc c).com, hp]; rfl, hocr, hocl⟩

/-! ### Records that meet a channel's invariant -/

theorem Chan.Inv.of_quiescent {rs : RunState} {x : Chan} {f : Bool} (ph : x.ph = .quiescent) (com : x.com = .none)
    (delays : x.rise.toNat ≤ x.fall.toNat) (rest : rs ≠ .running → x.ocr = 0 ∧ x.ocl = false ∧ f = false) :
    x.Inv rs false f :=
  ⟨by rw [com, ph]; rfl, by rw [ph]; rfl, by rw [ph]; exact nofun, delays, fun hr => ⟨ph, rest hr⟩⟩

/-- In RUNNING the latch, the compare target and the flag are free. -/
theorem Chan.Inv.of_running {x : Chan} {ie f : Bool} (com : x.com = x.ph.drive) (hie : ie = x.ph.awaits)
    (enabled : x.ph.awaits = true → x.en = true) (delays : x.rise.toNat ≤ x.fall.toNat) : x.Inv .running ie f :=
  ⟨com, hie, enabled, delays, fun hr => absurd rfl hr⟩

/-- A channel that is disabled, whatever its static level (42_channel_control_facade.md R80, R81). -/
theorem Chan.Inv.disable {rs : RunState} {x : Chan} {ie f : Bool} (h : x.Inv rs ie f) (static : Bool) :
    { x with en := false, com := .none, ph := .quiescent, static := static }.Inv rs false false :=
  .of_quiescent rfl rfl h.delays fun hr => by
    obtain ⟨-, ocr, ocl, -⟩ := h.rest hr
    exact ⟨ocr, ocl, rfl⟩

/-- A channel at rest: the unit's reset, and no cycle under way (44_system_interface.md R101). -/
theorem Chan.Inv.resetQuiet {rs rs' : RunState} {x : Chan} {ie f : Bool} (h : x.Inv rs ie f) :
    { x.resetUnit with ph := .quiescent }.Inv rs' false false :=
  .of_quiescent rfl rfl h.delays fun _ => ⟨rfl, rfl, rfl⟩

/-- The zero-cross handler leaves a channel in agreement in each of its cases (43_pulse_scheduler.md R88, R90). -/
theorem zeroCrossChannel_inv {x : Chan} {ie f : Bool} (h : x.Inv .running ie f) (t n : Tick) :
    let r := zeroCrossChannel t n x ie f
    r.1.Inv .running r.2.1 r.2.2 := by
  simp only [zeroCrossChannel]
  split_ifs with en
  · exact .of_running rfl rfl nofun h.delays
  · exact .of_running rfl rfl (fun _ => en) h.delays
  · exact .of_running rfl rfl (fun _ => en) h.delays
  · exact .of_running h.com h.ie h.enabled h.delays


/-! ### Every step keeps the invariants -/

/-- The invariants read neither the period, the configuration and the parameters, nor the response port, the schedule and the
fields noted of an arrival; of `FAULT` they read the reserved bits. -/
theorem State.Inv.congr {s t : State} (h : s.Inv) (chan : ∀ c, t.chan c = s.chan c)
    (fault : t.fault &&& 0xE0#8 = s.fault &&& 0xE0#8 := by rfl) (rs : t.rs = s.rs := by rfl) (ie : t.ie = s.ie := by rfl)
    (ifl : t.ifl = s.ifl := by rfl) (tcnt : t.tcnt = s.tcnt := by rfl) (icr : t.icr = s.icr := by rfl)
    (zct : t.zct = s.zct := by rfl) (lastCapture : t.lastCapture = s.lastCapture := by rfl) : t.Inv := by
  obtain ⟨⟨stopped, running, reserved, hzct⟩, hc⟩ := (inv_iff s).1 h
  rw [inv_iff]
  simp only [chan, rs, ie, ifl]
  exact ⟨⟨by simpa only [rs, ie, ifl, tcnt, icr] using stopped, by simpa only [rs, ie] using running, fault.trans reserved,
    by rw [zct, lastCapture, hzct]⟩, hc⟩

theorem State.Inv.respondOk {s : State} (h : s.Inv) (d : BitVec 32) : (respondOk d s).Inv := h.congr (by simp)

/-- A fault sets one of the bits 4:0. -/
theorem State.Inv.raiseFault {s : State} (h : s.Inv) (k : FaultKind) : (raiseFault k s).Inv := by
  have mask : k.mask &&& 0xE0#8 = 0#8 := by cases k <;> rfl
  exact h.congr (by simp) (by rw [State.raiseFault_fault, BitVec.and_or_distrib_right, mask, BitVec.or_zero])

theorem State.Inv.noteInput {s : State} (h : s.Inv) (x : Input) : (noteInput x s).Inv := h.congr (by simp)

theorem State.Inv.withInputs {s : State} (h : s.Inv) (inputs : List Input) : ({ s with inputs := inputs } : State).Inv :=
  h.congr fun c => by cases c <;> rfl

/-- A step that touches only what belongs to a channel has only that channel to answer for. -/
theorem State.Inv.of_channel {s t : State} {x : Chan} {e f : Bool} (h : s.Inv) (c : Ch)
    (ht : t = { s.setChan c x with ie := s.ie.setCmp c e, ifl := s.ifl.setCmp c f }) (hx : x.Inv s.rs e f) : t.Inv := by
  have only : OnlyChannel c s t := ⟨x, e, f, ht⟩
  have own : t.chan c = x ∧ t.ie.cmp c = e ∧ t.ifl.cmp c = f := by subst ht; cases c <;> exact ⟨rfl, rfl, rfl⟩
  obtain ⟨rs, fault, -, -, -, -, -, lastCapture, zct, tcnt, icr, ie, ifl, -⟩ := only.shared
  obtain ⟨⟨stopped, running, reserved, hzct⟩, hc⟩ := (inv_iff s).1 h
  rw [inv_iff, rs]
  refine ⟨⟨by rwa [rs, ie, ifl, tcnt, icr], by rwa [rs, ie], by rwa [fault], by rwa [zct, lastCapture]⟩, fun d => ?_⟩
  by_cases hd : d = c
  · rw [hd]
    simpa only [own] using hx
  · simpa only [only.other hd] using hc d

theorem State.Inv.disable {s : State} (h : s.Inv) (c : Ch) : (disable c s).Inv :=
  h.of_channel c (disable_eq c s) ((Chan.Inv.of_inv h c).disable _)

theorem State.Inv.forceLevel {s : State} (h : s.Inv) (c : Ch) (level : Bool) : (forceLevel c level s).Inv :=
  h.of_channel c (forceLevel_eq c level s) ((Chan.Inv.of_inv h c).disable level)

theorem State.Inv.setMapped {s : State} (h : s.Inv) (c : Ch) {value : F32} {x : ExtReal} (hv : val value = some x) :
    (setMapped c x s).Inv := by
  obtain ⟨com, ie, -, -, rest⟩ := Chan.Inv.of_inv h c
  have channel : Chan.Inv s.rs ((Machine.setMapped c x s).chan c) (s.ie.cmp c) (s.ifl.cmp c) := by
    rw [Machine.setMapped, State.chan_setChan_self]
    exact ⟨com, ie, fun _ => rfl, tickOf_mapSet_ordered _ hv _ _ _, rest⟩
  exact h.of_channel c (by cases c <;> rfl) channel

/-- The handler of a compare source, phase by phase (43_pulse_scheduler.md R91 to R94). -/
theorem State.Inv.hCmp {s : State} (h : s.Inv) (running : s.rs = .running) (c : Ch) (n : Tick) : (hCmp c n s).Inv := by
  obtain ⟨com, -, enabled, delays, -⟩ := Chan.Inv.of_inv h c
  cases ph : (s.chan c).ph with
  | quiescent =>
    rw [ph] at com
    exact h.of_channel c (x := s.chan c) (e := false) (f := s.ifl.cmp c) ((hCmp_quiescent ph).trans (by cases c <;> rfl))
      (.of_quiescent ph com delays fun hr => absurd running hr)
  | armedForRise =>
    have en : (s.chan c).en = true := enabled (by rw [ph]; rfl)
    cases late : passed s.zct (s.chan c).fallBuf n with
    | false => exact h.of_channel c (hCmp_armed_early ph late) (running ▸ .of_running rfl rfl (fun _ => en) delays)
    | true => exact h.of_channel c (hCmp_armed_late ph late) (.of_quiescent rfl rfl delays fun hr => absurd running hr)
  | waitingForFall =>
    exact h.of_channel c (x := { s.chan c with com := .none, ph := .quiescent }) (f := s.ifl.cmp c)
      ((hCmp_waiting ph).trans (by cases c <;> rfl)) (.of_quiescent rfl rfl delays fun hr => absurd running hr)

/-- A flag is free in RUNNING. -/
theorem State.Inv.enterDispatchCmp {s : State} (h : s.Inv) (running : s.rs = .running) (c : Ch) :
    (enterDispatch (.cmp c) s).Inv := by
  obtain ⟨com, ie, enabled, delays, -⟩ := Chan.Inv.of_inv h c
  exact h.of_channel c (x := s.chan c) (e := s.ie.cmp c) (f := false) (by cases c <;> rfl)
    (running ▸ .of_running com ie enabled delays)

/-- The handler of the capture source writes `ZCT` and `LAST_CAPTURE` together (43_pulse_scheduler.md R90). -/
theorem State.Inv.zeroCross {s : State} (h : s.Inv) (running : s.rs = .running) :
    (hZc s.tcnt (enterDispatch .capt s)).Inv := by
  obtain ⟨⟨-, capt, reserved, -⟩, hc⟩ := (inv_iff s).1 h
  obtain ⟨rs, fault, -, -, -, -, -, lastCapture, zct, -, -, ie, -⟩ := zeroCross_shared s
  refine (inv_iff _).2 ⟨.of_running (rs.trans running) (ie.trans (capt running)) (by rwa [fault])
    (zct.trans lastCapture.symm), fun c => ?_⟩
  have hx := hc c
  rw [running] at hx
  rw [rs, running]
  simpa only [zeroCross_channel s c] using zeroCrossChannel_inv hx s.icr s.tcnt

/-- A tick moves the count, the latches and the flags, which are free in RUNNING (43_pulse_scheduler.md R85). -/
theorem State.Inv.countAndCompare {s : State} (h : s.Inv) (running : s.rs = .running) : (countAndCompare s).Inv := by
  obtain ⟨⟨-, capt, reserved, hzct⟩, hc⟩ := (inv_iff s).1 h
  obtain ⟨rs, fault, -, -, -, -, -, lastCapture, zct, -, -, ie, -⟩ := tick_shared s
  refine (inv_iff _).2 ⟨.of_running (rs.trans running) (by rw [ie]; exact capt running) (by rwa [fault])
    (by rwa [zct, lastCapture]), fun c => ?_⟩
  obtain ⟨com, hie, enabled, delays, -⟩ := hc c
  rw [rs, running, ie, (tick_channel s c).1]
  exact .of_running com hie enabled delays

theorem State.Inv.capture {s : State} (h : s.Inv) (running : s.rs = .running) :
    ({ s with icr := s.tcnt, ifl := { s.ifl with capt := true } } : State).Inv := by
  obtain ⟨⟨-, capt, reserved, zct⟩, hc⟩ := (inv_iff s).1 h
  refine (inv_iff _).2 ⟨.of_running running (capt running) reserved zct, fun c => ?_⟩
  cases c
  · exact hc .A
  · exact hc .B

/-- `BEGIN` starts the unit from its reset values; outside RUNNING no cycle is under way (44_system_interface.md R100). -/
theorem State.Inv.beginCmd {s : State} (h : s.Inv) (stopped : s.rs ≠ .running) (pl mto : Tick) (on off : F32) :
    ({ s with cfgPulseLength := pl, cfgMinTrigger := mto, cfgOnThresh := on, cfgOffThresh := off,
              tcnt := 0, icr := 0, chA := s.chA.resetUnit, chB := s.chB.resetUnit, ifl := SourceBits.none,
              ie := { capt := true, cmpA := false, cmpB := false }, rs := .running } : State).Inv := by
  obtain ⟨hs, hc⟩ := (inv_iff s).1 h
  have channel (c : Ch) : (s.chan c).resetUnit.Inv .running false false :=
    .of_quiescent ((hc c).rest stopped).1 rfl (hc c).delays fun hr => absurd rfl hr
  refine (inv_iff _).2 ⟨.of_running rfl rfl hs.faultReserved hs.zct, fun c => ?_⟩
  cases c
  · exact channel .A
  · exact channel .B

/-- `END` brings the unit and every channel to rest (44_system_interface.md R101). -/
theorem State.Inv.endCmd {s : State} (h : s.Inv) :
    ({ s with ie := SourceBits.none, tcnt := 0, icr := 0, chA := { s.chA.resetUnit with ph := .quiescent },
              chB := { s.chB.resetUnit with ph := .quiescent }, ifl := SourceBits.none,
              rs := if s.rs = .running then .stopped else s.rs } : State).Inv := by
  obtain ⟨hs, hc⟩ := (inv_iff s).1 h
  refine (inv_iff _).2 ⟨⟨fun _ => ⟨rfl, rfl, rfl, rfl⟩, fun hr => ?_, hs.faultReserved, hs.zct⟩, fun c => ?_⟩
  · simp only at hr
    split at hr <;> contradiction
  · cases c
    · exact (hc .A).resetQuiet
    · exact (hc .B).resetQuiet

theorem exec_keeps_inv {i : Instr} {s t : State} (h : s.Inv) (e : exec i s = .next t) : t.Inv := by
  cases exec_effect e with
  | fault k => exact h.raiseFault k
  | beginCmd pl mto on off stopped => exact (h.beginCmd stopped pl mto on off).respondOk 0
  | endCmd => exact h.endCmd.respondOk 0
  | forced _ _ c _ level => exact (h.forceLevel c level).respondOk 0
  | mapped _ _ c _ _ _ hv => exact (h.setMapped c hv).respondOk 0
  | getB => exact h.respondOk _
  | dis _ c => exact (h.disable c).respondOk 0
  | ignored => exact h
  | tick running => exact h.countAndCompare running
  | zc running => exact h.capture running
  | dispatchCapt enabled => exact h.zeroCross ((dispatchEnabled_iff ..).1 enabled).1
  | dispatchCmp c _ enabled =>
    have running := ((dispatchEnabled_iff ..).1 enabled).1
    exact (h.enterDispatchCmp running c).hCmp running c _

/-- Settles O40: the arrival leaves the schedule and is noted, then an illegal word raises its fault and an instruction has
one of its effects. -/
theorem everyStepKeepsTheInvariants : Obligations.EveryStepKeepsTheInvariants := by
  intro s t h e
  rcases step_cases e with ⟨-, rfl⟩ | ⟨w, rest, -, -, -, rfl⟩ | ⟨x, rest, i, -, -, hexec⟩
  · exact h
  · exact ((h.withInputs rest).noteInput _).raiseFault .illegal
  · exact exec_keeps_inv ((h.withInputs rest).noteInput x) hexec

/-! ### Every reachable state meets the invariants -/

theorem inv_powerOn (p : Params) : (State.powerOn p).Inv :=
  (inv_iff _).2 ⟨⟨fun _ => ⟨rfl, rfl, rfl, rfl⟩, nofun, BitVec.zero_and, rfl⟩, fun c => by
    cases c <;> exact .of_quiescent rfl rfl le_rfl fun _ => ⟨rfl, rfl, rfl⟩⟩

theorem Reachable.inv {s : State} (h : Reachable s) : s.Inv := by
  induction h with
  | powerOn p => exact inv_powerOn p
  | arrive x _ ih => exact ih.withInputs _
  | step _ e ih => exact everyStepKeepsTheInvariants _ _ ih e

/-- Settles O43, by `Reachable.inv`: the pins show the static levels because no drive is armed. -/
theorem reachableStatesMeetTheSpecInvariants : Obligations.ReachableStatesMeetTheSpecInvariants := by
  intro s hreach c
  have h := hreach.inv
  obtain ⟨com_iff, ie_iff, armed, waiting⟩ := h.phase c
  refine ⟨h.disabled c, com_iff, com_iff.symm.trans ie_iff, armed, waiting, fun hr => ?_, h.delays c⟩
  obtain ⟨ie, ifl, tcnt, -, unit⟩ := h.stopped hr
  have com := (unit c).1
  exact ⟨by rw [ie]; rfl, by rw [ifl]; rfl, tcnt, com, by rw [State.pin, if_neg (not_not.2 com)]⟩

end Sys2Proof.Machine
end

section
/-! PROOF. Who writes which part of the state (10_state.md section 2), and the count of ticks. -/

namespace Sys2Proof.Machine

/-! ### Who writes a channel's enable, delays, static level and snapshot -/

/-- The part of a channel's record that neither the unit nor the phase holds: `EN`, `RISE`, `FALL`, `STATIC` and `FALLBUF`. -/
def Chan.stored (x : Chan) : Bool × Tick × Tick × Bool × Tick := (x.en, x.rise, x.fall, x.static, x.fallBuf)

theorem Chan.stored_eq_iff (x y : Chan) :
    y.stored = x.stored ↔ y.en = x.en ∧ y.rise = x.rise ∧ y.fall = x.fall ∧ y.static = x.static ∧ y.fallBuf = x.fallBuf := by
  simp [Chan.stored]

/-- The compare handlers write the unit and the phase alone (43_pulse_scheduler.md R91 to R94). -/
theorem hCmp_stored (c d : Ch) (n : Tick) (s : State) : ((hCmp c n s).chan d).stored = (s.chan d).stored := by
  by_cases hd : d = c
  · subst hd
    cases ph : (s.chan d).ph with
    | quiescent => rw [hCmp_quiescent ph]; cases d <;> rfl
    | armedForRise =>
      cases late : passed s.zct (s.chan d).fallBuf n with
      | false => rw [hCmp_armed_early ph late]; cases d <;> rfl
      | true => rw [hCmp_armed_late ph late]; cases d <;> rfl
    | waitingForFall => rw [hCmp_waiting ph]; cases d <;> rfl
  · rw [((onlyChannel_hCmp c n s).other hd).1]

/-- Arming takes the snapshot, and the late check keeps it (43_pulse_scheduler.md R88, R90). -/
theorem zeroCrossChannel_stored (t n : Tick) (x : Chan) (e f : Bool) :
    (zeroCrossChannel t n x e f).1.stored = { x with fallBuf := if x.en = true then x.fall else x.fallBuf }.stored := by
  unfold zeroCrossChannel
  split_ifs <;> rfl

/-- What an instruction makes of the stored part of channel `c`: only a facade command that names the channel and the
zero-cross handler write it. -/
theorem exec_stored_cases {i : Instr} {s t : State} (h : exec i s = .next t) (c : Ch) :
    (i ≠ .dispatchCapt ∧ (t.chan c).stored = (s.chan c).stored) ∨
    (∃ ch value, i = .setB ch value ∧ Names ch c ∧ (t.chan c).fallBuf = (s.chan c).fallBuf) ∨
    (∃ ch, i = .dis ch ∧ Names ch c ∧ (t.chan c).stored = { s.chan c with en := false }.stored) ∨
    (i = .dispatchCapt ∧ (t.chan c).stored =
      { s.chan c with fallBuf := if (s.chan c).en = true then (s.chan c).fall else (s.chan c).fallBuf }.stored) := by
  cases exec_effect h with
  | fault k command => exact .inl ⟨(by rintro rfl; cases command), by rw [State.chan_raiseFault]⟩
  | beginCmd => exact .inl ⟨nofun, by cases c <;> rfl⟩
  | endCmd => exact .inl ⟨nofun, by cases c <;> rfl⟩
  | forced ch value d x level _ names =>
    rw [State.chan_respondOk]
    rcases eq_or_ne c d with rfl | hd
    · exact .inr (.inl ⟨ch, value, rfl, names, by rw [forceLevel_eq]; cases c <;> rfl⟩)
    · exact .inl ⟨nofun, by rw [((onlyChannel_forceLevel d level s).other hd).1]⟩
  | mapped ch value d x _ names =>
    rw [State.chan_respondOk]
    rcases eq_or_ne c d with rfl | hd
    · exact .inr (.inl ⟨ch, value, rfl, names, by rw [setMapped, State.chan_setChan_self]⟩)
    · exact .inl ⟨nofun, by rw [((onlyChannel_setMapped d x s).other hd).1]⟩
  | getB => exact .inl ⟨nofun, by rw [State.chan_respondOk]⟩
  | dis ch d _ names =>
    rw [State.chan_respondOk]
    rcases eq_or_ne c d with rfl | hd
    · exact .inr (.inr (.inl ⟨ch, rfl, names, by rw [disable_eq]; cases c <;> rfl⟩))
    · exact .inl ⟨nofun, by rw [((onlyChannel_disable d s).other hd).1]⟩
  | ignored event => exact .inl ⟨by rintro rfl; cases event <;> contradiction, rfl⟩
  | tick => exact .inl ⟨nofun, by rw [(tick_channel s c).1]; rfl⟩
  | zc => exact .inl ⟨nofun, by cases c <;> rfl⟩
  | dispatchCapt =>
    refine .inr (.inr (.inr ⟨rfl, ?_⟩))
    rw [(zeroCross_channel s c).1]
    exact zeroCrossChannel_stored ..
  | dispatchCmp d hi =>
    refine .inl ⟨by subst hi; cases d <;> nofun, ?_⟩
    rw [hCmp_stored]
    cases c <;> rfl

/-- Settles O25, by the cases of `exec_stored_cases`. -/
theorem onlyTheZeroCrossHandlerTakesTheSnapshot : Obligations.OnlyTheZeroCrossHandlerTakesTheSnapshot := by
  intro i s t c h
  rcases exec_stored_cases h c with ⟨hi, kept⟩ | ⟨ch, value, rfl, -, kept⟩ | ⟨ch, rfl, -, kept⟩ | ⟨rfl, taken⟩
  · obtain ⟨-, -, -, -, fallBuf⟩ := (Chan.stored_eq_iff ..).1 kept
    simpa [hi] using fallBuf
  · simpa using kept
  · obtain ⟨-, -, -, -, fallBuf⟩ := (Chan.stored_eq_iff ..).1 kept
    simpa using fallBuf
  · obtain ⟨-, -, -, -, fallBuf⟩ := (Chan.stored_eq_iff ..).1 taken
    simpa using fallBuf

/-- Settles O26, by the cases of `exec_stored_cases`: the zero-cross handler writes the snapshot alone. -/
theorem onlyTheFacadeWritesChannelState : Obligations.OnlyTheFacadeWritesChannelState := by
  intro i s t c h notSetB
  rcases exec_stored_cases h c with ⟨-, kept⟩ | ⟨ch, value, hi, names, -⟩ | ⟨ch, hi, names, kept⟩ | ⟨-, kept⟩
  · obtain ⟨en, rise, fall, static, -⟩ := (Chan.stored_eq_iff ..).1 kept
    exact ⟨rise, fall, static, fun _ => en⟩
  · exact absurd names (notSetB ch value hi)
  · obtain ⟨-, rise, fall, static, -⟩ := (Chan.stored_eq_iff ..).1 kept
    exact ⟨rise, fall, static, fun notDis => absurd names (notDis ch hi)⟩
  · obtain ⟨en, rise, fall, static, -⟩ := (Chan.stored_eq_iff ..).1 kept
    exact ⟨rise, fall, static, fun _ => en⟩

/-! ### Who writes the configuration -/

/-- The configuration registers (10_state.md R15). -/
def State.config (s : State) : Tick × Tick × F32 × F32 :=
  (s.cfgPulseLength, s.cfgMinTrigger, s.cfgOnThresh, s.cfgOffThresh)

theorem OnlyChannel.config {c : Ch} {s t : State} (h : OnlyChannel c s t) : t.config = s.config ∧ t.params = s.params := by
  obtain ⟨x, e, f, rfl⟩ := h
  cases c <;> exact ⟨rfl, rfl⟩

/-- An instruction keeps the parameters, and the configuration too unless it is a `BEGIN` outside RUNNING. -/
theorem exec_config_cases {i : Instr} {s t : State} (h : exec i s = .next t) :
    t.params = s.params ∧ (t.config = s.config ∨ s.rs ≠ .running ∧ ∃ pl mto on off, i = .beginCmd pl mto on off) := by
  cases exec_effect h with
  | fault => exact ⟨rfl, .inl rfl⟩
  | beginCmd pl mto on off stopped => exact ⟨rfl, .inr ⟨stopped, pl, mto, on, off, rfl⟩⟩
  | endCmd => exact ⟨rfl, .inl rfl⟩
  | forced _ _ c _ level =>
    obtain ⟨config, params⟩ := (onlyChannel_forceLevel c level s).config
    exact ⟨params, .inl config⟩
  | mapped _ _ c x =>
    obtain ⟨config, params⟩ := (onlyChannel_setMapped c x s).config
    exact ⟨params, .inl config⟩
  | getB => exact ⟨rfl, .inl rfl⟩
  | dis _ c =>
    obtain ⟨config, params⟩ := (onlyChannel_disable c s).config
    exact ⟨params, .inl config⟩
  | ignored => exact ⟨rfl, .inl rfl⟩
  | tick =>
    have shared := tick_shared s
    simp [State.config, shared]
  | zc => exact ⟨rfl, .inl rfl⟩
  | dispatchCapt =>
    have shared := zeroCross_shared s
    simp [State.config, shared]
  | dispatchCmp c =>
    obtain ⟨config, params⟩ := (onlyChannel_dispatchCmp c s).config
    exact ⟨params, .inl config⟩

/-- Settles O23, by the cases of `exec_config_cases`. -/
theorem onlyBeginConfigures : Obligations.OnlyBeginConfigures := by
  intro i s t h
  obtain ⟨params, config | ⟨stopped, pl, mto, on, off, rfl⟩⟩ := exec_config_cases h
  · exact ⟨params, fun _ => by simpa [State.config] using config⟩
  · refine ⟨params, fun excluded => ?_⟩
    rcases excluded with notBegin | running
    · exact absurd rfl (notBegin pl mto on off)
    · exact absurd running stopped

/-! ### The count of ticks -/

/-- A tick, as a step of the machine, while RUNNING. -/
theorem runInstr_tick {s : State} (running : s.rs = .running) :
    ∃ t, runInstr .tick s = .next t ∧ t.rs = .running ∧ t.tcnt = s.tcnt + 1 := by
  obtain ⟨rs, -, -, -, -, -, -, -, -, tcnt, -⟩ := tick_shared (noteInput (encode .tick) s)
  exact ⟨_, exec_tick_running running, rs.trans running, tcnt⟩

/-- Settles O30, by induction on the number of ticks. -/
theorem ticksCountModulo : Obligations.TicksCountModulo := by
  intro s k running
  induction k generalizing s with
  | zero => exact ⟨s, rfl, (Nat.mod_eq_of_lt s.tcnt.isLt).symm⟩
  | succ k ih =>
    obtain ⟨u, first, running', counted⟩ := runInstr_tick running
    obtain ⟨t, rest, total⟩ := ih u running'
    refine ⟨t, runSteps_cons_eq_next.2 ⟨u, first, rest⟩, ?_⟩
    have next : u.tcnt.toNat = (s.tcnt.toNat + 1) % 65536 := by rw [counted, BitVec.toNat_add]; rfl
    omega

end Sys2Proof.Machine
end

section
/-! PROOF. The step (20_memory.md R40 to R42): it runs the decoded instruction, every command and hardware step completes,
and a facade command that arrives twice in a row leaves what it left the first time. -/

namespace Sys2Proof.Machine

/-! ### The instruction that a step runs -/

/-- Every instruction's encoding decodes to it (30_encoding.md R49, R50, R55). -/
theorem decodeInput_encode (i : Instr) : decodeInput (encode i) = .ok i := by
  cases i with
  | beginCmd | endCmd | setB | getB | dis => simp [encode, decodeInput, decodeCommand, unusedFieldsZero]
  | tick | zc | dispatchCapt | dispatchA | dispatchB => rfl

/-- Settles O7, by the laws of `step` for each kind of schedule. -/
theorem stepRunsTheDecodedInstruction : Obligations.StepRunsTheDecodedInstruction :=
  ⟨fun _ _ _ _ arrival decoded => step_cons_ok arrival decoded,
    fun _ i _ arrival => step_eq_runInstr arrival (decodeInput_encode i),
    fun _ arrival => step_nil arrival⟩

/-! ### The next state of a facade command, in every state -/

/-- `SETB`, with its faults in their order (42_channel_control_facade.md R81). -/
theorem exec_setB_eq (ch : Byte) (value : F32) (s : State) :
    exec (.setB ch value) s = .next (if s.rs = .unconfigured then raiseFault .state s
      else (chanOf ch).elim (raiseFault .chan s) fun c =>
        (val value).elim (raiseFault .value s) fun x => respondOk 0 (setBrightness c x s)) := by
  rcases exec_setB_cases ch value s with ⟨hr, e⟩ | ⟨hr, hc, e⟩ | ⟨c, hr, hc, hv, e⟩ | ⟨c, x, hr, hc, hv, e⟩ <;>
    simp [*]

/-- `GETB`, with its faults in their order (42_channel_control_facade.md R82). -/
theorem exec_getB_eq (ch : Byte) (s : State) :
    exec (.getB ch) s = .next (if s.rs = .unconfigured then raiseFault .state s
      else (chanOf ch).elim (raiseFault .chan s) fun c =>
        if s.period = 0 then raiseFault .div0 s
        else respondOk (mapGet s.params.numerics (s.chan c).rise s.period) s) := by
  rcases exec_getB_cases ch s with ⟨hr, e⟩ | ⟨hr, hc, e⟩ | ⟨c, hr, hc, hp, e⟩ | ⟨c, hr, hc, hp, e⟩ <;>
    rw [e]
  · rw [if_pos hr]
  · rw [if_neg hr, hc, Option.elim_none]
  · rw [if_neg hr, hc, Option.elim_some, if_pos hp]
  · rw [if_neg hr, hc, Option.elim_some, if_neg hp]

/-- `DIS`, with its faults in their order (42_channel_control_facade.md R84). -/
theorem exec_dis_eq (ch : Byte) (s : State) :
    exec (.dis ch) s = .next (if s.rs = .unconfigured then raiseFault .state s
      else (chanOf ch).elim (raiseFault .chan s) fun c => respondOk 0 (disable c s)) := by
  rcases exec_dis_cases ch s with ⟨hr, e⟩ | ⟨hr, hc, e⟩ | ⟨c, hr, hc, e⟩ <;> simp [*]

/-- Settles O10: what is not a dispatch has an equation that gives its next state. -/
theorem everyStepButADispatchCompletes : Obligations.EveryStepButADispatchCompletes := by
  intro s i notDispatch
  cases i with
  | beginCmd pl mto on off => exact ⟨_, exec_beginCmd pl mto on off s⟩
  | endCmd => exact ⟨_, exec_endCmd s⟩
  | setB ch value => exact ⟨_, exec_setB_eq ch value s⟩
  | getB ch => exact ⟨_, exec_getB_eq ch s⟩
  | dis ch => exact ⟨_, exec_dis_eq ch s⟩
  | tick =>
    by_cases running : s.rs = .running
    · exact ⟨_, exec_tick_running running⟩
    · exact ⟨_, exec_tick_stopped running⟩
  | zc =>
    by_cases running : s.rs = .running
    · exact ⟨_, exec_zc_running running⟩
    · exact ⟨_, exec_zc_stopped running⟩
  | dispatchCapt => exact absurd rfl (notDispatch .capt)
  | dispatchA => exact absurd rfl (notDispatch (.cmp .A))
  | dispatchB => exact absurd rfl (notDispatch (.cmp .B))

/-! ### What an instruction leaves to the step: the schedule and the arrival noted -/

/-- Only the step writes the schedule, the latest arrival and the index of the free value (log 1, log 4). -/
theorem exec_keeps_arrivals {i : Instr} {s t : State} (h : exec i s = .next t) :
    t.inputs = s.inputs ∧ t.lastInput = s.lastInput ∧ t.draws = s.draws := by
  have only {c : Ch} {u : State} (k : OnlyChannel c s u) :
      u.inputs = s.inputs ∧ u.lastInput = s.lastInput ∧ u.draws = s.draws := by
    simp [k.shared]
  cases exec_effect h with
  | fault | beginCmd | endCmd | getB | ignored | zc => exact ⟨rfl, rfl, rfl⟩
  | forced _ _ c _ level => simpa using only (onlyChannel_forceLevel c level s)
  | mapped _ _ c x => simpa using only (onlyChannel_setMapped c x s)
  | dis _ c => simpa using only (onlyChannel_disable c s)
  | tick => simp [tick_shared s]
  | dispatchCapt => simp [zeroCross_shared s]
  | dispatchCmp c => exact only (onlyChannel_dispatchCmp c s)

/-! ### Facade commands that arrive twice in a row (20_memory.md R40) -/

/-- The state with another schedule. -/
def State.withInputs (s : State) (rest : List Input) : State := { s with inputs := rest }

@[simp] theorem State.chan_withInputs (s : State) (rest : List Input) (c : Ch) :
    (s.withInputs rest).chan c = s.chan c := by
  cases c <;> rfl

@[simp] theorem State.withInputs_rs (s : State) (rest : List Input) : (s.withInputs rest).rs = s.rs := rfl

@[simp] theorem State.withInputs_cfgPulseLength (s : State) (rest : List Input) :
    (s.withInputs rest).cfgPulseLength = s.cfgPulseLength := rfl

@[simp] theorem State.withInputs_cfgMinTrigger (s : State) (rest : List Input) :
    (s.withInputs rest).cfgMinTrigger = s.cfgMinTrigger := rfl

@[simp] theorem State.withInputs_cfgOnThresh (s : State) (rest : List Input) :
    (s.withInputs rest).cfgOnThresh = s.cfgOnThresh := rfl

@[simp] theorem State.withInputs_cfgOffThresh (s : State) (rest : List Input) :
    (s.withInputs rest).cfgOffThresh = s.cfgOffThresh := rfl

@[simp] theorem State.withInputs_period (s : State) (rest : List Input) : (s.withInputs rest).period = s.period := rfl

@[simp] theorem State.withInputs_params (s : State) (rest : List Input) : (s.withInputs rest).params = s.params := rfl

/-- An instruction run again in the state that it left changes nothing, whatever is still to arrive. -/
def RepeatsItself (i : Instr) : Prop :=
  ∀ (s t : State) (rest : List Input), exec i s = .next t → exec i (t.withInputs rest) = .next (t.withInputs rest)

/-- A fault raised again: its bit is set already, and a DIV0 draws the value of the same index. -/
theorem raiseFault_again (k : FaultKind) (s : State) (rest : List Input) :
    raiseFault k ((raiseFault k s).withInputs rest) = (raiseFault k s).withInputs rest := by
  have bit : s.fault ||| k.mask ||| k.mask = s.fault ||| k.mask := by rw [BitVec.or_assoc, BitVec.or_self]
  cases k <;> simp [raiseFault, State.withInputs, faultData, bit]

theorem respondOk_again (d : BitVec 32) (s : State) (rest : List Input) :
    respondOk d ((respondOk d s).withInputs rest) = (respondOk d s).withInputs rest := rfl

theorem disable_again (c : Ch) (s : State) (rest : List Input) :
    respondOk 0 (disable c ((respondOk 0 (disable c s)).withInputs rest)) =
      (respondOk 0 (disable c s)).withInputs rest := by
  rw [disable_eq, disable_eq]
  cases c <;> rfl

theorem forceLevel_again (c : Ch) (level : Bool) (s : State) (rest : List Input) :
    respondOk 0 (forceLevel c level ((respondOk 0 (forceLevel c level s)).withInputs rest)) =
      (respondOk 0 (forceLevel c level s)).withInputs rest := by
  rw [forceLevel_eq, forceLevel_eq]
  cases c <;> rfl

/-- The delays that a mapped `SETB` stores (42_channel_control_facade.md R81). -/
def State.mappedDelays (s : State) (x : ExtReal) : Int × Int :=
  mapSet s.params.numerics x s.period s.cfgPulseLength s.cfgMinTrigger

theorem setMapped_eq (c : Ch) (x : ExtReal) (s : State) :
    setMapped c x s = s.setChan c { s.chan c with
      rise := tickOf (s.mappedDelays x).1, fall := tickOf (s.mappedDelays x).2, en := true, static := false } := rfl

/-- The delays are mapped from the configuration and the period, which `SETB` leaves alone. -/
theorem setMapped_again (c : Ch) (x : ExtReal) (s : State) (rest : List Input) :
    respondOk 0 (setMapped c x ((respondOk 0 (setMapped c x s)).withInputs rest)) =
      (respondOk 0 (setMapped c x s)).withInputs rest := by
  have shared := (onlyChannel_setMapped c x s).shared
  have delays : ((respondOk 0 (setMapped c x s)).withInputs rest).mappedDelays x = s.mappedDelays x := by
    simp [State.mappedDelays, shared]
  rw [setMapped_eq, delays, setMapped_eq]
  cases c <;> rfl

/-- The second `SETB` compares with the thresholds of the first, so it takes the same branch. -/
theorem setBrightness_again (c : Ch) (x : ExtReal) (s : State) (rest : List Input) :
    respondOk 0 (setBrightness c x ((respondOk 0 (setBrightness c x s)).withInputs rest)) =
      (respondOk 0 (setBrightness c x s)).withInputs rest := by
  obtain ⟨-, -, -, -, on, off, -⟩ := (onlyChannel_setBrightness c x s).shared
  rw [setBrightness, State.withInputs_cfgOnThresh, State.withInputs_cfgOffThresh, State.respondOk_cfgOnThresh,
    State.respondOk_cfgOffThresh, on, off]
  unfold setBrightness
  split_ifs
  · exact forceLevel_again c true s rest
  · exact forceLevel_again c false s rest
  · exact setMapped_again c x s rest

theorem repeatsItself_setB (ch : Byte) (value : F32) : RepeatsItself (.setB ch value) := by
  intro s t rest first
  rcases exec_setB_cases ch value s with ⟨hr, e⟩ | ⟨hr, hc, e⟩ | ⟨c, hr, hc, hv, e⟩ | ⟨c, x, hr, hc, hv, e⟩ <;>
    rw [e] at first <;> cases first
  · simp [exec_setB_eq, hr, raiseFault_again]
  · simp [exec_setB_eq, hr, hc, raiseFault_again]
  · simp [exec_setB_eq, hr, hc, hv, raiseFault_again]
  · have rs := (onlyChannel_setBrightness c x s).shared.1
    simpa [exec_setB_eq, rs, hr, hc, hv] using setBrightness_again c x s rest

theorem repeatsItself_getB (ch : Byte) : RepeatsItself (.getB ch) := by
  intro s t rest first
  rcases exec_getB_cases ch s with ⟨hr, e⟩ | ⟨hr, hc, e⟩ | ⟨c, hr, hc, hp, e⟩ | ⟨c, hr, hc, hp, e⟩ <;>
    rw [e] at first <;> cases first
  · simp [exec_getB_eq, hr, raiseFault_again]
  · simp [exec_getB_eq, hr, hc, raiseFault_again]
  · simp [exec_getB_eq, hr, hc, hp, raiseFault_again]
  · have period : s.period ≠ 0#16 := hp
    simp [exec_getB_eq, hr, hc, period, respondOk_again]

theorem repeatsItself_dis (ch : Byte) : RepeatsItself (.dis ch) := by
  intro s t rest first
  rcases exec_dis_cases ch s with ⟨hr, e⟩ | ⟨hr, hc, e⟩ | ⟨c, hr, hc, e⟩ <;> rw [e] at first <;> cases first
  · simp [exec_dis_eq, hr, raiseFault_again]
  · simp [exec_dis_eq, hr, hc, raiseFault_again]
  · have rs := (onlyChannel_disable c s).shared.1
    simpa [exec_dis_eq, rs, hr, hc] using disable_again c s rest

/-- Two steps on one arrival: the second begins in the state that the first left, its arrival being noted already. -/
theorem step_twice {s : State} {x : Input} {rest : List Input} {i : Instr} (arrivals : s.inputs = x :: x :: rest)
    (decoded : decodeInput x = .ok i) (again : RepeatsItself i) (notDispatch : ∀ src, i ≠ Instr.dispatch src) :
    ∃ t u, step s = .next t ∧ step t = .next u ∧ u = { t with inputs := rest } := by
  obtain ⟨t, first⟩ := everyStepButADispatchCompletes (noteInput x { s with inputs := x :: rest }) i notDispatch
  obtain ⟨left, noted, -⟩ := exec_keeps_arrivals first
  have second : step t = .next (t.withInputs rest) := by
    have begun : noteInput x (t.withInputs rest) = t.withInputs rest := noteInput_of_last noted
    rw [step_cons_ok left decoded]
    exact (congrArg (exec i) begun).trans (again _ t rest first)
  exact ⟨t, _, (step_cons_ok arrivals decoded).trans first, second, rfl⟩

/-- `GETB` writes the response, and a bit of `FAULT` where it faults (42_channel_control_facade.md R82). -/
theorem exec_getB_writes {s t : State} {ch : Byte} (h : exec (.getB ch) s = .next t) :
    t = { s with fault := t.fault, rsp := t.rsp } ∧ ∀ r, t.rsp = some r → r.status = .ok → t.fault = s.fault := by
  cases exec_effect h with
  | fault k =>
    refine ⟨rfl, fun r answered ok => ?_⟩
    cases answered
    cases k <;> cases ok
  | getB => exact ⟨rfl, fun _ _ _ => rfl⟩
  | ignored event => cases event <;> contradiction
  | dispatchCmp c dispatched => cases c <;> cases dispatched

/-- Every command but `GETB` can change the state: `BEGIN` starts the block and `END` stops it, and a `SETB` or `DIS`, whatever
byte it carries as its channel, records a fault in UNCONFIGURED (44_system_interface.md R102). -/
theorem exec_command_changes {i : Instr} (command : i.isCommand = true) (notGetB : ∀ ch, i ≠ .getB ch) :
    ∃ s t : State, exec i s = .next t ∧ { t with rsp := s.rsp } ≠ s := by
  cases i with
  | beginCmd => exact ⟨State.reset, _, rfl, fun same => nomatch congrArg State.rs same⟩
  | endCmd => exact ⟨{ State.reset with rs := .running }, _, rfl, fun same => nomatch congrArg State.rs same⟩
  | setB | dis => exact ⟨State.reset, raiseFault .state State.reset, rfl, by decide⟩
  | getB ch => exact absurd rfl (notGetB ch)
  | tick | zc | dispatchCapt | dispatchA | dispatchB => cases command

/-- No dispatch is a command (60_exceptions.md R107). -/
theorem ne_dispatch_of_isCommand {i : Instr} (command : i.isCommand = true) (src : Source) : i ≠ Instr.dispatch src := by
  rintro rfl
  rcases src with _ | _ | _ <;> cases command

/-- Settles O21: every facade command repeats itself, so its second step leaves what the first left. -/
theorem facadeCommandsAreIdempotent : Obligations.FacadeCommandsAreIdempotent := by
  refine ⟨fun s t ch => exec_getB_writes, fun s x rest ch arrivals decoded => ?_,
    fun s x rest i arrivals decoded facade => ?_, fun i => exec_command_changes⟩
  · exact step_twice arrivals decoded (repeatsItself_getB ch) (ne_dispatch_of_isCommand rfl)
  · rcases facade with ⟨ch, value, rfl⟩ | ⟨ch, rfl⟩
    · exact step_twice arrivals decoded (repeatsItself_setB ch value) (ne_dispatch_of_isCommand rfl)
    · exact step_twice arrivals decoded (repeatsItself_dis ch) (ne_dispatch_of_isCommand rfl)

end Sys2Proof.Machine
end

section
/-! PROOF. The encoding (30_encoding.md R48 to R57): decoder and encoder are inverse to each other, which words and event codes
have no meaning and what a step makes of them, the response to a command, and the words as bytes. -/

namespace Sys2Proof.Machine

/-! ### Decoder and encoder -/

/-- Settles O1, by `decodeInput_encode`. -/
theorem decodeOfEncode : Obligations.DecodeOfEncode := fun i _ => decodeInput_encode i

/-- A word that decodes has its opcode, the operands of its instruction, and zeros in every other field, which the decoder has
checked (30_encoding.md R50); so it is the word that the encoder makes of its fields. -/
theorem encode_of_decodeCommand {w : CmdWord} {i : Instr} (decoded : decodeCommand w = .ok i) : encode i = .cmd w := by
  have fields := mkCmdWord_fields w
  unfold decodeCommand unusedFieldsZero at decoded
  split_ifs at decoded <;> cases decoded <;> simp_all [encode]

/-- An event code that decodes is the label of its step (30_encoding.md R55). -/
theorem encode_of_decodeEvent {code : EvtCode} {i : Instr} (decoded : decodeEvent code = .ok i) : encode i = .evt code := by
  unfold decodeEvent at decoded
  split_ifs at decoded with label label label label label <;> cases decoded <;> rw [label] <;> rfl

/-- Decoding is the inverse of encoding. -/
theorem decodeInput_eq_ok_iff (x : Input) (i : Instr) : decodeInput x = .ok i ↔ encode i = x := by
  constructor
  · intro decoded
    cases x with
    | cmd w => exact encode_of_decodeCommand decoded
    | evt code => exact encode_of_decodeEvent decoded
  · rintro rfl
    exact decodeInput_encode i

/-- Settles O2, by `decodeInput_eq_ok_iff`. -/
theorem encodeOfDecode : Obligations.EncodeOfDecode := fun x i => (decodeInput_eq_ok_iff x i).1

/-- Settles O5: a code decodes to the step whose encoding it is. -/
theorem eventLabels : Obligations.EventLabels := by
  intro code i
  have label (n : Nat) (small : n < 256) : code.toNat = n ↔ BitVec.ofNat 8 n = code := by
    rw [eq_comm, ← BitVec.toNat_inj, BitVec.toNat_ofNat, Nat.mod_eq_of_lt small]
  refine (decodeInput_eq_ok_iff (.evt code) i).trans ?_
  cases i <;> simp [encode, label]

/-! ### What has no meaning -/

/-- A code without a label decodes to no step (30_encoding.md R55). -/
theorem decodeEvent_unassigned {code : EvtCode} (unlabelled : code.toNat = 0 ∨ 6 ≤ code.toNat) :
    ∃ e, decodeEvent code = .error e := by
  cases decoded : decodeEvent code with
  | error e => exact ⟨e, rfl⟩
  | ok i =>
    have := (eventLabels code i).1 decoded
    omega

/-- Settles O9: such a code does not decode, and a step rejects it by name. -/
theorem unassignedEventIsRefused : Obligations.UnassignedEventIsRefused := by
  intro s code rest arrival unlabelled
  obtain ⟨e, decoded⟩ := decodeEvent_unassigned unlabelled
  exact step_cons_error arrival decoded

/-- Settles O8: the arrival is noted and the fault raised. -/
theorem illegalWordRaisesIllegal : Obligations.IllegalWordRaisesIllegal := fun _ _ _ _ arrival decoded =>
  step_cons_error arrival decoded

/-! ### The response to a command (30_encoding.md R54) -/

theorem FaultKind.status_ne_ok (k : FaultKind) : k.status ≠ .ok := by
  cases k <;> nofun

theorem FaultKind.status_ne_illegal {k : FaultKind} (h : k ≠ .illegal) : k.status ≠ .illegal := by
  cases k with
  | illegal => exact absurd rfl h
  | state | chan | value | div0 => nofun

/-- A command raises a fault other than ILLEGAL, or it answers OK, with a DATA of 0 unless it is a `GETB`. -/
theorem exec_command_cases {i : Instr} (command : i.isCommand = true) (s : State) :
    (∃ k, k ≠ .illegal ∧ exec i s = .next (raiseFault k s)) ∨
    (∃ d u, exec i s = .next (respondOk d u) ∧ ((∀ ch, i ≠ .getB ch) → d = 0) ∧
      ∀ ch, i = .getB ch → ∃ c, chanOf ch = some c ∧ d = mapGet s.params.numerics (s.chan c).rise s.period) := by
  obtain ⟨t, completes⟩ := everyStepButADispatchCompletes s i (ne_dispatch_of_isCommand command)
  cases exec_effect completes with
  | fault k _ _ notIllegal => exact .inl ⟨k, notIllegal, completes⟩
  | beginCmd | endCmd | forced | mapped | dis => exact .inr ⟨0, _, completes, fun _ => rfl, fun _ => nofun⟩
  | getB ch c _ named =>
    exact .inr ⟨_, s, completes, fun notGetB => absurd rfl (notGetB ch), fun _ same => ⟨c, by cases same; exact named, rfl⟩⟩
  | ignored event => rcases event with rfl | rfl <;> cases command
  | tick | zc | dispatchCapt => cases command
  | dispatchCmp c dispatched => exact absurd dispatched (ne_dispatch_of_isCommand command (.cmp c))

/-- The places of the fields in a response word. -/
theorem Response.word_fields (r : Response) :
    r.word.extractLsb' 56 8 = r.status.code ∧ r.word.extractLsb' 48 8 = 0#8 ∧ r.word.extractLsb' 40 8 = r.fault ∧
    r.word.extractLsb' 32 8 = 0#8 ∧ r.word.extractLsb' 0 32 = r.data := by
  have zero : (0#8).toNat = 0 := rfl
  refine ⟨?_, ?_, ?_, ?_, ?_⟩ <;>
    · apply BitVec.eq_of_toNat_eq
      rw [toNat_field, Response.word_toNat]
      omega

/-- What every response agrees on with the state it is in: FAULT is the register, and DATA is 0 but for OK and DIV0. -/
structure Answers (t : State) (r : Response) : Prop where
  port : t.rsp = some r
  fault : r.fault = t.fault
  data : r.status ≠ .ok → r.status ≠ .div0 → r.data = 0

theorem answers_raiseFault (k : FaultKind) (s : State) :
    Answers (raiseFault k s) { status := k.status, fault := s.fault ||| k.mask, data := faultData k s } where
  port := rfl
  fault := rfl
  data _ notDiv0 := faultData_eq_zero s fun div0 => notDiv0 (congrArg FaultKind.status div0)

theorem answers_respondOk (d : BitVec 32) (s : State) :
    Answers (respondOk d s) { status := .ok, fault := s.fault, data := d } where
  port := rfl
  fault := rfl
  data notOk := absurd rfl notOk

/-- Settles O11: a command ends as `exec_command_cases` says, and an illegal word raises its fault. -/
theorem everyCommandResponds : Obligations.EveryCommandResponds := by
  unfold Obligations.EveryCommandResponds
  intro answers
  have laidOut {t : State} {r : Response} (h : Answers t r) : answers t r := by
    obtain ⟨status, zero1, fault, zero2, data⟩ := r.word_fields
    exact ⟨h.port, h.fault, status, zero1, fault.trans h.fault, zero2, data, h.data⟩
  refine ⟨fun i s command => ?_, fun s w rest e arrival decoded => ?_, rfl⟩
  · rcases exec_command_cases command s with ⟨k, -, runs⟩ | ⟨d, u, runs, zero, result⟩
    · exact ⟨_, _, runs, laidOut (answers_raiseFault k s), fun ok => absurd ok k.status_ne_ok,
        fun ok => absurd ok k.status_ne_ok⟩
    · exact ⟨_, _, runs, laidOut (answers_respondOk d u), fun _ => zero, fun _ => result⟩
  · exact ⟨_, _, step_cons_error arrival decoded, laidOut (answers_raiseFault .illegal _), rfl⟩

/-! ### The illegal words (30_encoding.md R57) -/

/-- The three checks of the decoder (30_encoding.md R50). -/
theorem decodeCommand_isError_iff (w : CmdWord) :
    (∃ e, decodeCommand w = .error e) ↔
      opcOf w ∉ [0x01#8, 0x02#8, 0x10#8, 0x11#8, 0x12#8] ∨ rsvOf w ≠ 0 ∨ unusedFieldsZero w = false := by
  unfold decodeCommand
  split_ifs <;> simp_all

/-- A word that decodes to an instruction decodes to a command. -/
theorem isCommand_of_decodeCommand {w : CmdWord} {i : Instr} (decoded : decodeCommand w = .ok i) : i.isCommand = true := by
  have word := encode_of_decodeCommand decoded
  cases i with
  | beginCmd | endCmd | setB | getB | dis => rfl
  | tick | zc | dispatchCapt | dispatchA | dispatchB => cases word

/-- The step answers ILLEGAL to the words that do not decode, and to no other. -/
theorem decodeCommand_isError_iff_step_illegal (w : CmdWord) :
    (∃ e, decodeCommand w = .error e) ↔ ∀ (s : State) (rest : List Input), s.inputs = .cmd w :: rest →
      ∃ (t : State) (r : Response), step s = .next t ∧ t.rsp = some r ∧ r.status = .illegal := by
  constructor
  · rintro ⟨e, decoded⟩ s rest arrival
    exact ⟨_, _, step_cons_error arrival decoded, rfl, rfl⟩
  · intro answersIllegal
    cases decoded : decodeCommand w with
    | error e => exact ⟨e, rfl⟩
    | ok i =>
      let s : State := { State.reset with inputs := [.cmd w] }
      obtain ⟨t, r, next, answered, illegal⟩ := answersIllegal s [] rfl
      rw [step_cons_ok (s := s) (x := .cmd w) rfl decoded] at next
      rcases exec_command_cases (isCommand_of_decodeCommand decoded) _ with ⟨k, notIllegal, runs⟩ | ⟨d, u, runs, -⟩
      · cases runs.symm.trans next
        cases answered
        exact absurd illegal (FaultKind.status_ne_illegal notIllegal)
      · cases runs.symm.trans next
        cases answered
        cases illegal

/-- Settles O3: R57 lists, by opcode, what the three checks of the decoder refuse. -/
theorem illegalWordsAreExactlyThese : Obligations.IllegalWordsAreExactlyThese := by
  intro w illegal
  have listed : illegal ↔ ∃ e, decodeCommand w = .error e := by
    rw [decodeCommand_isError_iff, unusedFieldsZero_eq_false_iff]
    unfold opcOf chOf rsvOf u16aOf u16bOf f32aOf f32bOf
    dsimp only [illegal]
    generalize w.extractLsb' 120 8 = opc
    by_cases assigned : opc ∈ [0x01#8, 0x02#8, 0x10#8, 0x11#8, 0x12#8]
    · simp only [List.mem_cons, List.not_mem_nil, or_false] at assigned
      rcases assigned with rfl | rfl | rfl | rfl | rfl <;> simp [imp_iff_not_or]
    · simp only [assigned, not_false_eq_true, true_or]
  exact ⟨listed, listed.trans (decodeCommand_isError_iff_step_illegal w)⟩

/-! ### Words as bytes (30_encoding.md R56) -/

theorem length_bytesOf (n : Nat) {w : Nat} (x : BitVec w) : (bytesOf n x).length = n := by
  simp [bytesOf]

theorem getElem?_bytesOf {n k : Nat} (h : k < n) {w : Nat} (x : BitVec w) :
    (bytesOf n x)[k]? = some (x.extractLsb' (8 * (n - 1 - k)) 8) := by
  simp [bytesOf, h]

/-- A stream that starts with the bytes of a word decodes as the word. -/
theorem decodeBytes_append (w : CmdWord) (rest : List Byte) :
    decodeBytes (CmdWord.bytes w ++ rest) = some (decodeCommand w, rest) := by
  have length : (CmdWord.bytes w).length = 16 := length_bytesOf 16 w
  have word : BitVec.ofNat 128 (natOfBytes (CmdWord.bytes w)) = w := by
    rw [CmdWord.bytes, natOfBytes_bytesOf, Nat.mod_eq_of_lt w.isLt, BitVec.ofNat_toNat, BitVec.setWidth_eq]
  rw [decodeBytes, if_neg (by simp [length]), List.take_left' length, List.drop_left' length, word]

/-- Settles O6, by the bytes of a word of any width and `decodeBytes_append`. -/
theorem bytesTravelMostSignificantFirst : Obligations.BytesTravelMostSignificantFirst := by
  refine ⟨fun w k small => ?_, length_bytesOf 16, fun r k small => ?_, decodeBytes_append⟩
  · rw [CmdWord.bytes, getElem?_bytesOf small]
    congr 2
    omega
  · rw [Response.bytes, getElem?_bytesOf small]
    congr 2
    omega

end Sys2Proof.Machine
end

section
/-! PROOF. The pseudo-steps of test programs (30_encoding.md R59): `RUNTO` reaches its count, and `DISPATCH*` drains the sources. -/

namespace Sys2Proof.Machine

/-- Settles O59: the difference of the counts is taken modulo 65536, and so is the count it is added to. -/
theorem runToReachesItsCount : Obligations.RunToReachesItsCount := by
  intro s k small ticks
  have now := s.tcnt.isLt
  have steps : (BitVec.ofNat 16 k - s.tcnt).toNat = (k + 65536 - s.tcnt.toNat) % 65536 := by
    rw [BitVec.toNat_sub, BitVec.toNat_ofNat]
    omega
  refine ⟨by simp [expandLine, AsmLine.wellFormed, small, steps, ticks], fun running => ?_⟩
  obtain ⟨t, runs, counted⟩ := ticksCountModulo s ((k + 65536 - s.tcnt.toNat) % 65536) running
  exact ⟨t, runs, by omega⟩

/-! ### `DISPATCH*` -/

/-- The first source that may be dispatched has none before it. -/
theorem firstEnabled_some_first {s : State} {src : Source} (h : firstEnabled s = some src) :
    (src = .cmp .A → dispatchEnabled s .capt = false) ∧
    (src = .cmp .B → dispatchEnabled s .capt = false ∧ dispatchEnabled s (.cmp .A) = false) := by
  unfold firstEnabled at h
  split_ifs at h <;> cases h <;> simp_all

/-- The zero-cross handler clears the flag of an enabled channel and keeps the flag of a disabled one. -/
theorem zeroCrossChannel_flag (t n : Tick) (x : Chan) (e f : Bool) :
    (zeroCrossChannel t n x e f).2.2 = (!x.en && f) := by
  unfold zeroCrossChannel
  split_ifs with enabled <;> simp [enabled]

/-- The compare handler sets no flag of its channel. -/
theorem hCmp_flag {c : Ch} {n : Tick} {s : State} (h : (hCmp c n s).ifl.cmp c = true) : s.ifl.cmp c = true := by
  cases phase : (s.chan c).ph with
  | quiescent => rwa [hCmp_quiescent phase] at h
  | armedForRise =>
    cases late : passed s.zct (s.chan c).fallBuf n with
    | false => rw [hCmp_armed_early phase late, SourceBits.cmp_setCmp_self] at h; cases h
    | true => rw [hCmp_armed_late phase late, SourceBits.cmp_setCmp_self] at h; cases h
  | waitingForFall => rw [hCmp_waiting phase] at h; simpa using h

/-- A dispatch clears its source's flag and sets none. -/
theorem dispatched_flag {s : State} {src other : Source}
    (h : (handler src s.tcnt (enterDispatch src s)).ifl.get other = true) : s.ifl.get other = true ∧ other ≠ src := by
  cases src with
  | capt =>
    cases other with
    | capt =>
      have cleared : (hZc s.tcnt (enterDispatch .capt s)).ifl.capt = false := by simp [zeroCross_shared s]
      exact absurd (cleared.symm.trans h) nofun
    | cmp d =>
      obtain ⟨-, -, flag⟩ := zeroCross_channel s d
      rw [zeroCrossChannel_flag] at flag
      obtain ⟨-, wasSet⟩ := Bool.and_eq_true_iff.1 (flag.symm.trans h)
      exact ⟨wasSet, nofun⟩
  | cmp c =>
    have only := onlyChannel_dispatchCmp c s
    cases other with
    | capt =>
      have kept : (hCmp c s.tcnt (enterDispatch (.cmp c) s)).ifl.capt = s.ifl.capt := by simp [only.shared]
      exact ⟨kept.symm.trans h, nofun⟩
    | cmp d =>
      have different : d ≠ c := by
        rintro rfl
        have cleared : (s.ifl.setCmp d false).cmp d = true := hCmp_flag h
        simp at cleared
      exact ⟨(only.other different).2.2.symm.trans h, fun same => different (Source.cmp.inj same)⟩

/-- The sources whose flag is set. -/
def flagged (s : State) : Finset Source :=
  ({.capt, .cmp .A, .cmp .B} : Finset Source).filter fun src => s.ifl.get src = true

@[simp] theorem mem_flagged (s : State) (src : Source) : src ∈ flagged s ↔ s.ifl.get src = true := by
  rcases src with _ | (_ | _) <;> simp [flagged]

theorem card_flagged_le (s : State) : (flagged s).card ≤ 3 := Finset.card_filter_le _ _

theorem flagged_of_firstEnabled {s : State} {src : Source} (h : firstEnabled s = some src) : src ∈ flagged s := by
  obtain ⟨-, flag, -⟩ := (dispatchEnabled_iff s src).1 (firstEnabled_some h)
  exact (mem_flagged s src).2 flag

/-- A dispatch leaves fewer flags set. -/
theorem card_flagged_afterDispatch_lt {s : State} {src : Source} (h : src ∈ flagged s) :
    (flagged (afterDispatch src s)).card < (flagged s).card := by
  have fewer : flagged (afterDispatch src s) ⊆ (flagged s).erase src := by
    intro other isSet
    obtain ⟨wasSet, different⟩ :=
      dispatched_flag (s := noteInput (encode (Instr.dispatch src)) s) ((mem_flagged _ other).1 isSet)
    exact Finset.mem_erase.2 ⟨different, (mem_flagged s other).2 wasSet⟩
  exact (Finset.card_le_card fewer).trans_lt (Finset.card_erase_lt_of_mem h)

/-- The run in which each step is the dispatch of the first source that may be dispatched, until none may be. -/
inductive Drains : State → List Instr → State → Prop where
  | done {s : State} (none_enabled : firstEnabled s = none) : Drains s [] s
  | dispatch {s t : State} {src : Source} {rest : List Instr} (first : firstEnabled s = some src)
      (drains : Drains (afterDispatch src s) rest t) : Drains s (Instr.dispatch src :: rest) t

theorem Drains.completes {s t : State} {steps : List Instr} (h : Drains s steps t) : runSteps steps s = .next t := by
  induction h with
  | done => rfl
  | dispatch first _ ih => exact runSteps_cons_eq_next.2 ⟨_, runInstr_dispatch (firstEnabled_some first), ih⟩

theorem Drains.none_enabled {s t : State} {steps : List Instr} (h : Drains s steps t) : firstEnabled t = none := by
  induction h with
  | done none_enabled => exact none_enabled
  | dispatch _ _ ih => exact ih

theorem Drains.step_is_first {s t : State} {steps : List Instr} (h : Drains s steps t) {k : Nat} {i : Instr}
    (at_k : steps[k]? = some i) :
    ∃ u src, runSteps (steps.take k) s = .next u ∧ i = Instr.dispatch src ∧ firstEnabled u = some src := by
  induction h generalizing k with
  | done => cases at_k
  | @dispatch s t src rest first _ ih =>
    cases k with
    | zero => exact ⟨s, src, rfl, (Option.some.inj at_k).symm, first⟩
    | succ k =>
      obtain ⟨u, src', runs, dispatches, first'⟩ := ih at_k
      exact ⟨u, src', runSteps_cons_eq_next.2 ⟨_, runInstr_dispatch (firstEnabled_some first), runs⟩, dispatches, first'⟩

/-- As many dispatches as flags are set are enough. -/
theorem dispatchAllFrom_drains {k : Nat} {s : State} (h : (flagged s).card ≤ k) : ∃ t, Drains s (dispatchAllFrom k s) t := by
  induction k generalizing s with
  | zero =>
    cases first : firstEnabled s with
    | none => exact ⟨s, .done first⟩
    | some src =>
      have := Finset.card_pos.2 ⟨src, flagged_of_firstEnabled first⟩
      omega
  | succ k ih =>
    rw [dispatchAllFrom]
    cases first : firstEnabled s with
    | none => exact ⟨s, .done first⟩
    | some src =>
      have fewer := card_flagged_afterDispatch_lt (flagged_of_firstEnabled first)
      obtain ⟨t, drains⟩ := ih (s := afterDispatch src s) (by omega)
      exact ⟨t, .dispatch first drains⟩

/-- Settles O60: there are at most three flags to clear. -/
theorem dispatchAllDrainsThePendingSources : Obligations.DispatchAllDrainsThePendingSources := by
  intro s
  obtain ⟨t, drains⟩ := dispatchAllFrom_drains (card_flagged_le s)
  refine ⟨_, t, rfl, drains.completes, firstEnabled_none drains.none_enabled, fun k i at_k => ?_⟩
  obtain ⟨u, src, runs, dispatches, first⟩ := drains.step_is_first at_k
  exact ⟨u, src, runs, dispatches, firstEnabled_some first, firstEnabled_some_first first⟩

end Sys2Proof.Machine
end

section
/-! PROOF. The period tracker (40_period_tracker.md): only the zero-cross handler measures, and what it measures is the interval
between the captures, however late it runs. -/

namespace Sys2Proof.Machine

/-! ### Who writes the measurement -/

theorem OnlyChannel.measurement {c : Ch} {s t : State} (h : OnlyChannel c s t) :
    t.period = s.period ∧ t.lastCapture = s.lastCapture := by
  obtain ⟨x, e, f, rfl⟩ := h
  cases c <;> exact ⟨rfl, rfl⟩

/-- Settles O24, by the effects of an instruction: the capture dispatch is the one that updates the period. -/
theorem onlyTheZeroCrossHandlerMeasures : Obligations.OnlyTheZeroCrossHandlerMeasures := by
  intro i s t h notCapture
  cases exec_effect h with
  | fault | beginCmd | endCmd | getB | ignored | zc => exact ⟨rfl, rfl⟩
  | forced _ _ c _ level => exact (onlyChannel_forceLevel c level s).measurement
  | mapped _ _ c x => exact (onlyChannel_setMapped c x s).measurement
  | dis _ c => exact (onlyChannel_disable c s).measurement
  | tick => simp [tick_shared s]
  | dispatchCapt => exact absurd rfl notCapture
  | dispatchCmp c => exact (onlyChannel_dispatchCmp c s).measurement

/-! ### The interval that is measured (40_period_tracker.md R64) -/

/-- An edge captured at `edge` waits for its handler, and the handler before it handled the capture at `last`. -/
structure CaptureWaits (edge last : Tick) (s : State) : Prop where
  running : s.rs = .running
  enabled : s.ie.capt = true
  flagged : s.ifl.capt = true
  captured : s.icr = edge
  measured : s.lastCapture = last

/-- A zero-cross edge is captured at the present count. -/
theorem runInstr_zc {s : State} (running : s.rs = .running) (enabled : s.ie.capt = true) :
    ∃ t, runInstr .zc s = .next t ∧ CaptureWaits s.tcnt s.lastCapture t :=
  ⟨_, exec_zc_running running, running, enabled, rfl, rfl, rfl⟩

namespace CaptureWaits

variable {edge last : Tick} {s : State}

/-- A tick leaves a waiting capture as it is. -/
theorem tick (h : CaptureWaits edge last s) : ∃ t, runInstr .tick s = .next t ∧ CaptureWaits edge last t := by
  obtain ⟨rs, -, -, -, -, -, -, lastCapture, -, -, icr, ie, capt, -⟩ := tick_shared (noteInput (encode .tick) s)
  exact ⟨_, exec_tick_running h.running, rs.trans h.running, (congrArg SourceBits.capt ie).trans h.enabled,
    capt.trans h.flagged, icr.trans h.captured, lastCapture.trans h.measured⟩

theorem dispatchEnabled (h : CaptureWaits edge last s) : dispatchEnabled s .capt = true :=
  (dispatchEnabled_iff s .capt).2 ⟨h.running, h.flagged, h.enabled, allowedByOrder_capt s⟩

/-- The handler of a waiting capture measures from the capture before it, whatever the count is by then. -/
theorem dispatch (h : CaptureWaits edge last s) :
    ∃ t, runInstr .dispatchCapt s = .next t ∧ t.period = edge - last ∧ t.lastCapture = edge ∧ t.zct = edge := by
  obtain ⟨-, -, -, -, -, -, period, lastCapture, zct, -⟩ := zeroCross_shared (noteInput (encode .dispatchCapt) s)
  exact ⟨_, runInstr_dispatch h.dispatchEnabled, period.trans (congrArg₂ (· - ·) h.captured h.measured),
    lastCapture.trans h.captured, zct.trans h.captured⟩

/-- The same after any number of ticks of latency. -/
theorem ticks_dispatch (h : CaptureWaits edge last s) (latency : Nat) :
    ∃ t, runSteps (List.replicate latency .tick ++ [.dispatchCapt]) s = .next t ∧ t.period = edge - last ∧
      t.lastCapture = edge ∧ t.zct = edge := by
  induction latency generalizing s with
  | zero =>
    obtain ⟨t, runs, measures⟩ := h.dispatch
    exact ⟨t, runSteps_cons_eq_next.2 ⟨t, runs, rfl⟩, measures⟩
  | succ latency ih =>
    obtain ⟨u, ticks, waits⟩ := h.tick
    obtain ⟨t, runs, measures⟩ := ih waits
    exact ⟨t, runSteps_cons_eq_next.2 ⟨u, ticks, runs⟩, measures⟩

end CaptureWaits

/-- Settles O39: the edge waits through the ticks of latency, and its handler subtracts the last capture from its count. -/
theorem periodIsTheIntervalModulo : Obligations.PeriodIsTheIntervalModulo := by
  intro s k j running enabled count
  obtain ⟨u, edge, waits⟩ := runInstr_zc running enabled
  obtain ⟨t, runs, period, lastCapture, zct⟩ := waits.ticks_dispatch j
  refine ⟨t, runSteps_cons_eq_next.2 ⟨u, edge, runs⟩, ?_, lastCapture, zct⟩
  have interval : t.period = BitVec.ofNat 16 k := by rw [period, count, add_sub_cancel_left]
  rw [interval, BitVec.toNat_ofNat]

end Sys2Proof.Machine
end

section
/-! PROOF. The Channel Timing Map (41_channel_timing_map.md): the delays that `MapSet` gives in each mode, and the brightness
that `MapGet` reads back. -/

namespace Sys2Proof.Machine

/-! ### The largest finite value, and rounding towards a representable one -/

/-- A finite encoding is below the exponent of the infinities, and its magnitude is that of its fields. -/
theorem abs_toRat_of_val {b : F32} {x : Frac} (h : val b = some (.fin x)) :
    f32Exp b < 255 ∧ |x.toRat| = (f32Magnitude (f32Exp b) (f32Frac b)).toRat := by
  have exp : f32Exp b < 2 ^ 8 := (b.extractLsb' 23 8).isLt
  have nonneg : 0 ≤ (f32Magnitude (f32Exp b) (f32Frac b)).toRat := by
    rw [toRat_f32Magnitude]; split_ifs <;> positivity
  unfold val at h
  split_ifs at h with infinite _ _ negative <;> cases h
  · exact ⟨by omega, by rw [Frac.toRat_neg, abs_neg, abs_of_nonneg nonneg]⟩
  · exact ⟨by omega, abs_of_nonneg nonneg⟩

/-- No finite value exceeds the largest one. -/
theorem F32Is.abs_le {b : F32} {z : ℚ} (h : F32Is b z) : |z| ≤ 2 ^ 128 - 2 ^ 104 := by
  obtain ⟨x, hv, rfl⟩ := h
  obtain ⟨exp, magnitude⟩ := abs_toRat_of_val hv
  have frac : (f32Frac b : ℚ) + 1 ≤ 2 ^ 23 := by exact_mod_cast (b.extractLsb' 0 23).isLt
  rw [magnitude, toRat_f32Magnitude]
  split_ifs with subnormal
  · calc (f32Frac b : ℚ) * 2 ^ (-149 : ℤ) ≤ (2 ^ 23 - 1) * 2 ^ (-149 : ℤ) := by gcongr; linarith
      _ ≤ 2 ^ 128 - 2 ^ 104 := by norm_num
  · calc (2 ^ 23 + f32Frac b : ℚ) * 2 ^ ((f32Exp b : ℤ) - 150)
        ≤ (2 ^ 23 + (2 ^ 23 - 1)) * 2 ^ (104 : ℤ) := by gcongr; exacts [by linarith, by norm_num, by omega]
      _ = 2 ^ 128 - 2 ^ 104 := by norm_num

/-- Rounding does not pass a representable value: it would be nearer. -/
theorem F32Is.le_of_rne32 {a : Frac} {q : ℚ} (ha : 0 < a.den) (hq : F32Is (rne32 a) q) {b : F32} {z : ℚ} (hb : F32Is b z)
    (h : a.toRat ≤ z) : q ≤ z := by
  have near := (roundingIsToNearestEven a q ha hq b z hb).1
  rw [abs_of_nonneg (sub_nonneg.2 h)] at near
  linarith [le_abs_self (q - a.toRat)]

theorem F32Is.ge_of_rne32 {a : Frac} {q : ℚ} (ha : 0 < a.den) (hq : F32Is (rne32 a) q) {b : F32} {z : ℚ} (hb : F32Is b z)
    (h : z ≤ a.toRat) : z ≤ q := by
  have near := (roundingIsToNearestEven a q ha hq b z hb).1
  rw [abs_of_nonpos (sub_nonpos.2 h)] at near
  linarith [neg_abs_le (q - a.toRat)]

/-- Below the overflow point the result is finite. -/
theorem exists_f32Is_rne32 {a : Frac} (ha : 0 < a.den) (h : |a.toRat| < 2 ^ 128 - 2 ^ 103) : ∃ q, F32Is (rne32 a) q := by
  obtain ⟨-, -, finite, -⟩ := roundingOverflowsToInfinity a ha
  exact finite h

/-- A rational between two representable values rounds to one between them. -/
theorem exists_f32Is_rne32_between {a : Frac} (ha : 0 < a.den) {b c : F32} {lo hi : ℚ} (hb : F32Is b lo) (hc : F32Is c hi)
    (hlo : lo ≤ a.toRat) (hhi : a.toRat ≤ hi) : ∃ q, F32Is (rne32 a) q ∧ lo ≤ q ∧ q ≤ hi := by
  have finite : |a.toRat| < 2 ^ 128 - 2 ^ 103 := by
    have := abs_le.1 hb.abs_le
    have := abs_le.1 hc.abs_le
    rw [abs_lt]
    constructor <;> linarith
  obtain ⟨q, hq⟩ := exists_f32Is_rne32 ha finite
  exact ⟨q, hq, hq.ge_of_rne32 ha hb hlo, hq.le_of_rne32 ha hc hhi⟩

theorem f32Is_zero : F32Is 0x00000000#32 0 := ⟨f32Magnitude 0 0, by decide, by simp [toRat_f32Magnitude]⟩

theorem f32Is_one : F32Is 0x3F800000#32 1 := ⟨f32Magnitude 127 0, by decide, by norm_num [toRat_f32Magnitude]⟩

/-- The largest quotient of two counts. -/
theorem f32Is_65535 : F32Is 0x477FFF00#32 65535 := ⟨f32Magnitude 142 0x7FFF00, by decide, by norm_num [toRat_f32Magnitude]⟩

/-- The least brightness reported (R73). -/
theorem f32Is_neg_65534 : F32Is 0xC77FFE00#32 (-65534) :=
  ⟨(f32Magnitude 142 0x7FFE00).neg, by decide, by norm_num [toRat_f32Magnitude]⟩

/-- Any fraction equal to one rounds to the encoding of one: `2^23` units of its binade. -/
theorem rne32_of_one {a : Frac} (ha : 0 < a.den) (h : a.toRat = 1) : rne32 a = 0x3F800000#32 := by
  have pos : 0 < a.toRat := by rw [h]; norm_num
  obtain ⟨k, n, bits, -, -, near, -, low, up⟩ := rneMagnitude_units ha pos
  rw [h] at near low up
  have binade : k = 126 := by
    have above : (0 : ℤ) < k - 125 := (one_lt_zpow_iff_right₀ (by norm_num : (1 : ℚ) < 2)).1 up
    have below : (k : ℤ) - 126 ≤ 0 := (zpow_le_one_iff_right₀ (by norm_num : (1 : ℚ) < 2)).1 (low.resolve_left (by omega))
    omega
  subst binade
  have units : n = 2 ^ 23 := by
    by_contra other
    have far := half_le_abs_sub_of_ne (n := n) (x := 2 ^ 23) (j := 2 ^ 23) (by norm_num at near ⊢; exact near)
      (by exact_mod_cast Ne.symm other)
    norm_num at far
  rw [rne32_of_pos ha pos, bits, units]
  rfl

/-! ### The rise delay in the EXACT mode (R66, R68) -/

theorem den_fracOne_sub_pos {x : Frac} (hx : 0 < x.den) : 0 < (fracOne.sub x).den := Frac.den_sub_pos (by simp) hx

theorem toRat_fracOne_sub {x : Frac} (hx : 0 < x.den) : (fracOne.sub x).toRat = 1 - x.toRat := by
  rw [Frac.toRat_sub (by simp) hx, toRat_fracOne]

/-- The phase of a finite brightness. -/
theorem toRat_phase_fin {q : Frac} (hq : 0 < q.den) :
    (phase (.fin q)).toRat = if 1 ≤ q.toRat then 0 else if q.toRat ≤ 0 then 1 else 1 - q.toRat := by
  have one : fracOne.le q = true ↔ 1 ≤ q.toRat := by rw [Frac.le_iff (by simp) hq, toRat_fracOne]
  have zero : q.le (Frac.ofInt 0) = true ↔ q.toRat ≤ 0 := by
    rw [Frac.le_iff hq (by simp), Frac.toRat_ofInt, Int.cast_zero]
  simp only [phase, one, zero]
  split_ifs
  · simp
  · simp
  · exact toRat_fracOne_sub hq

theorem riseExact_eq {x : ExtReal} (hx : ∀ q, x = .fin q → 0 < q.den) (p : Tick) :
    riseExact x p = ⌊(p.toNat : ℚ) * (phase x).toRat + 1 / 2⌋ := by
  obtain ⟨den, lo, -⟩ := phase_mem_Icc hx
  have value : ((Frac.ofInt p.toNat).mul (phase x)).toRat = p.toNat * (phase x).toRat := by simp
  rw [riseExact, Frac.round_of_nonneg (Frac.den_mul_pos (by simp) den) (by rw [value]; positivity), value]

/-- Settles O49: the phase is the model's own, by the cases of `phase`. -/
theorem exactRiseIsTheRoundedProduct : Obligations.ExactRiseIsTheRoundedProduct := by
  intro v x p pl mto hv rise
  have den : ∀ q, x = .fin q → 0 < q.den := fun q hq => den_pos_of_val (hq ▸ hv)
  obtain ⟨-, lo, hi⟩ := phase_mem_Icc den
  obtain ⟨rise_lo, rise_hi⟩ := riseExact_bounds den p
  refine ⟨(phase x).toRat, lo, hi, riseExact_eq den p, rise_lo, rise_hi, rfl, ?_, ?_, ?_⟩
  · rintro rfl; simp [phase]
  · rintro rfl; simp [phase]
  · rintro q rfl
    rw [toRat_phase_fin (den q rfl)]
    refine ⟨fun one => if_pos one, fun zero => ?_, fun pos lt => ?_⟩
    · rw [if_neg (by linarith), if_pos zero]
    · rw [if_neg (by linarith), if_neg (by linarith)]

/-! ### The delays in either mode (R70, R71, R75) -/

/-- Settles O50, from the order of the delays and the clamp. -/
theorem mapSetBounds : Obligations.MapSetBounds := by
  intro num v x p pl mto hv d
  obtain ⟨rise_lo, rise_fall, fall_hi⟩ : 0 ≤ d.1 ∧ d.1 ≤ d.2 ∧ d.2 ≤ p.toNat :=
    mapSet_ordered num (fun q hq => den_pos_of_val (hq ▸ hv)) p pl mto
  have clamped : d.2 = clamp (d.1 + pl.toNat) mto.toNat p.toNat := rfl
  have count := p.isLt
  refine ⟨rise_lo, by omega, fall_hi, rise_fall, ?_, ?_, toNat_tickOf rise_lo (by omega), toNat_tickOf (by omega) (by omega)⟩
  · rw [clamped, clamp]; omega
  · rintro rfl
    have fall_zero : d.2 ≤ 0 := fall_hi
    exact Prod.ext (le_antisymm (rise_fall.trans fall_zero) rise_lo) (le_antisymm fall_zero (rise_lo.trans rise_fall))

/-- Settles O51: the cases of the clamp. -/
theorem fallDelayCases : Obligations.FallDelayCases := by
  intro num v x p pl mto hv d
  have rise : 0 ≤ d.1 ∧ d.1 ≤ p.toNat := riseDelay_bounds num (fun q hq => den_pos_of_val (hq ▸ hv)) p
  have clamped : d.2 = min (max (d.1 + pl.toNat) mto.toNat) p.toNat := rfl
  refine ⟨?_, ?_, ?_, ?_, ?_⟩ <;> omega

/-! ### The rise delay in the BINARY32 mode (R72) -/

/-- The product that `rise32` rounds to an integer, where it is no NaN. -/
def Product32 (x : ExtReal) (p : Tick) (pr : F32) : Prop := (val (oneMinus32 x)).bind (timesPeriod32 p) = some pr

theorem rise32_of_posInf {x : ExtReal} {p : Tick} {pr : F32} (h : Product32 x p pr) (hv : val pr = some .posInf) :
    rise32 x p = p.toNat := by
  rw [Product32] at h
  simp [rise32, h, hv]

theorem rise32_of_negInf {x : ExtReal} {p : Tick} {pr : F32} (h : Product32 x p pr) (hv : val pr = some .negInf) :
    rise32 x p = 0 := by
  rw [Product32] at h
  simp [rise32, h, hv]

/-- A finite product is rounded half up and saturates; the two early answers are those of the saturation. -/
theorem rise32_of_f32Is {x : ExtReal} {p : Tick} {pr : F32} {z : ℚ} (h : Product32 x p pr) (hz : F32Is pr z) :
    rise32 x p = max 0 (min (p.toNat : Int) ⌊z + 1 / 2⌋) := by
  obtain ⟨q, hv, rfl⟩ := hz
  have den := den_pos_of_val hv
  rw [Product32] at h
  have low : q.le (Frac.ofInt 0) = true ↔ q.toRat ≤ 0 := by
    rw [Frac.le_iff den (by simp), Frac.toRat_ofInt, Int.cast_zero]
  have high : (Frac.ofInt p.toNat).le q = true ↔ (p.toNat : ℚ) ≤ q.toRat := by
    rw [Frac.le_iff (by simp) den, Frac.toRat_ofInt, Int.cast_natCast]
  simp only [rise32, h, hv, low, high]
  split_ifs with nonpos above
  · have : ⌊q.toRat + 1 / 2⌋ < 1 := Int.floor_lt.2 (by push_cast; linarith)
    omega
  · have : (p.toNat : Int) ≤ ⌊q.toRat + 1 / 2⌋ := Int.le_floor.2 (by push_cast; linarith)
    omega
  · rw [Frac.round_of_nonneg den (by linarith), clamp]
    omega

/-- The rounded difference of a finite brightness is finite: the largest value and 1 stay below the overflow point. -/
theorem exists_f32Is_oneMinus {v : F32} {y : Frac} (hv : val v = some (.fin y)) :
    ∃ ph, F32Is (rne32 (fracOne.sub y)) ph := by
  have den := den_pos_of_val hv
  have bound := abs_le.1 (F32Is.abs_le ⟨y, hv, rfl⟩)
  apply exists_f32Is_rne32 (den_fracOne_sub_pos den)
  rw [toRat_fracOne_sub den, abs_lt]
  constructor <;> linarith

/-- What `rne32` gives is never a NaN. -/
theorem val_rne32_ne_none {a : Frac} (ha : 0 < a.den) : val (rne32 a) ≠ none := by
  rcases rne32_range ha with ⟨-, h⟩ | ⟨-, h⟩ | ⟨-, q, x, h, -⟩ <;> simp [h]

/-- Settles O52: the steps of `rise32` on a finite brightness; on an infinity the product is an infinity too, or a NaN at
`P = 0`. -/
theorem binary32RiseFollowsItsSteps : Obligations.Binary32RiseFollowsItsSteps := by
  intro v x p pl mto hv rise
  have inf : val f32NegInf = some .negInf ∧ val f32PosInf = some .posInf := by decide
  refine ⟨?_, ?_, ?_⟩
  · rintro rfl
    change rise32 _ _ = _
    rcases eq_or_ne p 0#16 with rfl | hp
    · simp [rise32, oneMinus32, timesPeriod32, inf]
    · exact rise32_of_negInf (pr := f32NegInf) (by simp [Product32, oneMinus32, timesPeriod32, inf, hp]) inf.1
  · rintro rfl
    change rise32 _ _ = _
    rcases eq_or_ne p 0#16 with rfl | hp
    · simp [rise32, oneMinus32, timesPeriod32, inf]
    · exact rise32_of_posInf (pr := f32PosInf) (by simp [Product32, oneMinus32, timesPeriod32, inf, hp]) inf.2
  · rintro y rfl
    have den := den_pos_of_val hv
    obtain ⟨ph, z, hz, rfl⟩ := exists_f32Is_oneMinus hv
    have den' : 0 < ((Frac.ofInt p.toNat).mul z).den := Frac.den_mul_pos (by simp) (den_pos_of_val hz)
    have product : Product32 (.fin y) p (rne32 ((Frac.ofInt p.toNat).mul z)) := by
      simp [Product32, oneMinus32, timesPeriod32, hz]
    exact ⟨fracOne.sub y, (Frac.ofInt p.toNat).mul z, z.toRat, den_fracOne_sub_pos den,
      toRat_fracOne_sub den, ⟨z, hz, rfl⟩, den', by simp, fun _ => rise32_of_f32Is product,
      rise32_of_posInf product, rise32_of_negInf product, val_rne32_ne_none den'⟩

/-! ### The brightness read back (R73, R74) -/

theorem toRat_delayRatio (r p : Tick) : (delayRatio r p).toRat = (r.toNat : ℚ) / p.toNat := by
  simp [delayRatio, Frac.toRat_mk]

theorem den_delayRatio_pos (r : Tick) {p : Tick} (hp : p ≠ 0) : 0 < (delayRatio r p).den :=
  Nat.pos_of_ne_zero fun h => hp (BitVec.eq_of_toNat_eq h)

/-- The quotient of two counts is at most `65535 / 1`. -/
theorem delayRatio_bounds (r : Tick) {p : Tick} (hp : p ≠ 0) :
    0 ≤ (delayRatio r p).toRat ∧ (delayRatio r p).toRat ≤ 65535 := by
  have den : (1 : ℚ) ≤ p.toNat := by exact_mod_cast den_delayRatio_pos r hp
  have count : (r.toNat : ℚ) ≤ 65535 := by exact_mod_cast Nat.le_of_lt_succ r.isLt
  rw [toRat_delayRatio]
  exact ⟨by positivity, (div_le_self (by positivity) den).trans count⟩

/-- The quotient rounded to binary32, as the BINARY32 mode subtracts it. -/
theorem exists_val_delayRatio (r : Tick) {p : Tick} (hp : p ≠ 0) :
    ∃ x, val (rne32 (delayRatio r p)) = some (.fin x) ∧ 0 ≤ x.toRat ∧ x.toRat ≤ 65535 := by
  obtain ⟨lo, hi⟩ := delayRatio_bounds r hp
  obtain ⟨q, ⟨x, hx, rfl⟩, bounds⟩ := exists_f32Is_rne32_between (den_delayRatio_pos r hp) f32Is_zero f32Is_65535 lo hi
  exact ⟨x, hx, bounds⟩

theorem mapGet_exact (r p : Tick) : mapGet .exact r p = rne32 (fracOne.sub (delayRatio r p)) := rfl

theorem mapGet_binary32 {r p : Tick} {x : Frac} (hx : val (rne32 (delayRatio r p)) = some (.fin x)) :
    mapGet .binary32 r p = rne32 (fracOne.sub x) := by
  simp [mapGet, get32, hx, oneMinus32]

/-- Settles O53. -/
theorem readbackFollowsItsFormulas : Obligations.ReadbackFollowsItsFormulas := by
  intro r p hp
  have den := den_delayRatio_pos r hp
  obtain ⟨x, hx, -⟩ := exists_val_delayRatio r hp
  have den' := den_pos_of_val hx
  exact ⟨⟨fracOne.sub (delayRatio r p), den_fracOne_sub_pos den, by rw [toRat_fracOne_sub den, toRat_delayRatio],
      mapGet_exact r p⟩,
    ⟨delayRatio r p, fracOne.sub x, x.toRat, den, toRat_delayRatio r p, ⟨x, hx, rfl⟩, den_fracOne_sub_pos den',
      toRat_fracOne_sub den', mapGet_binary32 hx⟩⟩

/-- Both modes read back 1 less a quotient between 0 and 65535, which is 1 at the period and 0 at a zero delay. -/
theorem mapGet_eq (num : Numerics) (r : Tick) {p : Tick} (hp : p ≠ 0) :
    ∃ x : Frac, 0 < x.den ∧ 0 ≤ x.toRat ∧ x.toRat ≤ 65535 ∧ mapGet num r p = rne32 (fracOne.sub x) ∧
      (r = p → x.toRat = 1) ∧ (r = 0 → x.toRat = 0) := by
  have den := den_delayRatio_pos r hp
  have one (h : r = p) : (delayRatio r p).toRat = 1 := by
    rw [toRat_delayRatio, h, div_self (by exact_mod_cast den.ne')]
  have zero (h : r = 0) : (delayRatio r p).toRat = 0 := by simp [toRat_delayRatio, h]
  cases num with
  | exact =>
    obtain ⟨lo, hi⟩ := delayRatio_bounds r hp
    exact ⟨delayRatio r p, den, lo, hi, mapGet_exact r p, one, zero⟩
  | binary32 =>
    obtain ⟨x, hx, lo, hi⟩ := exists_val_delayRatio r hp
    refine ⟨x, den_pos_of_val hx, lo, hi, mapGet_binary32 hx, fun h => ?_, fun h => ?_⟩
    · rw [rne32_of_one den (one h)] at hx
      exact F32Is.unique ⟨x, hx, rfl⟩ f32Is_one
    · rw [rne32_of_zero den (zero h)] at hx
      exact F32Is.unique ⟨x, hx, rfl⟩ f32Is_zero

/-- Settles O54: the roundings of 0 and 1, and of a rational between -65534 and 1. -/
theorem mapGetCorners : Obligations.MapGetCorners := by
  intro num r p hp
  refine ⟨?_, ?_, ?_⟩
  · obtain ⟨x, den, -, -, reads, one, -⟩ := mapGet_eq num p hp
    rw [reads, rne32_of_zero (den_fracOne_sub_pos den) (by rw [toRat_fracOne_sub den, one rfl, sub_self])]
    rfl
  · obtain ⟨x, den, -, -, reads, -, zero⟩ := mapGet_eq num 0 hp
    rw [reads, rne32_of_one (den_fracOne_sub_pos den) (by rw [toRat_fracOne_sub den, zero rfl, sub_zero])]
  · obtain ⟨x, den, lo, hi, reads, -, -⟩ := mapGet_eq num r hp
    rw [reads]
    refine exists_f32Is_rne32_between (den_fracOne_sub_pos den) f32Is_neg_65534 f32Is_one ?_ ?_ <;>
      rw [toRat_fracOne_sub den] <;> linarith

end Sys2Proof.Machine
end

section
/-! PROOF. The brightness round trip (41_channel_timing_map.md R76): the error of one tick and one rounding, and what a run
without a `SETB` of the channel keeps for the `GETB` that ends it. -/

namespace Sys2Proof.Machine

/-! ### The error of the map and of the rounding -/

/-- The rounding of a rational between 0 and 1 is off by at most half a unit in the last place of the binade below 1; the
ends are exact. -/
theorem abs_rne32_sub_le {a : Frac} (ha : 0 < a.den) (lo : 0 ≤ a.toRat) (hi : a.toRat ≤ 1) {q : ℚ} (hq : F32Is (rne32 a) q) :
    |q - a.toRat| ≤ 1 / 2 ^ 25 := by
  rcases lo.eq_or_lt with zero | pos
  · rw [rne32_of_zero ha zero.symm] at hq
    rw [hq.unique f32Is_zero, ← zero]
    norm_num
  rcases hi.eq_or_lt with one | lt
  · rw [rne32_of_one ha one] at hq
    rw [hq.unique f32Is_one, one]
    norm_num
  obtain ⟨k, n, bits, hn, hk, near, -, low, -⟩ := rneMagnitude_units ha pos
  rw [rne32_of_pos ha pos] at hq
  obtain ⟨-, value⟩ := hq.of_ofNat (rneMagnitude_le a)
  have binade : k ≤ 125 := by
    by_contra above
    have : (1 : ℚ) ≤ 2 ^ ((k : ℤ) - 126) := one_le_zpow₀ (by norm_num) (by omega)
    linarith [low.resolve_left (by omega)]
  rw [show rneMagnitude a = k * 2 ^ 23 + n by omega, magnitudeValue, toRat_magnitude_of_units hn hk] at value
  have unit : (2 : ℚ) ^ ((k : ℤ) - 149) ≤ 2 ^ (-24 : ℤ) := zpow_le_zpow_right₀ (by norm_num) (by omega)
  set u : ℚ := 2 ^ ((k : ℤ) - 149)
  have u0 : 0 < u := by positivity
  calc |q - a.toRat| = |(n : ℚ) - a.toRat / u| * u := by
        rw [value, ← abs_of_pos u0, ← abs_mul, abs_of_pos u0, sub_mul, div_mul_cancel₀ _ u0.ne']
    _ ≤ 1 / 2 * 2 ^ (-24 : ℤ) := mul_le_mul near unit u0.le (by norm_num)
    _ = 1 / 2 ^ 25 := by norm_num

/-- Half a tick of the period: the rise delay of a brightness between 0 and 1, read back exactly. -/
theorem abs_readback_sub_le {x : Frac} (hx : 0 < x.den) (lo : 0 ≤ x.toRat) (hi : x.toRat ≤ 1) {p : Tick} (hp : p ≠ 0) :
    |1 - (riseExact (.fin x) p : ℚ) / p.toNat - x.toRat| ≤ 1 / (2 * (p.toNat : ℚ)) := by
  have phase_eq : (phase (.fin x)).toRat = 1 - x.toRat := by
    rw [toRat_phase_fin hx]
    split_ifs <;> linarith
  have count : (0 : ℚ) < p.toNat := by exact_mod_cast den_delayRatio_pos 0 hp
  have rise := riseExact_eq (x := .fin x) (by rintro q ⟨⟩; exact hx) p
  rw [phase_eq] at rise
  have floor_le := Int.floor_le ((p.toNat : ℚ) * (1 - x.toRat) + 1 / 2)
  have lt_floor := Int.lt_floor_add_one ((p.toNat : ℚ) * (1 - x.toRat) + 1 / 2)
  rw [← rise] at floor_le lt_floor
  have half : |(p.toNat : ℚ) * (1 - x.toRat) - riseExact (.fin x) p| ≤ 1 / 2 := by
    rw [abs_le]
    constructor <;> linarith
  calc |1 - (riseExact (.fin x) p : ℚ) / p.toNat - x.toRat|
      = |(p.toNat : ℚ) * (1 - x.toRat) - riseExact (.fin x) p| / p.toNat := by
        rw [← abs_of_pos count, ← abs_div, abs_of_pos count]
        congr 1
        field_simp
        ring
    _ ≤ 1 / 2 / p.toNat := by gcongr
    _ = 1 / (2 * (p.toNat : ℚ)) := by rw [div_div]

/-- The two errors together: the tick's and the rounding's. -/
theorem mapGet_riseExact_near {x : Frac} (hx : 0 < x.den) (lo : 0 ≤ x.toRat) (hi : x.toRat ≤ 1) {p : Tick} (hp : p ≠ 0) :
    ∃ q, F32Is (mapGet .exact (tickOf (riseExact (.fin x) p)) p) q ∧
      |q - x.toRat| ≤ 1 / (2 * (p.toNat : ℚ)) + 1 / 2 ^ 25 := by
  obtain ⟨rise_lo, rise_hi⟩ := riseExact_bounds (x := .fin x) (by rintro q ⟨⟩; exact hx) p
  have fits : (((tickOf (riseExact (.fin x) p)).toNat : ℤ) : ℚ) = riseExact (.fin x) p := by
    rw [toNat_tickOf rise_lo (by have := p.isLt; omega)]
  rw [Int.cast_natCast] at fits
  have count : (0 : ℚ) < p.toNat := by exact_mod_cast den_delayRatio_pos 0 hp
  set r := tickOf (riseExact (.fin x) p)
  have den := den_delayRatio_pos r hp
  have den' : 0 < (fracOne.sub (delayRatio r p)).den := den_fracOne_sub_pos den
  have value : (fracOne.sub (delayRatio r p)).toRat = 1 - (riseExact (.fin x) p : ℚ) / p.toNat := by
    rw [toRat_fracOne_sub den, toRat_delayRatio, fits]
  have ratio_lo : (0 : ℚ) ≤ riseExact (.fin x) p / p.toNat := div_nonneg (by exact_mod_cast rise_lo) count.le
  have ratio_hi : (riseExact (.fin x) p : ℚ) / p.toNat ≤ 1 := (div_le_one count).2 (by exact_mod_cast rise_hi)
  obtain ⟨q, hq, -⟩ := exists_f32Is_rne32_between den' f32Is_zero f32Is_one (by linarith) (by linarith)
  have rounding := abs_rne32_sub_le den' (by linarith) (by linarith) hq
  have tick := abs_readback_sub_le hx lo hi hp
  rw [value] at rounding
  refine ⟨q, hq, ?_⟩
  calc |q - x.toRat| ≤ _ + _ := abs_sub_le q (1 - riseExact (.fin x) p / p.toNat) x.toRat
    _ ≤ 1 / (2 * (p.toNat : ℚ)) + 1 / 2 ^ 25 := by linarith

/-! ### What `GETB` reads but for the period -/

/-- No step makes the block unconfigured again (44_system_interface.md R102). -/
theorem exec_keeps_configured {i : Instr} {s t : State} (configured : s.rs ≠ .unconfigured) (h : exec i s = .next t) :
    t.rs ≠ .unconfigured := by
  cases exec_effect h with
  | fault => exact configured
  | beginCmd => exact nofun
  | endCmd =>
    rw [State.respondOk_rs]
    split_ifs
    · exact nofun
    · exact configured
  | forced _ _ c _ level => rwa [State.respondOk_rs, (onlyChannel_forceLevel c level s).shared.1]
  | mapped _ _ c x => rwa [State.respondOk_rs, (onlyChannel_setMapped c x s).shared.1]
  | getB => exact configured
  | dis _ c => rwa [State.respondOk_rs, (onlyChannel_disable c s).shared.1]
  | ignored => exact configured
  | tick => rwa [(tick_shared s).1]
  | zc => exact configured
  | dispatchCapt => rwa [(zeroCross_shared s).1]
  | dispatchCmp c => rwa [(onlyChannel_dispatchCmp c s).shared.1]

/-- A configured block whose channel `c` holds the rise delay `r`, with the numerics mode `num`. -/
structure Holds (num : Numerics) (c : Ch) (r : Tick) (s : State) : Prop where
  configured : s.rs ≠ .unconfigured
  numerics : s.params.numerics = num
  rise : (s.chan c).rise = r

namespace Holds

variable {num : Numerics} {c : Ch} {r : Tick} {s t : State}

theorem of_runInstr (h : Holds num c r s) {i : Instr} (notSetB : ∀ ch value, i = .setB ch value → ¬ Names ch c)
    (runs : runInstr i s = .next t) : Holds num c r t where
  configured := exec_keeps_configured (s := noteInput (encode i) s) h.configured runs
  numerics := by
    obtain ⟨params, -⟩ := exec_config_cases runs
    rw [params]
    exact h.numerics
  rise := by
    obtain ⟨rise, -⟩ := onlyTheFacadeWritesChannelState i _ t c runs notSetB
    rw [rise, State.chan_noteInput]
    exact h.rise

theorem of_runSteps (h : Holds num c r s) {steps : List Instr}
    (notSetB : ∀ i ∈ steps, ∀ ch value, i = .setB ch value → ¬ Names ch c) (runs : runSteps steps s = .next t) :
    Holds num c r t := by
  induction steps generalizing s with
  | nil => cases runs; exact h
  | cons i rest ih =>
    obtain ⟨u, first, runs⟩ := runSteps_cons_eq_next.1 runs
    exact ih (h.of_runInstr (notSetB i List.mem_cons_self) first) (fun j hj => notSetB j (List.mem_cons_of_mem i hj)) runs

/-- `GETB` answers with the delay held, read against the period. -/
theorem getB (h : Holds num c r s) {ch : Byte} (names : chanOf ch = some c) (hp : s.period ≠ 0) :
    ∃ t, runInstr (.getB ch) s = .next t ∧
      t.rsp = some { status := .ok, fault := s.fault, data := mapGet num r s.period } := by
  refine ⟨_, exec_getB_eq ch _, ?_⟩
  rw [State.noteInput_rs, if_neg h.configured, names, Option.elim_some, State.noteInput_period, if_neg hp,
    State.noteInput_params, State.chan_noteInput, h.numerics, h.rise]
  rfl

end Holds

/-! ### The round trip -/

/-- A `SETB` that raises no fault, as a step of the machine. -/
theorem runInstr_setB {s : State} {ch : Byte} {value : F32} {c : Ch} {x : ExtReal} (configured : s.rs ≠ .unconfigured)
    (names : chanOf ch = some c) (hv : val value = some x) :
    runInstr (.setB ch value) s = .next (respondOk 0 (setBrightness c x (noteInput (encode (.setB ch value)) s))) := by
  rw [runInstr, exec_setB_eq, State.noteInput_rs, if_neg configured, names, Option.elim_some, hv, Option.elim_some]

/-- A mapped `SETB` leaves the rise delay of the map (42_channel_control_facade.md R81). -/
theorem holds_respondOk_setMapped {s : State} (configured : s.rs ≠ .unconfigured) (c : Ch) (x : ExtReal) :
    Holds s.params.numerics c (tickOf (riseDelay s.params.numerics x s.period)) (respondOk 0 (setMapped c x s)) where
  configured := by rwa [State.respondOk_rs, (onlyChannel_setMapped c x s).shared.1]
  numerics := by rw [State.respondOk_params, (onlyChannel_setMapped c x s).config.2]
  rise := by rw [State.chan_respondOk, setMapped_eq, State.chan_setChan_self]; rfl

/-- A forced `SETB` leaves the delay that was stored. -/
theorem rise_respondOk_forceLevel (c : Ch) (level : Bool) (s : State) :
    ((respondOk 0 (forceLevel c level s)).chan c).rise = (s.chan c).rise := by
  rw [State.chan_respondOk, forceLevel_eq]
  cases c <;> rfl

/-- Settles O55: the run keeps what `GETB` reads, and reading back the mapped delay has the errors of
`mapGet_riseExact_near`. -/
theorem brightnessRoundTrip : Obligations.BrightnessRoundTrip := by
  intro s t ch value c x names configured hv runs
  rw [runInstr_setB configured names hv] at runs
  cases runs
  have branch := setBrightness_cases c (.fin x) (noteInput (encode (.setB ch value)) s)
  rw [State.noteInput_cfgOnThresh, State.noteInput_cfgOffThresh] at branch
  rcases branch with ⟨forced, level, result⟩ | ⟨notOn, notOff, result⟩ <;> rw [result]
  · refine ⟨fun _ _ _ _ notOn notOff => ?_, fun _ => ?_⟩
    · simp [notOn, notOff] at forced
    · rw [rise_respondOk_forceLevel, State.chan_noteInput]
  · refine ⟨fun mode hp lo hi _ _ u steps notSetB runs period => ?_, fun forced => ?_⟩
    · have stored := holds_respondOk_setMapped (s := noteInput (encode (.setB ch value)) s) configured c (.fin x)
      rw [State.noteInput_params, State.noteInput_period, mode] at stored
      obtain ⟨w, answers, rsp⟩ := (stored.of_runSteps notSetB runs).getB names (by rw [period]; exact hp)
      rw [period] at rsp
      obtain ⟨q, hq, near⟩ := mapGet_riseExact_near (den_pos_of_val hv) lo hi hp
      exact ⟨w, _, q, answers, rsp, hq, near⟩
    · simp [notOn, notOff] at forced

end Sys2Proof.Machine
end

section
/-! PROOF. The facade commands (42_channel_control_facade.md): their faults in their order, the thresholds as comparisons on the
line, and the whole next state of `SETB`, `GETB` and `DIS`. -/

namespace Sys2Proof.Machine

/-! ### The common checks (42_channel_control_facade.md R78, 30_encoding.md R53) -/

/-- A configured block faults CHAN where the selector names no channel. -/
theorem facade_unnamed {s : State} {ch : Byte} {body : Ch → State} (configured : s.rs ≠ .unconfigured) (h0 : ch ≠ 0)
    (h1 : ch ≠ 1) :
    (if s.rs = .unconfigured then raiseFault .state s else (chanOf ch).elim (raiseFault .chan s) body) =
      raiseFault .chan s := by
  rw [if_neg configured, (chanOf_eq_none_iff ch).2 ⟨h0, h1⟩, Option.elim_none]

/-- A configured block runs the command on the channel that the selector names. -/
theorem facade_named {s : State} {ch : Byte} {body : Ch → State} {c : Ch} (configured : s.rs ≠ .unconfigured)
    (names : chanOf ch = some c) :
    (if s.rs = .unconfigured then raiseFault .state s else (chanOf ch).elim (raiseFault .chan s) body) = body c := by
  rw [if_neg configured, names, Option.elim_some]

/-! ### The thresholds (42_channel_control_facade.md R79) -/

/-- The order of the values of two encodings is the order of the line. -/
theorem lt_iff_of_val {a b : F32} {x y : ExtReal} (ha : val a = some x) (hb : val b = some y) :
    x.lt y = true ↔ x.toLine < y.toLine :=
  ExtReal.lt_iff (fun _ h => den_pos_of_val (h ▸ ha)) (fun _ h => den_pos_of_val (h ▸ hb))

theorem aboveThreshold_iff {value t : F32} {x : ExtReal} (hv : val value = some x) :
    aboveThreshold x t = true ↔ ∃ y, val t = some y ∧ y.toLine < x.toLine := by
  unfold aboveThreshold
  cases ht : val t with
  | none => simp
  | some y => simp [lt_iff_of_val ht hv]

theorem belowThreshold_iff {value t : F32} {x : ExtReal} (hv : val value = some x) :
    belowThreshold x t = true ↔ ∃ y, val t = some y ∧ x.toLine < y.toLine := by
  unfold belowThreshold
  cases ht : val t with
  | none => simp
  | some y => simp [lt_iff_of_val hv ht]

/-! ### Responding OK after a change of one channel -/

/-- The response stands beside the change in one record; its FAULT is the register before the command. -/
theorem respondOk_setChan (d : BitVec 32) (c : Ch) (x : Chan) (ie ifl : SourceBits) (s : State) :
    respondOk d { s.setChan c x with ie := ie, ifl := ifl } =
      { s.setChan c x with ie := ie, ifl := ifl, rsp := some { status := .ok, fault := s.fault, data := d } } := by
  cases c <;> rfl

/-! ### The commands -/

/-- Settles O18: the faults are those of the common checks and of a NaN, and the comparisons on the line choose the branch. -/
theorem setbFollowsItsRule : Obligations.SetbFollowsItsRule := by
  intro s ch value
  rw [exec_setB_eq]
  refine ⟨fun unconfigured => ?_, fun configured h0 h1 => ?_, fun c configured names => ?_⟩
  · rw [if_pos unconfigured]
    rfl
  · rw [facade_unnamed configured h0 h1]
    rfl
  · rw [facade_named configured ((chanOf_eq_some_iff ch c).2 names)]
    refine ⟨fun nan => ?_, fun x hv => ?_⟩
    · rw [nan]
      rfl
    · rw [← aboveThreshold_iff hv, ← belowThreshold_iff hv, hv, Option.elim_some, setBrightness]
      refine ⟨fun above => ?_, fun notAbove below => ?_, fun notAbove notBelow => ?_⟩
      · rw [if_pos above, forceLevel_eq, respondOk_setChan]
      · rw [if_neg notAbove, if_pos below, forceLevel_eq, respondOk_setChan]
      · rw [if_neg notAbove, if_neg notBelow, setMapped_eq]
        cases c <;> rfl

/-- Settles O22: the forced level leaves the rise delay, the period and the numerics mode that `GETB` reads. -/
theorem getbDoesNotReportTheForcedLevel : Obligations.GetbDoesNotReportTheForcedLevel := by
  intro s t ch value c x names hv forced configured hp runs
  obtain ⟨level, result⟩ : ∃ level, setBrightness c x s = forceLevel c level s := by
    rcases setBrightness_cases c x s with ⟨-, result⟩ | ⟨notAbove, notBelow, -⟩
    · exact result
    · simp [notAbove, notBelow] at forced
  rw [exec_setB_eq, facade_named configured names, hv, Option.elim_some, result] at runs
  cases runs
  have shared := (onlyChannel_forceLevel c level s).shared
  refine ⟨_, exec_getB_eq ch _, ?_⟩
  rw [facade_named (by simpa [shared] using configured) names, if_neg (by simpa [shared] using hp),
    rise_respondOk_forceLevel]
  simp [shared]

/-- Settles O19: the common checks, then the period decides between DIV0 and the readback. -/
theorem getbFollowsItsRule : Obligations.GetbFollowsItsRule := by
  intro s ch
  rw [exec_getB_eq]
  refine ⟨fun unconfigured => ?_, fun configured h0 h1 => ?_, fun c configured names => ?_⟩
  · rw [if_pos unconfigured]
    rfl
  · rw [facade_unnamed configured h0 h1]
    rfl
  · rw [facade_named configured ((chanOf_eq_some_iff ch c).2 names)]
    refine ⟨fun zero => ⟨faultData .div0 s, ?_⟩, fun nonzero => ?_⟩
    · rw [if_pos zero]
      rfl
    · rw [if_neg nonzero]
      rfl

/-- Settles O20: the common checks, then `Disable(c)`, which names every field it writes. -/
theorem disFollowsItsRule : Obligations.DisFollowsItsRule := by
  intro s ch
  rw [exec_dis_eq]
  refine ⟨fun unconfigured => ?_, fun configured h0 h1 => ?_, fun c configured names => ?_⟩
  · rw [if_pos unconfigured]
    rfl
  · rw [facade_unnamed configured h0 h1]
    rfl
  · rw [facade_named configured ((chanOf_eq_some_iff ch c).2 names), disable_eq, respondOk_setChan]

end Sys2Proof.Machine
end

section
/-! PROOF. The hardware steps and the handlers of the pulse scheduler (43_pulse_scheduler.md R85 to R95): the whole next state
of each, the phases they lead to, and that the zero-cross handler overwrites what a compare handler did. -/

namespace Sys2Proof.Machine

/-! ### The hardware steps -/

/-- Settles O28: A compares, then B, each with the new count and its own record. -/
theorem tickFollowsItsRule : Obligations.TickFollowsItsRule := by
  intro s
  refine ⟨exec_tick_stopped, fun running => ?_⟩
  have count : BitVec.ofNat 16 ((s.tcnt.toNat + 1) % 65536) = s.tcnt + 1 :=
    BitVec.eq_of_toNat_eq (by simp [BitVec.toNat_add])
  rw [exec_tick_running running, countAndCompare, compareChannel_eq .A, compareChannel_eq .B, count]
  rfl

/-- Settles O29, by the laws of `ZC` in and outside RUNNING. -/
theorem zcFollowsItsRule : Obligations.ZcFollowsItsRule :=
  fun _ => ⟨exec_zc_stopped, exec_zc_running⟩

/-- Settles O31: the difference of the counts is the number of ticks, reduced modulo 65536. -/
theorem passedTestIsExactBelowTheModulus : Obligations.PassedTestIsExactBelowTheModulus := by
  intro base delay k
  have elapsed : (base + BitVec.ofNat 16 k - base).toNat = k % 65536 := by
    rw [add_sub_cancel_left, BitVec.toNat_ofNat]
  rw [passed_iff, elapsed]
  exact ⟨Iff.rfl, fun small => by rw [Nat.mod_eq_of_lt small]⟩

/-! ### The bound on the recursion (43_pulse_scheduler.md R89) -/

/-- A waiting channel ends its cycle and calls no further handler. -/
theorem hCmpBounded_waiting {c : Ch} {n : Tick} {s : State} (k : Nat) (h : (s.chan c).ph = .waitingForFall) :
    hCmpBounded (k + 1) c n s = hFall c s := by
  simp [hCmpBounded, h]

/-- An armed channel turns to its fall, and forces the match of a fall that has passed. -/
theorem hCmpBounded_armed {c : Ch} {n : Tick} {s : State} (k : Nat) (h : (s.chan c).ph = .armedForRise) :
    hCmpBounded (k + 1) c n s = if passed (armFall c s).zct ((armFall c s).chan c).fallBuf n = true then
      hCmpBounded k c n ((compareAction c (armFall c s)).setFCmp c false) else armFall c s := by
  simp [hCmpBounded, h]

/-- The forced fall match of R92 meets a waiting channel: neither the compare action nor the flag moves the phase. -/
theorem phase_forcedFall (c : Ch) (s : State) :
    (((compareAction c (armFall c s)).setFCmp c false).chan c).ph = .waitingForFall := by
  rw [State.chan_setFCmp, compareAction_eq, State.chan_setChan_self]
  simp [armFall]

/-- Settles O36: from ARMED_FOR_RISE the one recursive call finds the channel waiting; the other phases call none. -/
theorem forcedMatchRecursionEnds : Obligations.ForcedMatchRecursionEnds := by
  intro k c n s
  rw [hCmp]
  cases phase : (s.chan c).ph with
  | quiescent => simp [hCmpBounded, phase]
  | armedForRise =>
    have forced := phase_forcedFall c s
    rw [hCmpBounded_armed (k + 1) phase, hCmpBounded_armed 1 phase, hCmpBounded_waiting k forced, hCmpBounded_waiting 0 forced]
  | waitingForFall => rw [hCmpBounded_waiting _ phase, hCmpBounded_waiting _ phase]

/-! ### A compare dispatch of one channel -/

/-- What a compare dispatch makes of its channel's record and enable, from `ZCT` and the count `n`. -/
def compareDispatchChannel (zct n : Tick) (x : Chan) : Chan × Bool :=
  match x.ph with
  | .quiescent => (x, false)
  | .armedForRise =>
    if passed zct x.fallBuf n then
      ({ x with ocr := zct + x.fallBuf, com := .none, ph := .quiescent, ocl := false }, false)
    else ({ x with ocr := zct + x.fallBuf, com := .driveLow, ph := .waitingForFall }, true)
  | .waitingForFall => ({ x with com := .none, ph := .quiescent }, false)

/-- The whole dispatch: its channel's record, enable and flag (43_pulse_scheduler.md R91 to R94). -/
theorem compareDispatch_eq (c : Ch) (s : State) :
    let r := compareDispatchChannel s.zct s.tcnt (s.chan c)
    hCmp c s.tcnt (enterDispatch (.cmp c) s) =
      { s.setChan c r.1 with ie := s.ie.setCmp c r.2, ifl := s.ifl.setCmp c false } := by
  have entry : enterDispatch (.cmp c) s = s.setFCmp c false := rfl
  have own : (s.setFCmp c false).chan c = s.chan c := State.chan_setFCmp s c c false
  rw [entry]
  cases phase : (s.chan c).ph with
  | quiescent =>
    simp only [compareDispatchChannel, phase]
    rw [hCmp_quiescent (own ▸ phase)]
    cases c <;> rfl
  | armedForRise =>
    cases late : passed s.zct (s.chan c).fallBuf s.tcnt with
    | false =>
      simp only [compareDispatchChannel, phase, late]
      rw [hCmp_armed_early (own ▸ phase) (own ▸ late)]
      cases c <;> rfl
    | true =>
      simp only [compareDispatchChannel, phase, late]
      rw [hCmp_armed_late (own ▸ phase) (own ▸ late)]
      cases c <;> rfl
  | waitingForFall =>
    simp only [compareDispatchChannel, phase]
    rw [hCmp_waiting (own ▸ phase)]
    cases c <;> rfl

/-- The record, the enable and the flag that a compare dispatch leaves its channel. -/
theorem compareDispatch_channel (c : Ch) (s : State) :
    let t := hCmp c s.tcnt (enterDispatch (.cmp c) s)
    let r := compareDispatchChannel s.zct s.tcnt (s.chan c)
    t.chan c = r.1 ∧ t.ie.cmp c = r.2 ∧ t.ifl.cmp c = false := by
  rw [compareDispatch_eq]
  cases c <;> exact ⟨rfl, rfl, rfl⟩

/-- A compare dispatch that is enabled answers the state of its handler. -/
theorem exec_compareDispatch {c : Ch} {s : State} (enabled : dispatchEnabled s (.cmp c) = true) :
    exec (Instr.dispatch (.cmp c)) s = .next (hCmp c s.tcnt (enterDispatch (.cmp c) s)) := by
  rw [exec_dispatch, dispatch, if_pos enabled]
  rfl

/-- Settles O35, by the four results of `compareDispatchChannel`. -/
theorem compareDispatchFollowsItsRule : Obligations.CompareDispatchFollowsItsRule := by
  intro s i c own enabled x off after
  have dispatches : i = Instr.dispatch (.cmp c) := by
    rcases own with ⟨rfl, rfl⟩ | ⟨rfl, rfl⟩ <;> rfl
  rw [dispatches, exec_compareDispatch enabled, compareDispatch_eq]
  refine ⟨fun phase early => ?_, fun phase late => ?_, fun phase => ?_, fun phase => ?_⟩
  · simp [compareDispatchChannel, phase, x, after, (passed_false_iff s.zct _ s.tcnt).2 early]
  · simp [compareDispatchChannel, phase, x, after, (passed_iff s.zct _ s.tcnt).2 late]
  · simp [compareDispatchChannel, phase, x, after]
  · simp [compareDispatchChannel, phase, x, after]

/-! ### The zero-cross dispatch -/

/-- A capture dispatch that is enabled answers the state of its handler. -/
theorem exec_captureDispatch {s : State} (enabled : dispatchEnabled s .capt = true) :
    exec .dispatchCapt s = .next (hZc s.tcnt (enterDispatch .capt s)) := by
  rw [exec_dispatchCapt, dispatch, if_pos enabled]
  rfl

/-- Settles O34: `zeroCrossChannel` tests the dispatch latency against the rise, then against the fall. -/
theorem zeroCrossDispatchFollowsItsRule : Obligations.ZeroCrossDispatchFollowsItsRule := by
  intro s enabled
  obtain ⟨-, -, -, -, -, -, -, -, -, -, -, ie, ifl, -⟩ := zeroCross_shared s
  have period : s.icr - s.lastCapture = BitVec.ofNat 16 ((s.icr.toNat + 65536 - s.lastCapture.toNat) % 65536) :=
    BitVec.eq_of_toNat_eq (by
      have := s.lastCapture.isLt
      rw [BitVec.toNat_sub, BitVec.toNat_ofNat]; omega)
  refine ⟨_, exec_captureDispatch enabled, ?_, ie, ifl, fun c => ?_⟩
  · rw [← period, hZc_eq]
    rfl
  · obtain ⟨record, enable, flag⟩ := zeroCross_channel s c
    rw [record, enable, flag]
    refine ⟨fun en => ?_, fun en early => ?_, fun en risen waits => ?_, fun en risen fallen => ?_⟩
    · simp [zeroCrossChannel, en]
    · simp [zeroCrossChannel, en, (passed_false_iff s.icr _ s.tcnt).2 early]
    · simp [zeroCrossChannel, en, (passed_iff s.icr _ s.tcnt).2 risen, (passed_false_iff s.icr _ s.tcnt).2 waits]
    · simp [zeroCrossChannel, en, (passed_iff s.icr _ s.tcnt).2 risen, (passed_iff s.icr _ s.tcnt).2 fallen]

/-! ### Where the phase changes (43_pulse_scheduler.md R95) -/

/-- What can move the phase of channel `c`. -/
def MovesPhase (c : Ch) (i : Instr) (s : State) : Prop :=
  (i = .dispatchCapt ∧ (s.chan c).en = true) ∨ i = Instr.dispatch (.cmp c) ∨ i = .endCmd ∨
  (∃ ch, i = .dis ch ∧ Names ch c) ∨
  (∃ ch value y, i = .setB ch value ∧ Names ch c ∧ val value = some y ∧
    (aboveThreshold y s.cfgOnThresh = true ∨ belowThreshold y s.cfgOffThresh = true))

/-- Every other effect of an instruction keeps the phase. -/
theorem exec_phase_kept_or {i : Instr} {s t : State} (h : exec i s = .next t) (c : Ch) :
    (t.chan c).ph = (s.chan c).ph ∨ MovesPhase c i s := by
  cases exec_effect h with
  | fault => exact .inl (by rw [State.chan_raiseFault])
  | beginCmd => exact .inl (by cases c <;> rfl)
  | endCmd => exact .inr (.inr (.inr (.inl rfl)))
  | forced ch value d x level _ names hv forced =>
    rcases eq_or_ne c d with rfl | other
    · exact .inr (.inr (.inr (.inr (.inr ⟨ch, value, x, rfl, names, hv, forced⟩))))
    · exact .inl (by rw [State.chan_respondOk, ((onlyChannel_forceLevel d level s).other other).1])
  | mapped _ _ d x =>
    refine .inl ?_
    rw [State.chan_respondOk]
    rcases eq_or_ne c d with rfl | other
    · rw [setMapped, State.chan_setChan_self]
    · rw [((onlyChannel_setMapped d x s).other other).1]
  | getB => exact .inl (by rw [State.chan_respondOk])
  | dis ch d _ names =>
    rcases eq_or_ne c d with rfl | other
    · exact .inr (.inr (.inr (.inr (.inl ⟨ch, rfl, names⟩))))
    · exact .inl (by rw [State.chan_respondOk, ((onlyChannel_disable d s).other other).1])
  | ignored => exact .inl rfl
  | tick => exact .inl (by rw [(tick_channel s c).1])
  | zc => exact .inl (by cases c <;> rfl)
  | dispatchCapt =>
    rw [(zeroCross_channel s c).1]
    cases en : (s.chan c).en with
    | false => exact .inl (by simp [zeroCrossChannel, en])
    | true => exact .inr (.inl ⟨rfl, en⟩)
  | dispatchCmp d hi =>
    rcases eq_or_ne c d with rfl | other
    · exact .inr (.inr (.inl hi))
    · exact .inl (by rw [((onlyChannel_dispatchCmp d s).other other).1])

theorem zeroCrossChannel_phase (t n : Tick) (x : Chan) (e f : Bool) :
    (zeroCrossChannel t n x e f).1.ph =
      if x.en = false then x.ph
      else if passed t x.rise n = false then .armedForRise
      else if passed t x.fall n = false then .waitingForFall else .quiescent := by
  cases en : x.en <;> cases rise : passed t x.rise n <;> cases fall : passed t x.fall n <;>
    simp [zeroCrossChannel, en, rise, fall]

theorem compareDispatchChannel_phase (zct n : Tick) (x : Chan) :
    (compareDispatchChannel zct n x).1.ph =
      if x.ph = .armedForRise ∧ passed zct x.fallBuf n = false then .waitingForFall else .quiescent := by
  cases phase : x.ph <;> cases late : passed zct x.fallBuf n <;> simp [compareDispatchChannel, phase, late]

/-- Settles O37: the table's targets from the result of each step, its causes from `exec_phase_kept_or`. -/
theorem phaseChangesOnlyAsTheTableGives : Obligations.PhaseChangesOnlyAsTheTableGives := by
  intro i s t c h x
  refine ⟨?_, ?_, ?_, ?_, ?_, (exec_phase_kept_or h c).resolve_left⟩
  · rintro rfl
    rw [exec_dispatchCapt, dispatch_eq_next_iff] at h
    obtain ⟨-, rfl⟩ := h
    exact (congrArg Chan.ph (zeroCross_channel s c).1).trans (zeroCrossChannel_phase ..)
  · rintro rfl
    rw [exec_dispatch, dispatch_eq_next_iff] at h
    obtain ⟨-, rfl⟩ := h
    exact (congrArg Chan.ph (compareDispatch_channel c s).1).trans (compareDispatchChannel_phase ..)
  · rintro rfl
    rw [exec_endCmd] at h
    cases h
    cases c <;> rfl
  · rintro ch rfl names configured
    rw [exec_dis_eq, facade_named configured names, disable_eq] at h
    cases h
    cases c <;> rfl
  · rintro ch value y rfl names configured hv forced
    rw [exec_setB_eq, facade_named configured names, hv, Option.elim_some] at h
    obtain ⟨-, level, result⟩ | ⟨notAbove, notBelow, -⟩ := setBrightness_cases c y s
    · rw [result, forceLevel_eq] at h
      cases h
      cases c <;> rfl
    · simp [notAbove, notBelow] at forced

/-! ### A compare handler before the zero-cross handler (95_test_vectors.md, program P5) -/

/-- Arming an enabled channel writes the unit, the phase and the snapshot anew: nothing of them is read. -/
theorem zeroCrossChannel_forgets {x y : Chan} (en : x.en = true) (stored : y.stored = x.stored) (t n : Tick)
    (e f e' f' : Bool) : zeroCrossChannel t n y e' f' = zeroCrossChannel t n x e f := by
  obtain ⟨en', rise, fall, static, -⟩ := (Chan.stored_eq_iff x y).1 stored
  simp [zeroCrossChannel, en, en', rise, fall, static]

@[simp] theorem State.chan_setChan_withSources (s : State) (c : Ch) (x : Chan) (ie ifl : SourceBits) :
    ({ s.setChan c x with ie := ie, ifl := ifl } : State).chan c = x := by
  cases c <;> rfl

/-- So the zero-cross dispatch ends alike from states that differ in the unit and the phase of an enabled channel. -/
theorem zeroCross_forgets {c : Ch} {s u : State} (only : OnlyChannel c s u) (en : (s.chan c).en = true)
    (stored : (u.chan c).stored = (s.chan c).stored) :
    hZc u.tcnt (enterDispatch .capt u) = hZc s.tcnt (enterDispatch .capt s) := by
  obtain ⟨x, e, f, rfl⟩ := only
  rw [State.chan_setChan_withSources] at stored
  have own := zeroCrossChannel_forgets en stored s.icr s.tcnt (s.ie.cmp c) (s.ifl.cmp c) e f
  rw [hZc_eq, hZc_eq]
  cases c <;> simp only [State.chan, SourceBits.cmp] at own <;> simp [enterDispatch, State.setChan, SourceBits.setCmp, own]

theorem OnlyChannel.noteInput {c : Ch} {s t : State} (h : OnlyChannel c s t) (x : Input) :
    OnlyChannel c (noteInput x s) (noteInput x t) := by
  obtain ⟨y, e, f, rfl⟩ := h
  exact ⟨y, e, f, by cases c <;> rfl⟩

/-- The capture source is no channel's. -/
theorem OnlyChannel.dispatchEnabled_capt {c : Ch} {s t : State} (only : OnlyChannel c s t)
    (enabled : dispatchEnabled s .capt = true) : dispatchEnabled t .capt = true := by
  obtain ⟨running, flag, enable, -⟩ := (dispatchEnabled_iff s .capt).1 enabled
  obtain ⟨rs, -, -, -, -, -, -, -, -, -, -, ie, ifl, -⟩ := only.shared
  exact (dispatchEnabled_iff t .capt).2 ⟨rs.trans running, ifl.trans flag, ie.trans enable, allowedByOrder_capt t⟩

/-- Settles O38: the compare handler keeps what `zeroCross_forgets` needs of its channel. -/
theorem compareBeforeCaptureEndsAsCaptureAlone : Obligations.CompareBeforeCaptureEndsAsCaptureAlone := by
  intro s c _ en capture compare
  let s' := noteInput (encode (Instr.dispatch (.cmp c))) s
  let u := hCmp c s'.tcnt (enterDispatch (.cmp c) s')
  have only : OnlyChannel c s' u := onlyChannel_dispatchCmp c s'
  have stored : (u.chan c).stored = (s'.chan c).stored := by
    rw [hCmp_stored]
    cases c <;> rfl
  have overwritten := zeroCross_forgets (only.noteInput (encode .dispatchCapt)) (by simpa [s'] using en)
    (by simpa using stored)
  refine ⟨_, (noteInput (encode .dispatchCapt) s').draws, runInstr_dispatch (src := .capt) capture,
    runSteps_cons_eq_next.2 ⟨u, runInstr_dispatch compare, runSteps_cons_eq_next.2
      ⟨_, runInstr_dispatch (src := .capt) (only.dispatchEnabled_capt capture),
        congrArg Host.Outcome.next (overwritten.trans ?_)⟩⟩⟩
  rw [afterDispatch, handler, hZc_eq, hZc_eq]
  rfl

end Sys2Proof.Machine
end

section
/-! PROOF. The latch, the flag and the fall target of a channel agree with its phase (43_pulse_scheduler.md R85, R90, R92, R93):
every step keeps the agreement, so the falling-edge handler finds the latch low. -/

namespace Sys2Proof.Machine

/-! ### The agreement of one channel -/

/-- What `State.LatchAgrees` and `State.FallTarget` ask of one channel's record `x` and its flag `f`. -/
structure Chan.Latched (zct : Tick) (x : Chan) (f : Bool) : Prop where
  armed : x.ph = .armedForRise → x.ocl = f
  matched : x.ph = .waitingForFall → f = true → x.ocl = false
  target : x.ph = .waitingForFall → x.ocr = zct + x.fallBuf

theorem latched_iff (s : State) (c : Ch) :
    (s.chan c).Latched s.zct (s.ifl.cmp c) ↔ s.LatchAgrees c ∧ s.FallTarget c :=
  ⟨fun ⟨armed, matched, target⟩ => ⟨⟨armed, matched⟩, target⟩,
    fun ⟨⟨armed, matched⟩, target⟩ => ⟨armed, matched, target⟩⟩

namespace Chan.Latched

variable {zct : Tick} {x : Chan} {f : Bool}

/-- Nothing is asked of a channel at rest. -/
theorem of_quiescent (phase : x.ph = .quiescent) : x.Latched zct f := by
  constructor <;> simp [phase]

/-- A match drives the latch as the phase's drive says, and sets the flag (43_pulse_scheduler.md R85). -/
theorem tick (h : x.Latched zct f) (com : x.com = x.ph.drive) (count : Tick) :
    Chan.Latched zct { x with ocl := if count = x.ocr ∧ x.com = .driveHigh then true
      else if count = x.ocr ∧ x.com = .driveLow then false else x.ocl } (f || count == x.ocr) := by
  constructor
  · intro phase
    by_cases hit : count = x.ocr <;> simp_all [Phase.drive, h.armed phase]
  · intro phase flag
    by_cases hit : count = x.ocr
    · simp_all [Phase.drive]
    · have low := h.matched phase (by simpa [hit] using flag)
      simp [hit, low]
  · exact h.target

/-- The zero-cross handler clears the flag of the channel it arms, and targets the fall of a rise it forces
(43_pulse_scheduler.md R90). -/
theorem zeroCross (disabled : x.en = false → x.ph = .quiescent) (t n : Tick) (e : Bool) :
    let r := zeroCrossChannel t n x e f
    r.1.Latched t r.2.2 := by
  simp only [zeroCrossChannel]
  split_ifs with en
  · exact of_quiescent rfl
  · exact ⟨nofun, nofun, fun _ => rfl⟩
  · exact ⟨fun _ => rfl, nofun, nofun⟩
  · exact of_quiescent (disabled (by simpa using en))

/-- The rise handler targets the fall, and the flag is clear (43_pulse_scheduler.md R92). -/
theorem compareDispatch (zct n : Tick) (x : Chan) : (compareDispatchChannel zct n x).1.Latched zct false := by
  cases phase : x.ph with
  | quiescent => simpa [compareDispatchChannel, phase] using of_quiescent phase
  | armedForRise =>
    cases late : passed zct x.fallBuf n with
    | false => simpa [compareDispatchChannel, phase, late] using ⟨nofun, nofun, fun _ => rfl⟩
    | true => simpa [compareDispatchChannel, phase, late] using of_quiescent rfl
  | waitingForFall => simpa [compareDispatchChannel, phase] using of_quiescent rfl

end Chan.Latched

/-! ### The agreement of the state -/

/-- Both channels agree. -/
def State.Latched (s : State) : Prop := ∀ c, (s.chan c).Latched s.zct (s.ifl.cmp c)

namespace State.Latched

variable {s t : State}

/-- A step that touches only what belongs to a channel has only that channel to answer for. -/
theorem of_onlyChannel (h : s.Latched) {d : Ch} (only : OnlyChannel d s t) (own : (t.chan d).Latched s.zct (t.ifl.cmp d)) :
    t.Latched := by
  intro c
  have zct : t.zct = s.zct := by simp [only.shared]
  rw [zct]
  rcases eq_or_ne c d with rfl | other
  · exact own
  · obtain ⟨record, -, flag⟩ := only.other other
    rw [record, flag]
    exact h c

theorem respondOk (h : s.Latched) (data : BitVec 32) : (respondOk data s).Latched := fun c => by simpa using h c

theorem raiseFault (h : s.Latched) (k : FaultKind) : (raiseFault k s).Latched := fun c => by simpa using h c

/-- The schedule and what the model notes of an arrival are not read. -/
theorem takeInput (h : s.Latched) (x : Input) (rest : List Input) : (noteInput x { s with inputs := rest }).Latched :=
  fun c => by cases c; exacts [h .A, h .B]

theorem setMapped (h : s.Latched) (c : Ch) (x : ExtReal) : (setMapped c x s).Latched :=
  h.of_onlyChannel (onlyChannel_setMapped c x s) (by
    obtain ⟨armed, matched, target⟩ := h c
    rw [Machine.setMapped, State.chan_setChan_self, State.setChan_ifl]
    exact ⟨armed, matched, target⟩)

theorem exec (h : s.Latched) (inv : s.Inv) {i : Instr} (e : exec i s = .next t) : t.Latched := by
  cases exec_effect e with
  | fault k => exact h.raiseFault k
  | beginCmd _ _ _ _ stopped =>
    refine respondOk (fun c => .of_quiescent ?_) 0
    have rest := ((Chan.Inv.of_inv inv c).rest stopped).1
    cases c <;> exact rest
  | endCmd => exact respondOk (fun c => .of_quiescent (by cases c <;> rfl)) 0
  | forced _ _ d _ level =>
    exact (h.of_onlyChannel (onlyChannel_forceLevel d level s) (.of_quiescent (by cases d <;> rfl))).respondOk 0
  | mapped _ _ d x => exact (h.setMapped d x).respondOk 0
  | getB => exact h.respondOk _
  | dis _ d => exact (h.of_onlyChannel (onlyChannel_disable d s) (.of_quiescent (by cases d <;> rfl))).respondOk 0
  | ignored => exact h
  | tick =>
    intro c
    have zct : (countAndCompare s).zct = s.zct := by simp [tick_shared s]
    obtain ⟨record, flag⟩ := tick_channel s c
    rw [zct, record, flag]
    exact (h c).tick (Chan.Inv.of_inv inv c).com _
  | zc => exact fun c => by cases c; exacts [h .A, h .B]
  | dispatchCapt =>
    intro c
    have zct : (hZc s.tcnt (enterDispatch .capt s)).zct = s.icr := by simp [zeroCross_shared s]
    obtain ⟨record, -, flag⟩ := zeroCross_channel s c
    rw [zct, record, flag]
    exact .zeroCross (fun en => (inv.disabled c en).2.2) ..
  | dispatchCmp d =>
    obtain ⟨record, -, flag⟩ := compareDispatch_channel d s
    exact h.of_onlyChannel (onlyChannel_dispatchCmp d s) (by rw [record, flag]; exact .compareDispatch ..)

theorem step (h : s.Latched) (inv : s.Inv) (e : step s = .next t) : t.Latched := by
  rcases step_cases e with ⟨-, rfl⟩ | ⟨w, rest, -, -, -, rfl⟩ | ⟨x, rest, i, -, -, hexec⟩
  · exact h
  · exact (h.takeInput _ rest).raiseFault .illegal
  · exact (h.takeInput x rest).exec ((inv.withInputs rest).noteInput x) hexec

end State.Latched

/-- Settles O41, by `State.Latched.step`. -/
theorem everyStepKeepsLatchAndTarget : Obligations.EveryStepKeepsLatchAndTarget := by
  intro s t inv h e c
  exact (latched_iff t c).1 (State.Latched.step (fun d => (latched_iff s d).2 (h d)) inv e c)

/-! ### Reachable states -/

theorem Reachable.latched {s : State} (h : Reachable s) : s.Latched := by
  induction h with
  | powerOn p => exact fun c => .of_quiescent (by cases c <;> rfl)
  | arrive x _ ih => exact fun c => by cases c; exacts [ih .A, ih .B]
  | step reachable e ih => exact ih.step reachable.inv e

/-- Settles O44: an enabled dispatch has its flag set, so the fall match has come; the handler then disarms the drive. -/
theorem reachableFallHandlerFindsTheLatchLow : Obligations.ReachableFallHandlerFindsTheLatchLow := by
  intro s reachable
  refine ⟨reachable.inv.zct, fun c phase enabled => ?_⟩
  obtain ⟨-, flag, -⟩ := (dispatchEnabled_iff s (.cmp c)).1 enabled
  refine ⟨(reachable.latched c).matched phase flag, _, exec_compareDispatch enabled, ?_⟩
  have disarmed : ((hCmp c s.tcnt (enterDispatch (.cmp c) s)).chan c).com = .none := by
    rw [(compareDispatch_channel c s).1]
    simp [compareDispatchChannel, phase]
  rw [State.pin, if_neg (not_not.2 disarmed)]

end Sys2Proof.Machine
end

section
/-! PROOF. The waveform of one half-cycle (43_pulse_scheduler.md R96 and section 5): each edge of a pulse that is handled in
time comes on its exact tick after the capture. -/

namespace Sys2Proof.Machine

/-- A pulse: the capture it starts from, and the offsets of its two edges. -/
structure Pulse where
  base : Tick
  rise : Tick
  fall : Tick

/-- The offset of the edge to a level. -/
def Pulse.offset (p : Pulse) (level : Bool) : Tick := if level then p.rise else p.fall

/-- The phase in which the edge to a level is awaited, and stays until the next handler. -/
def edgePhase (level : Bool) : Phase := if level then .armedForRise else .waitingForFall

/-- Channel `c` is in the part of the pulse that its edge to `level` ends or has ended, `elapsed` ticks after the capture: the
latch has the level exactly when the edge's offset has been reached. -/
structure InPulse (c : Ch) (p : Pulse) (level : Bool) (elapsed : Nat) (s : State) : Prop where
  running : s.rs = .running
  zct : s.zct = p.base
  count : s.tcnt = p.base + BitVec.ofNat 16 elapsed
  phase : (s.chan c).ph = edgePhase level
  drive : (s.chan c).com = (edgePhase level).drive
  target : (s.chan c).ocr = p.base + p.offset level
  snapshot : (s.chan c).fallBuf = p.fall
  latch : (s.chan c).ocl = level ↔ (p.offset level).toNat ≤ elapsed

/-- The count modulo 65536 meets an offset when the ticks do, or later, when they have passed it. -/
theorem reached_succ_iff (base offset : Tick) (elapsed : Nat) :
    offset.toNat ≤ elapsed + 1 ↔ base + BitVec.ofNat 16 (elapsed + 1) = base + offset ∨ offset.toNat ≤ elapsed := by
  have small := offset.isLt
  rw [add_right_inj, ← BitVec.toNat_inj, BitVec.toNat_ofNat]
  omega

/-- The latch after a tick, of a channel whose drive is armed for an edge (43_pulse_scheduler.md R85). -/
theorem tick_latch {s : State} {c : Ch} {level : Bool} (drive : (s.chan c).com = (edgePhase level).drive) :
    ((countAndCompare s).chan c).ocl = if s.tcnt + 1 = (s.chan c).ocr then level else (s.chan c).ocl := by
  rw [(tick_channel s c).1, drive]
  cases level <;> simp [edgePhase, Phase.drive]

namespace InPulse

variable {c : Ch} {p : Pulse} {level : Bool} {elapsed : Nat} {s t : State}

/-- The pin shows the latch while the drive is armed (10_state.md R30). -/
theorem pin (h : InPulse c p level elapsed s) : s.pin c = (s.chan c).ocl := by
  have armed : (s.chan c).com ≠ .none := by
    rw [h.drive]
    cases level <;> exact nofun
  rw [State.pin, if_pos armed]

/-- What the model notes of an arrival is not read. -/
theorem noted (h : InPulse c p level elapsed s) (x : Input) : InPulse c p level elapsed (noteInput x s) := by
  obtain ⟨running, zct, count, phase, drive, target, snapshot, latch⟩ := h
  constructor <;> simpa

theorem tick (h : InPulse c p level elapsed s) : InPulse c p level (elapsed + 1) (countAndCompare s) := by
  obtain ⟨rs, -, -, -, -, -, -, -, zct, tcnt, -⟩ := tick_shared s
  obtain ⟨record, -⟩ := tick_channel s c
  have count : s.tcnt + 1 = p.base + BitVec.ofNat 16 (elapsed + 1) := by
    rw [h.count, BitVec.ofNat_add, add_assoc]
    rfl
  refine ⟨rs.trans h.running, zct.trans h.zct, tcnt.trans count, by rw [record]; exact h.phase, by rw [record]; exact h.drive,
    by rw [record]; exact h.target, by rw [record]; exact h.snapshot, ?_⟩
  rw [tick_latch h.drive, count, h.target, reached_succ_iff p.base, ← h.latch]
  split_ifs with hit <;> simp [hit]

/-- A step that leaves the channel alone takes the pulse on, by one tick if it is a `TICK`. -/
theorem of_runInstr (h : InPulse c p level elapsed s) {i : Instr} (quiet : LeavesArmed c i s)
    (runs : runInstr i s = .next t) : InPulse c p level (elapsed + tickCount [i]) t := by
  obtain ⟨rs, ph, com, ocr, fallBuf, zct, other, ticks⟩ := leavesArmed_runInstr h.running quiet runs
  by_cases hi : i = .tick
  · subst hi
    rw [ticks rfl]
    exact (h.noted _).tick
  · obtain ⟨ocl, tcnt⟩ := other hi
    have none : tickCount [i] = 0 := by simp [tickCount, hi]
    rw [none]
    exact ⟨rs, zct.trans h.zct, tcnt.trans h.count, ph.trans h.phase, com.trans h.drive, ocr.trans h.target,
      fallBuf.trans h.snapshot, by rw [ocl]; exact h.latch⟩

theorem of_quietRun {steps : List Instr} (h : InPulse c p level elapsed s) (run : QuietRun c s steps t) :
    InPulse c p level (elapsed + tickCount steps) t := by
  induction run generalizing elapsed with
  | nil => exact h
  | @cons _ _ _ i rest quiet runs _ ih =>
    have total : tickCount (i :: rest) = tickCount [i] + tickCount rest := List.count_append (l₁ := [i]) ..
    rw [total, ← add_assoc]
    exact ih (h.of_runInstr quiet runs)

/-- A zero-cross handler that runs before the rise offset starts the pulse, its latch low (43_pulse_scheduler.md R88, R90). -/
theorem of_zeroCross (running : s.rs = .running) (en : (s.chan c).en = true)
    (early : (s.tcnt - s.icr).toNat < (s.chan c).rise.toNat) :
    InPulse c ⟨s.icr, (s.chan c).rise, (s.chan c).fall⟩ true (s.tcnt - s.icr).toNat (hZc s.tcnt (enterDispatch .capt s)) := by
  obtain ⟨rs, -, -, -, -, -, -, -, zct, tcnt, -⟩ := zeroCross_shared s
  obtain ⟨record, -⟩ := zeroCross_channel s c
  simp only [zeroCrossChannel, en, if_true, (passed_false_iff s.icr _ s.tcnt).2 early, Bool.false_eq_true, if_false] at record
  have count : s.tcnt = s.icr + BitVec.ofNat 16 (s.tcnt - s.icr).toNat := by
    rw [BitVec.ofNat_toNat, BitVec.setWidth_eq, add_sub_cancel]
  refine ⟨rs.trans running, zct, tcnt.trans count, ?_, ?_, ?_, ?_, ?_⟩ <;> rw [record]
  · rfl
  · rfl
  · rfl
  · exact iff_of_false nofun early.not_ge

/-- A compare handler that runs between the offsets turns the channel to its fall, its latch still high
(43_pulse_scheduler.md R92). -/
theorem compareDispatch (h : InPulse c p true elapsed s) (risen : p.rise.toNat ≤ elapsed) (early : elapsed < p.fall.toNat) :
    InPulse c p false elapsed (hCmp c s.tcnt (enterDispatch (.cmp c) s)) := by
  obtain ⟨rs, -, -, -, -, -, -, -, zct, tcnt, -⟩ := (onlyChannel_dispatchCmp c s).shared
  obtain ⟨record, -⟩ := compareDispatch_channel c s
  have notPassed : passed s.zct (s.chan c).fallBuf s.tcnt = false := by
    rw [passed_false_iff, h.zct, h.count, h.snapshot, add_sub_cancel_left, BitVec.toNat_ofNat]
    exact (Nat.mod_le ..).trans_lt early
  have phase : (s.chan c).ph = .armedForRise := h.phase
  have high : (s.chan c).ocl = true := h.latch.2 risen
  simp only [compareDispatchChannel, phase, notPassed, Bool.false_eq_true, if_false] at record
  refine ⟨rs.trans h.running, zct.trans h.zct, tcnt.trans h.count, ?_, ?_, ?_, ?_, ?_⟩ <;> rw [record]
  · rfl
  · rfl
  · exact congrArg₂ (· + ·) h.zct h.snapshot
  · exact h.snapshot
  · exact iff_of_false (by simp [high]) early.not_ge

/-! ### The two handlers as steps of the machine -/

theorem start (runs : runInstr .dispatchCapt s = .next t) (en : (s.chan c).en = true)
    (early : (s.tcnt - s.icr).toNat < (s.chan c).rise.toNat) :
    InPulse c ⟨s.icr, (s.chan c).rise, (s.chan c).fall⟩ true (s.tcnt - s.icr).toNat t := by
  rw [runInstr, exec_dispatchCapt, dispatch_eq_next_iff] at runs
  obtain ⟨enabled, rfl⟩ := runs
  obtain ⟨running, -⟩ := (dispatchEnabled_iff _ .capt).1 enabled
  have chan := State.chan_noteInput (encode .dispatchCapt) s c
  have begun := of_zeroCross (c := c) running (by rwa [chan]) (by rw [chan]; exact early)
  rw [chan] at begun
  exact begun

theorem turn (h : InPulse c p true elapsed s) (risen : p.rise.toNat ≤ elapsed) (early : elapsed < p.fall.toNat)
    (runs : runInstr (Instr.dispatch (.cmp c)) s = .next t) : InPulse c p false elapsed t := by
  rw [runInstr, exec_dispatch, dispatch_eq_next_iff] at runs
  obtain ⟨-, rfl⟩ := runs
  exact (h.noted _).compareDispatch risen early

end InPulse

/-- Settles O45: the handler starts the pulse, and the quiet run takes it on to its rising edge. -/
theorem riseComesOnItsExactTick : Obligations.RiseComesOnItsExactTick := by
  intro c s0 s t steps capture en early quiet
  have h := (InPulse.start capture en early).of_quietRun quiet
  exact ⟨h.phase, h.pin, h.latch⟩

/-- Settles O46: the pulse is high when the compare handler turns it to its fall, and low from that edge on. -/
theorem onTimePulseFallsOnItsExactTick : Obligations.OnTimePulseFallsOnItsExactTick := by
  intro c s0 s1 s2 s3 s4 before after capture en early quietBefore risen notFallen compare quietAfter
  have rising := (InPulse.start capture en early).of_quietRun quietBefore
  have falling := (rising.turn risen notFallen compare).of_quietRun quietAfter
  refine ⟨falling.phase, falling.pin, ?_⟩
  rw [← Bool.not_eq_false, falling.latch, not_le]
  rfl

end Sys2Proof.Machine
end

section
/-! PROOF. Isolation (43_pulse_scheduler.md R99, R85, R90, R91): a disabled channel stays as `DIS` left it, and no channel's
state influences the rest of the block. -/

namespace Sys2Proof.Machine

/-! ### A disabled channel -/

/-- Channel `c` is disabled and at rest, with the static level `level`. -/
structure LeftDisabled (c : Ch) (level : Bool) (s : State) : Prop where
  en : (s.chan c).en = false
  static : (s.chan c).static = level
  phase : (s.chan c).ph = .quiescent
  drive : (s.chan c).com = .none
  enable : s.ie.cmp c = false

namespace LeftDisabled

variable {c : Ch} {level : Bool} {s t : State}

theorem pin (h : LeftDisabled c level s) : s.pin c = level := by
  rw [State.pin, if_neg (not_not.2 h.drive), h.static]

/-- Only the record and the enable are read. -/
theorem congr (h : LeftDisabled c level s) (chan : t.chan c = s.chan c) (ie : t.ie.cmp c = s.ie.cmp c) :
    LeftDisabled c level t := by
  obtain ⟨en, static, phase, drive, enable⟩ := h
  exact ⟨by rwa [chan], by rwa [chan], by rwa [chan], by rwa [chan], by rwa [ie]⟩

theorem respondOk (h : LeftDisabled c level s) (data : BitVec 32) : LeftDisabled c level (respondOk data s) :=
  h.congr (State.chan_respondOk ..) rfl

/-- A step that touches only what belongs to the other channel. -/
theorem of_onlyChannel (h : LeftDisabled c level s) {d : Ch} (only : OnlyChannel d s t) (other : c ≠ d) :
    LeftDisabled c level t := by
  obtain ⟨record, enable, -⟩ := only.other other
  exact h.congr record enable

/-- `Disable(c)` keeps the static level (42_channel_control_facade.md R80). -/
theorem disable (c : Ch) (s : State) : LeftDisabled c (s.chan c).static (disable c s) := by
  rw [disable_eq]
  cases c <;> exact ⟨rfl, rfl, rfl, rfl, rfl⟩

/-- No instruction but a `SETB` of the channel moves it: the zero-cross handler arms no disabled channel, and its own handler
is not enabled. -/
theorem exec (h : LeftDisabled c level s) {i : Instr} (notSetB : ∀ ch value, i = .setB ch value → ¬ Names ch c)
    (e : exec i s = .next t) : LeftDisabled c level t := by
  cases exec_effect e with
  | fault k => exact h.congr (State.chan_raiseFault ..) rfl
  | beginCmd =>
    obtain ⟨en, static, phase, -⟩ := h
    cases c <;> exact ⟨en, static, phase, rfl, rfl⟩
  | endCmd =>
    obtain ⟨en, static, -⟩ := h
    cases c <;> exact ⟨en, static, rfl, rfl, rfl⟩
  | forced ch value d _ level' _ names =>
    have other : c ≠ d := by rintro rfl; exact notSetB ch value rfl names
    exact (h.of_onlyChannel (onlyChannel_forceLevel d level' s) other).respondOk 0
  | mapped ch value d x _ names =>
    have other : c ≠ d := by rintro rfl; exact notSetB ch value rfl names
    exact (h.of_onlyChannel (onlyChannel_setMapped d x s) other).respondOk 0
  | getB => exact h.respondOk _
  | dis _ d =>
    rcases eq_or_ne c d with rfl | other
    · exact (h.static ▸ disable c s).respondOk 0
    · exact (h.of_onlyChannel (onlyChannel_disable d s) other).respondOk 0
  | ignored => exact h
  | tick =>
    have ie : (countAndCompare s).ie = s.ie := by simp [tick_shared s]
    obtain ⟨en, static, phase, drive, enable⟩ := h
    refine ⟨?_, ?_, ?_, ?_, by rwa [ie]⟩ <;> rw [(tick_channel s c).1]
    exacts [en, static, phase, drive]
  | zc => exact h.congr (by cases c <;> rfl) rfl
  | dispatchCapt =>
    obtain ⟨record, enable', -⟩ := zeroCross_channel s c
    obtain ⟨en, static, phase, drive, enable⟩ := h
    simp only [zeroCrossChannel, en, Bool.false_eq_true, if_false] at record enable'
    refine ⟨?_, ?_, ?_, ?_, enable'.trans enable⟩ <;> rw [record]
    exacts [static, phase, drive]
  | dispatchCmp d _ enabled =>
    have other : c ≠ d := by
      rintro rfl
      obtain ⟨-, -, enable, -⟩ := (dispatchEnabled_iff s (.cmp c)).1 enabled
      exact absurd (h.enable.symm.trans enable) nofun
    exact h.of_onlyChannel (onlyChannel_dispatchCmp d s) other

theorem of_runSteps (h : LeftDisabled c level s) {steps : List Instr}
    (notSetB : ∀ i ∈ steps, ∀ ch value, i = .setB ch value → ¬ Names ch c) (runs : runSteps steps s = .next t) :
    LeftDisabled c level t := by
  induction steps generalizing s with
  | nil => cases runs; exact h
  | cons i rest ih =>
    obtain ⟨u, first, runs⟩ := runSteps_cons_eq_next.1 runs
    have noted : LeftDisabled c level (noteInput (encode i) s) := h.congr (State.chan_noteInput ..) rfl
    exact ih (noted.exec (notSetB i List.mem_cons_self) first) (fun j hj => notSetB j (List.mem_cons_of_mem i hj)) runs

end LeftDisabled

/-- Settles O47: `DIS` leaves the channel disabled, and the run keeps it so. -/
theorem disabledChannelStaysUntouched : Obligations.DisabledChannelStaysUntouched := by
  intro c ch s t u steps names configured dis notSetB runs
  rw [runInstr, exec_dis_eq, facade_named (s := noteInput (encode (.dis ch)) s) configured names] at dis
  cases dis
  have left := ((LeftDisabled.disable c (noteInput (encode (.dis ch)) s)).respondOk 0).of_runSteps notSetB runs
  rw [State.chan_noteInput] at left
  exact ⟨left.pin, left.phase, left.drive, left.enable⟩

/-! ### What a step does outside a channel -/

/-- The state without what belongs to channel `c`, and without the response. -/
def State.without (c : Ch) (s : State) : State :=
  { s.setChan c Chan.reset with ie := s.ie.setCmp c false, ifl := s.ifl.setCmp c false, rsp := Option.none }

@[simp] theorem State.without_rs (c : Ch) (s : State) : (s.without c).rs = s.rs := by cases c <;> rfl

@[simp] theorem State.without_period (c : Ch) (s : State) : (s.without c).period = s.period := by cases c <;> rfl

@[simp] theorem State.without_cfgOnThresh (c : Ch) (s : State) : (s.without c).cfgOnThresh = s.cfgOnThresh := by
  cases c <;> rfl

@[simp] theorem State.without_cfgOffThresh (c : Ch) (s : State) : (s.without c).cfgOffThresh = s.cfgOffThresh := by
  cases c <;> rfl

/-- What is left out makes up the rest of the state. -/
theorem State.eq_restored (s : State) (c : Ch) : s =
    { (s.without c).setChan c (s.chan c) with
      ie := (s.without c).ie.setCmp c (s.ie.cmp c), ifl := (s.without c).ifl.setCmp c (s.ifl.cmp c), rsp := s.rsp } := by
  cases c <;> rfl

theorem sameButChannel_iff (c : Ch) (s t : State) : SameButChannel c s t ↔ t.without c = s.without c := by
  constructor
  · rintro ⟨x, e, f, r, rfl⟩
    cases c <;> rfl
  · intro h
    refine ⟨t.chan c, t.ie.cmp c, t.ifl.cmp c, t.rsp, t.eq_restored c |>.trans ?_⟩
    rw [h]
    cases c <;> rfl

/-- Outside channel `c`, the result of `f` does not depend on what belongs to `c`. -/
def Blind (c : Ch) (f : State → State) : Prop := ∀ s, (f s).without c = (f (s.without c)).without c

namespace Blind

variable {c : Ch} {f g : State → State}

theorem unchanged : Blind c fun s => s := fun s => by cases c <;> rfl

theorem raiseFault (k : FaultKind) : Blind c (raiseFault k) := fun s => by cases c <;> rfl

/-- The response is left out, so its data may depend on the channel. -/
theorem respondOk (hf : Blind c f) (data : State → BitVec 32) : Blind c fun s => respondOk (data s) (f s) := by
  intro s
  have left (d : BitVec 32) (u : State) : (Machine.respondOk d u).without c = u.without c := by cases c <;> rfl
  rw [left, left, hf s]

/-- A test of what belongs to no channel chooses between blind results. -/
theorem ite {p : State → Prop} [DecidablePred p] (hp : ∀ s, p (s.without c) ↔ p s) (hf : Blind c f) (hg : Blind c g) :
    Blind c fun s => if p s then f s else g s := by
  intro s
  by_cases h : p s
  · simp only [hp, h, if_true, hf s]
  · simp only [hp, h, if_false, hg s]

/-- The common checks of the facade commands. -/
theorem facade {body : Ch → State → State} (hbody : ∀ d, Blind c (body d)) (ch : Byte) :
    Blind c fun s => if s.rs = .unconfigured then Machine.raiseFault .state s
      else (chanOf ch).elim (Machine.raiseFault .chan s) fun d => body d s := by
  refine ite (by simp) (raiseFault .state) ?_
  cases chanOf ch with
  | none => exact raiseFault .chan
  | some d => exact hbody d

theorem setBrightness (d : Ch) (x : ExtReal) : Blind c (setBrightness d x) := by
  have forced (level : Bool) : Blind c (forceLevel d level) := by
    intro s
    simp only [forceLevel_eq]
    cases c <;> cases d <;> rfl
  have mapped : Blind c (setMapped d x) := fun s => by cases c <;> cases d <;> rfl
  exact ite (by simp) (forced true) (ite (by simp) (forced false) mapped)

theorem disable (d : Ch) : Blind c (disable d) := fun s => by cases c <;> cases d <;> rfl

theorem countAndCompare : Blind c countAndCompare := by
  intro s
  simp only [Machine.countAndCompare, compareChannel_eq]
  cases c <;> rfl

theorem zeroCross : Blind c fun s => hZc s.tcnt (enterDispatch .capt s) := by
  intro s
  simp only [hZc_eq]
  cases c <;> rfl

theorem compareDispatch (d : Ch) : Blind c fun s => hCmp d s.tcnt (enterDispatch (.cmp d) s) := by
  intro s
  simp only [compareDispatch_eq]
  cases c <;> cases d <;> rfl

end Blind

/-- Every next state of an instruction is a blind function of the state before it. -/
theorem exec_blind (c : Ch) (i : Instr) : ∃ f, Blind c f ∧ ∀ s t, exec i s = .next t → t = f s := by
  have total {f : State → State} (hf : Blind c f) (e : ∀ s, exec i s = .next (f s)) :
      ∃ f, Blind c f ∧ ∀ s t, exec i s = .next t → t = f s :=
    ⟨f, hf, fun s t h => by rw [e] at h; exact (Host.Outcome.next.inj h).symm⟩
  cases i with
  | beginCmd pl mto on off =>
    exact total (.ite (by simp) (.raiseFault .state) (.respondOk (fun s => by cases c <;> rfl) _)) (exec_beginCmd pl mto on off)
  | endCmd => exact total (.respondOk (fun s => by cases c <;> rfl) _) exec_endCmd
  | setB ch value =>
    refine total (.facade (fun d => ?_) ch) (exec_setB_eq ch value)
    cases val value with
    | none => exact .raiseFault .value
    | some x => exact .respondOk (.setBrightness d x) _
  | getB ch =>
    exact total (.facade (fun d => .ite (by simp) (.raiseFault .div0) (.respondOk .unchanged _)) ch) (exec_getB_eq ch)
  | dis ch => exact total (.facade (fun d => .respondOk (.disable d) _) ch) (exec_dis_eq ch)
  | tick =>
    refine total (f := fun s => if s.rs = .running then countAndCompare s else s) (.ite (by simp) .countAndCompare .unchanged)
      fun s => ?_
    split_ifs with running
    exacts [exec_tick_running running, exec_tick_stopped running]
  | zc =>
    refine total (f := fun s => if s.rs = .running then { s with icr := s.tcnt, ifl := { s.ifl with capt := true } } else s)
      (.ite (by simp) (fun s => by cases c <;> rfl) .unchanged) fun s => ?_
    split_ifs with running
    exacts [exec_zc_running running, exec_zc_stopped running]
  | dispatchCapt => exact ⟨_, .zeroCross, fun s t h => ((dispatch_eq_next_iff .capt s t).1 h).2⟩
  | dispatchA => exact ⟨_, .compareDispatch .A, fun s t h => ((dispatch_eq_next_iff (.cmp .A) s t).1 h).2⟩
  | dispatchB => exact ⟨_, .compareDispatch .B, fun s t h => ((dispatch_eq_next_iff (.cmp .B) s t).1 h).2⟩

/-- Settles O48: a blind function takes states that agree outside the channel to states that agree there. -/
theorem channelsDoNotInfluenceEachOther : Obligations.ChannelsDoNotInfluenceEachOther := by
  intro c i s s' t t' same h h'
  obtain ⟨f, blind, next⟩ := exec_blind c i
  rw [sameButChannel_iff] at same ⊢
  rw [next s t h, next s' t' h', blind s, blind s', same]

end Sys2Proof.Machine
end

section
/-! PROOF. The system interface (44_system_interface.md R100 to R102): the whole next state of `BEGIN` and `END`, and the
run-state transitions. -/

namespace Sys2Proof.Machine

/-! ### `BEGIN` and `END` -/

/-- Settles O15, by the two cases of `exec_beginCmd`. -/
theorem beginFollowsItsRule : Obligations.BeginFollowsItsRule := by
  intro s pl mto on off
  rw [exec_beginCmd]
  refine ⟨fun running => ?_, fun stopped => ?_⟩
  · rw [if_pos running]
    rfl
  · rw [if_neg stopped]
    rfl

/-- Settles O16, by `exec_endCmd`. -/
theorem endFollowsItsRule : Obligations.EndFollowsItsRule := exec_endCmd

/-- Outside RUNNING a channel holds already what `END` writes into it (10_state.md R33, R34). -/
theorem Chan.Inv.resetQuiet_eq {rs : RunState} {x : Chan} {ie f : Bool} (h : x.Inv rs ie f) (stopped : rs ≠ .running) :
    { x.resetUnit with ph := .quiescent } = x := by
  obtain ⟨ph, ocr, ocl, -⟩ := h.rest stopped
  have com : x.com = .none := by rw [h.com, ph]; rfl
  rw [Chan.resetUnit, ← ph, ← ocr, ← ocl, ← com]

/-- Settles O17: what `END` writes is what the invariants ask of a state outside RUNNING. -/
theorem endOutsideRunningChangesNothing : Obligations.EndOutsideRunningChangesNothing := by
  intro s inv stopped
  obtain ⟨ie, ifl, tcnt, icr, -⟩ := inv.stopped stopped
  have chA : { s.chA.resetUnit with ph := .quiescent } = s.chA := (Chan.Inv.of_inv inv .A).resetQuiet_eq stopped
  have chB : { s.chB.resetUnit with ph := .quiescent } = s.chB := (Chan.Inv.of_inv inv .B).resetQuiet_eq stopped
  rw [exec_endCmd, if_neg stopped, chA, chB]
  simp [respondOk, ie, ifl, tcnt, icr]

/-! ### The run state (44_system_interface.md R102) -/

/-- No event step writes the run state. -/
theorem exec_event_keeps_rs {i : Instr} {s t : State} (event : i.isCommand = false) (h : exec i s = .next t) :
    t.rs = s.rs := by
  cases exec_effect h with
  | fault _ command => simp [event] at command
  | beginCmd | endCmd | forced | mapped | getB | dis => cases event
  | ignored | zc => rfl
  | tick => exact (tick_shared s).1
  | dispatchCapt => exact (zeroCross_shared s).1
  | dispatchCmp c => exact (onlyChannel_dispatchCmp c s).shared.1

/-- What R102 says of a facade command: it keeps the run state, and answers STATE exactly in UNCONFIGURED, else OK or a fault
of its own rule (42_channel_control_facade.md R81, R82, R84). -/
def FacadeAnswer (i : Instr) (s : State) : Prop :=
  ∃ (t : State) (r : Response), exec i s = .next t ∧ t.rsp = some r ∧ t.rs = s.rs ∧
    (s.rs = .unconfigured ↔ r.status = .state) ∧
    (r.status = .ok ∨ r.status = .state ∨ r.status = .chan ∨ (r.status = .value ∧ ∃ ch value, i = .setB ch value) ∨
      (r.status = .div0 ∧ ∃ ch, i = .getB ch))

namespace FacadeAnswer

variable {i : Instr} {s u : State} {d : BitVec 32}

theorem of_unconfigured (unconfigured : s.rs = .unconfigured) (runs : exec i s = .next (raiseFault .state s)) :
    FacadeAnswer i s :=
  ⟨_, _, runs, rfl, rfl, iff_of_true unconfigured rfl, .inr (.inl rfl)⟩

theorem of_chan (configured : s.rs ≠ .unconfigured) (runs : exec i s = .next (raiseFault .chan s)) : FacadeAnswer i s :=
  ⟨_, _, runs, rfl, rfl, iff_of_false configured nofun, .inr (.inr (.inl rfl))⟩

theorem of_ok (configured : s.rs ≠ .unconfigured) (runs : exec i s = .next (respondOk d u)) (kept : u.rs = s.rs) :
    FacadeAnswer i s :=
  ⟨_, _, runs, rfl, kept, iff_of_false configured nofun, .inl rfl⟩

theorem setB (ch : Byte) (value : F32) (s : State) : FacadeAnswer (.setB ch value) s := by
  rcases exec_setB_cases ch value s with ⟨hr, e⟩ | ⟨hr, -, e⟩ | ⟨_, hr, -, -, e⟩ | ⟨c, x, hr, -, -, e⟩
  · exact .of_unconfigured hr e
  · exact .of_chan hr e
  · exact ⟨_, _, e, rfl, rfl, iff_of_false hr nofun, by simp [FaultKind.status]⟩
  · exact .of_ok hr e (onlyChannel_setBrightness c x s).shared.1

theorem getB (ch : Byte) (s : State) : FacadeAnswer (.getB ch) s := by
  rcases exec_getB_cases ch s with ⟨hr, e⟩ | ⟨hr, -, e⟩ | ⟨_, hr, -, -, e⟩ | ⟨_, hr, -, -, e⟩
  · exact .of_unconfigured hr e
  · exact .of_chan hr e
  · exact ⟨_, _, e, rfl, rfl, iff_of_false hr nofun, by simp [FaultKind.status]⟩
  · exact .of_ok hr e rfl

theorem dis (ch : Byte) (s : State) : FacadeAnswer (.dis ch) s := by
  rcases exec_dis_cases ch s with ⟨hr, e⟩ | ⟨hr, -, e⟩ | ⟨c, hr, -, e⟩
  · exact .of_unconfigured hr e
  · exact .of_chan hr e
  · exact .of_ok hr e (onlyChannel_disable c s).shared.1

end FacadeAnswer

/-- Settles O14, by the rules of `BEGIN` and `END`, the answers of the facade commands, and what an event step keeps. -/
theorem runStateTransitions : Obligations.RunStateTransitions := by
  refine ⟨fun s pl mto on off => ?_, fun s => ⟨_, _, endFollowsItsRule s, rfl, rfl, rfl⟩, fun s i facade => ?_,
    fun _ _ _ => exec_event_keeps_rs, fun s t w rest e arrival decoded runs => ?_, fun _ => rfl⟩
  · obtain ⟨refuses, configures⟩ := beginFollowsItsRule s pl mto on off
    by_cases running : s.rs = .running
    · exact ⟨_, _, refuses running, rfl, running, (if_pos running).symm⟩
    · exact ⟨_, _, configures running, rfl, rfl, (if_neg running).symm⟩
  · rcases facade with ⟨ch, value, rfl⟩ | ⟨ch, rfl⟩ | ⟨ch, rfl⟩
    · exact FacadeAnswer.setB ch value s
    · exact FacadeAnswer.getB ch s
    · exact FacadeAnswer.dis ch s
  · rw [illegalWordRaisesIllegal s w rest e arrival decoded] at runs
    cases runs
    rfl

end Sys2Proof.Machine
end

section
/-! PROOF. Faults and dispatch (60_exceptions.md): faults are precise and sticky, what writes the flags and the enables of
the sources, and when a dispatch is a step of the block. -/

namespace Sys2Proof.Machine

/-! ### Faults (60_exceptions.md R103, R104) -/

/-- An instruction is a command that raises a fault, or it keeps `FAULT`; an event keeps the response port too. -/
theorem exec_fault_cases {i : Instr} {s t : State} (h : exec i s = .next t) :
    (i.isCommand = true ∧ ∃ k, t = raiseFault k s) ∨
    (t.fault = s.fault ∧ (i.isCommand = false → t.rsp = s.rsp)) := by
  cases exec_effect h with
  | fault k command => exact .inl ⟨command, k, rfl⟩
  | beginCmd | endCmd | getB => exact .inr ⟨rfl, nofun⟩
  | forced _ _ c _ level => exact .inr ⟨by simp [(onlyChannel_forceLevel c level s).shared], nofun⟩
  | mapped _ _ c x => exact .inr ⟨by simp [(onlyChannel_setMapped c x s).shared], nofun⟩
  | dis _ c => exact .inr ⟨by simp [(onlyChannel_disable c s).shared], nofun⟩
  | ignored | zc => exact .inr ⟨rfl, fun _ => rfl⟩
  | tick => exact .inr (by simp [tick_shared s])
  | dispatchCapt => exact .inr (by simp [zeroCross_shared s])
  | dispatchCmp c => exact .inr (by simp [(onlyChannel_dispatchCmp c s).shared])

/-- Raising a fault clears no bit of `FAULT`. -/
theorem and_fault_raiseFault (k : FaultKind) (s : State) : s.fault &&& (raiseFault k s).fault = s.fault := by
  rw [State.raiseFault_fault]
  ext
  simp +contextual

/-- No instruction clears a bit of `FAULT`. -/
theorem exec_fault_sticky {i : Instr} {s t : State} (h : exec i s = .next t) : s.fault &&& t.fault = s.fault := by
  rcases exec_fault_cases h with ⟨-, k, rfl⟩ | ⟨kept, -⟩
  · exact and_fault_raiseFault k s
  · rw [kept, BitVec.and_self]

/-- Settles O12: a command that does not answer OK raised its fault, and neither a fault nor an instruction clears a bit. -/
theorem faultsArePreciseAndSticky : Obligations.FaultsArePreciseAndSticky := by
  refine ⟨fun i s t r command runs answered notOk => ?_, fun s t runs => ?_⟩
  · rcases exec_command_cases command s with ⟨k, -, faults⟩ | ⟨d, u, answersOk, -⟩
    · cases runs.symm.trans faults
      cases answered
      exact ⟨k, faultData k s, rfl, faultData_eq_zero s, rfl⟩
    · cases runs.symm.trans answersOk
      cases answered
      exact absurd rfl notOk
  · rcases step_cases runs with ⟨-, rfl⟩ | ⟨w, rest, -, -, -, rfl⟩ | ⟨x, rest, i, -, -, executes⟩
    · exact BitVec.and_self
    · exact and_fault_raiseFault .illegal (noteInput (.cmd w) { s with inputs := rest })
    · exact exec_fault_sticky (s := noteInput x { s with inputs := rest }) executes

/-- Settles O13: only a fault writes `FAULT`, and its response is not OK. -/
theorem onlyFaultingCommandsTouchFault : Obligations.OnlyFaultingCommandsTouchFault := by
  intro i s t h
  obtain ⟨-, -, draws⟩ := exec_keeps_arrivals h
  rcases exec_fault_cases h with ⟨command, k, rfl⟩ | ⟨fault, port⟩
  · refine ⟨fun event => absurd (command.symm.trans event) nofun, fun r _ answered ok => ?_⟩
    cases answered
    exact absurd ok k.status_ne_ok
  · exact ⟨fun event => ⟨fault, port event, draws⟩, fun _ _ _ _ => ⟨fault, draws⟩⟩

/-! ### The flags and the enables of the sources (60_exceptions.md R106) -/

/-- What an instruction makes of the flag and the enable of the capture source. -/
theorem exec_capture_cases {i : Instr} {s t : State} (h : exec i s = .next t) :
    (t.ifl.capt = s.ifl.capt ∧ t.ie.capt = s.ie.capt) ∨
    ((i = .zc ∧ s.rs = .running) ∧ t.ifl.capt = true ∧ t.ie.capt = s.ie.capt) ∨
    (i = .dispatchCapt ∧ t.ifl.capt = false ∧ t.ie.capt = s.ie.capt) ∨
    (i = .endCmd ∧ t.ifl.capt = false ∧ t.ie.capt = false) ∨
    ((∃ pl mto on off, i = .beginCmd pl mto on off) ∧ t.ifl.capt = false ∧ t.ie.capt = true) := by
  have only {c : Ch} {u : State} (k : OnlyChannel c s u) : u.ifl.capt = s.ifl.capt ∧ u.ie.capt = s.ie.capt := by
    simp [k.shared]
  cases exec_effect h with
  | fault | getB | ignored => exact .inl ⟨rfl, rfl⟩
  | beginCmd pl mto on off => exact .inr (.inr (.inr (.inr ⟨⟨pl, mto, on, off, rfl⟩, rfl, rfl⟩)))
  | endCmd => exact .inr (.inr (.inr (.inl ⟨rfl, rfl, rfl⟩)))
  | forced _ _ c _ level => exact .inl (by simpa using only (onlyChannel_forceLevel c level s))
  | mapped _ _ c x => exact .inl (by simpa using only (onlyChannel_setMapped c x s))
  | dis _ c => exact .inl (by simpa using only (onlyChannel_disable c s))
  | tick => exact .inl (by simp [tick_shared s])
  | zc running => exact .inr (.inl ⟨⟨rfl, running⟩, rfl, rfl⟩)
  | dispatchCapt => exact .inr (.inr (.inl (by simp [zeroCross_shared s])))
  | dispatchCmp c => exact .inl (only (onlyChannel_dispatchCmp c s))

/-- The commands that may clear the flag and the enable of the compare source of channel `c`. -/
def QuietsCompare (c : Ch) (i : Instr) : Prop :=
  i = .endCmd ∨ (∃ pl mto on off, i = .beginCmd pl mto on off) ∨ (∃ ch, Names ch c ∧ i = .dis ch) ∨
    ∃ ch value, Names ch c ∧ i = .setB ch value

/-- What an instruction makes of the flag and the enable of the compare source of channel `c`. -/
theorem exec_compare_cases {i : Instr} {s t : State} (h : exec i s = .next t) (c : Ch) :
    (t.ifl.cmp c = s.ifl.cmp c ∧ t.ie.cmp c = s.ie.cmp c) ∨
    (i = .tick ∧ t.ifl.cmp c = (s.ifl.cmp c || t.tcnt == (s.chan c).ocr) ∧ t.ie.cmp c = s.ie.cmp c) ∨
    ((i = .dispatchCapt ∧ (s.chan c).en = true) ∧ t.ifl.cmp c = false) ∨
    (i = Instr.dispatch (.cmp c) ∧ s.ie.cmp c = true ∧ t.ifl.cmp c = false) ∨
    (QuietsCompare c i ∧ t.ifl.cmp c = false ∧ t.ie.cmp c = false) := by
  cases exec_effect h with
  | fault | getB | ignored => exact .inl ⟨rfl, rfl⟩
  | beginCmd pl mto on off =>
    exact .inr (.inr (.inr (.inr ⟨.inr (.inl ⟨pl, mto, on, off, rfl⟩), by cases c <;> exact ⟨rfl, rfl⟩⟩)))
  | endCmd => exact .inr (.inr (.inr (.inr ⟨.inl rfl, by cases c <;> exact ⟨rfl, rfl⟩⟩)))
  | forced ch value d _ level _ names =>
    rcases eq_or_ne c d with rfl | other
    · exact .inr (.inr (.inr (.inr ⟨.inr (.inr (.inr ⟨ch, value, names, rfl⟩)), by simp [forceLevel_eq]⟩)))
    · exact .inl ((onlyChannel_forceLevel d level s).other other).2.symm
  | mapped _ _ d x => exact .inl (by simp [setMapped])
  | dis ch d _ names =>
    rcases eq_or_ne c d with rfl | other
    · exact .inr (.inr (.inr (.inr ⟨.inr (.inr (.inl ⟨ch, names, rfl⟩)), by simp [disable_eq]⟩)))
    · exact .inl ((onlyChannel_disable d s).other other).2.symm
  | tick =>
    obtain ⟨-, flag⟩ := tick_channel s c
    exact .inr (.inl ⟨rfl, by simp [flag, tick_shared s]⟩)
  | zc => exact .inl ⟨SourceBits.cmp_captUpdate .., rfl⟩
  | dispatchCapt =>
    obtain ⟨-, enable, flag⟩ := zeroCross_channel s c
    cases en : (s.chan c).en with
    | false => exact .inl (by simp [enable, flag, zeroCrossChannel, en])
    | true => exact .inr (.inr (.inl ⟨⟨rfl, rfl⟩, by simp [flag, zeroCrossChannel_flag, en]⟩))
  | dispatchCmp d dispatched enabled =>
    rcases eq_or_ne c d with rfl | other
    · obtain ⟨-, -, ie, -⟩ := (dispatchEnabled_iff s (.cmp c)).1 enabled
      exact .inr (.inr (.inr (.inl ⟨dispatched, ie, (compareDispatch_channel c s).2.2⟩)))
    · exact .inl ((onlyChannel_dispatchCmp d s).other other).2.symm

/-- The rows of the capture source: in each case the bits that change are those the table gives the step. -/
theorem exec_capture_table {i : Instr} {s t : State} (h : exec i s = .next t) :
    (s.ifl.capt = false → t.ifl.capt = true → i = .zc ∧ s.rs = .running) ∧
    (s.ifl.capt = true → t.ifl.capt = false →
      i = .dispatchCapt ∨ i = .endCmd ∨ ∃ pl mto on off, i = .beginCmd pl mto on off) ∧
    (s.ie.capt = false → t.ie.capt = true → ∃ pl mto on off, i = .beginCmd pl mto on off) ∧
    (s.ie.capt = true → t.ie.capt = false → i = .endCmd) := by
  rcases exec_capture_cases h with ⟨flag, enable⟩ | ⟨hi, flag, enable⟩ | ⟨hi, flag, enable⟩ | ⟨hi, flag, enable⟩ |
    ⟨hi, flag, enable⟩
  · simp +contextual [flag, enable]
  · exact ⟨fun _ _ => hi, by simp [flag], by simp +contextual [enable], by simp +contextual [enable]⟩
  · exact ⟨by simp [flag], fun _ _ => .inl hi, by simp +contextual [enable], by simp +contextual [enable]⟩
  · exact ⟨by simp [flag], fun _ _ => .inr (.inl hi), by simp [enable], fun _ _ => hi⟩
  · exact ⟨by simp [flag], fun _ _ => .inr (.inr hi), fun _ _ => hi, by simp [enable]⟩

/-- Settles O27, by the rows of the capture source and the cases of each compare source. -/
theorem sourceFlagsAndEnablesTable : Obligations.SourceFlagsAndEnablesTable := by
  intro i s t h
  obtain ⟨setFlag, clearFlag, setEnable, clearEnable⟩ := exec_capture_table h
  refine ⟨setFlag, clearFlag, setEnable, clearEnable, fun c => ?_⟩
  rcases exec_compare_cases h c with ⟨flag, enable⟩ | ⟨hi, flag, enable⟩ | ⟨hi, flag⟩ | ⟨hi, enabled, flag⟩ |
    ⟨hi, flag, enable⟩
  · simp +contextual [flag, enable]
  · simp +contextual [hi, flag, enable]
  · exact ⟨by simp [flag], fun _ _ => .inr (.inl hi), fun _ _ => hi, fun _ _ => .inr (.inl hi)⟩
  · exact ⟨by simp [flag], fun _ _ => .inl hi, by simp [enabled], fun _ _ => .inl hi⟩
  · exact ⟨by simp [flag], fun _ _ => .inr (.inr hi), by simp [enable], fun _ _ => .inr (.inr hi)⟩

/-! ### When a dispatch is enabled (60_exceptions.md R107, R108) -/

theorem pendingEnabled_iff (s : State) (src : Source) :
    pendingEnabled s src = true ↔ s.ifl.get src = true ∧ s.ie.get src = true := Bool.and_eq_true_iff

/-- Under FIXED a source is allowed when none before it is ready; under FREE each is (60_exceptions.md R108). -/
theorem allowedByOrder_iff (s : State) (src : Source) :
    allowedByOrder s src = true ↔ (s.params.irqOrder = .fixed →
      (src = .cmp .A → ¬ pendingEnabled s .capt = true) ∧
      (src = .cmp .B → ¬ pendingEnabled s .capt = true ∧ ¬ pendingEnabled s (.cmp .A) = true)) := by
  cases order : s.params.irqOrder with
  | free => simp [allowedByOrder, order]
  | fixed => rcases src with _ | _ | _ <;> simp [allowedByOrder, order]

/-- Settles O32: a dispatch answers by `dispatchEnabled`, which is the rule's condition. -/
theorem dispatchEnabledExactlyWhen : Obligations.DispatchEnabledExactlyWhen := by
  intro s src ready allowed
  have condition : dispatchEnabled s src = true ↔ s.rs = .running ∧ ready src ∧ allowed := by
    simp only [dispatchEnabled_iff, allowedByOrder_iff, pendingEnabled_iff, and_assoc, ready, allowed]
  rw [← condition, exec_dispatch, dispatch]
  exact ⟨fun enabled => ⟨_, if_pos enabled⟩, fun disabled => if_neg disabled⟩

/-- The place of a source in the order of R108: CAPT, CMP[A], CMP[B]. -/
def dispatchRank : Source → Nat
  | .capt => 0
  | .cmp .A => 1
  | .cmp .B => 2

theorem dispatchRank_injective : Function.Injective dispatchRank := by
  rintro (_ | _ | _) (_ | _ | _) <;> simp [dispatchRank]

theorem forall_source {q : Source → Prop} : (∀ x, q x) ↔ q .capt ∧ q (.cmp .A) ∧ q (.cmp .B) := by
  refine ⟨fun all => ⟨all _, all _, all _⟩, ?_⟩
  rintro ⟨capt, a, b⟩ (_ | _ | _)
  exacts [capt, a, b]

/-- The sources of a lower rank than `src`, listed. -/
theorem forall_dispatchRank_lt (src : Source) (p : Source → Prop) :
    (∀ x, dispatchRank x < dispatchRank src → p x) ↔
      (src = .cmp .A → p .capt) ∧ (src = .cmp .B → p .capt ∧ p (.cmp .A)) := by
  rw [forall_source]
  rcases src with _ | _ | _ <;> simp [dispatchRank]

/-- Under FIXED a source may be dispatched exactly when it is the first ready one. -/
theorem dispatchEnabled_fixed_iff {s : State} (fixed : s.params.irqOrder = .fixed) (src : Source) :
    dispatchEnabled s src = true ↔ s.rs = .running ∧ pendingEnabled s src = true ∧
      ∀ x, dispatchRank x < dispatchRank src → ¬ pendingEnabled s x = true := by
  simp only [dispatchEnabled_iff, allowedByOrder_iff, forall_dispatchRank_lt, pendingEnabled_iff, and_assoc, fixed,
    forall_const]

/-- Settles O33: the enabled source is the one of least rank among the ready ones. -/
theorem fixedOrderPicksOneSource : Obligations.FixedOrderPicksOneSource := by
  intro s fixed
  refine ⟨fun a b enabledA enabledB => ?_, fun ⟨a, enabled⟩ => ?_, fun ⟨running, a, ready⟩ => ?_⟩
  · obtain ⟨-, readyA, firstA⟩ := (dispatchEnabled_fixed_iff fixed a).1 enabledA
    obtain ⟨-, readyB, firstB⟩ := (dispatchEnabled_fixed_iff fixed b).1 enabledB
    exact dispatchRank_injective
      (le_antisymm (not_lt.1 fun lower => firstA b lower readyB) (not_lt.1 fun lower => firstB a lower readyA))
  · obtain ⟨running, ready, -⟩ := (dispatchEnabled_fixed_iff fixed a).1 enabled
    exact ⟨running, a, (pendingEnabled_iff s a).1 ready⟩
  · obtain ⟨first, readyFirst, least⟩ := (measure dispatchRank).wf.has_min {x | pendingEnabled s x = true}
      ⟨a, (pendingEnabled_iff s a).2 ready⟩
    exact ⟨first, (dispatchEnabled_fixed_iff fixed first).2
      ⟨running, readyFirst, fun x lower isReady => least x isReady lower⟩⟩

end Sys2Proof.Machine
end

section
/-! PROOF. The state after power-on reset: its values (70_reset_and_hazards.md R121), and the invariants it meets
(10_state.md section 9). -/

namespace Sys2Proof.Machine

@[simp] theorem SourceBits.bits_none : SourceBits.none.bits = 0#3 := rfl

@[simp] theorem chan_powerOn (p : Params) (c : Ch) : (State.powerOn p).chan c = Chan.reset := by
  cases c <;> rfl

/-- No drive is armed, so a pin shows its static level, which is low. -/
theorem pin_powerOn (p : Params) (c : Ch) : (State.powerOn p).pin c = false := by
  have unarmed : ((State.powerOn p).chan c).com = .none := by rw [chan_powerOn, Chan.reset]
  rw [State.pin, if_neg (not_not.2 unarmed), chan_powerOn, Chan.reset]

/-- Settles O58: both channels' records are the reset record, and `pin_powerOn` gives the pins. -/
theorem powerOnResetValues : Obligations.PowerOnResetValues := by
  intro p s
  refine ⟨rfl, rfl, rfl, rfl, rfl, rfl, rfl, rfl, rfl, rfl, rfl, SourceBits.bits_none, SourceBits.bits_none, fun c => ?_⟩
  rw [chan_powerOn]
  exact ⟨rfl, rfl, rfl, rfl, rfl, rfl, rfl, rfl, rfl, pin_powerOn p c⟩

theorem latched_powerOn (p : Params) : (State.powerOn p).Latched :=
  fun c => .of_quiescent (by rw [chan_powerOn, Chan.reset])

/-- Settles O42: a channel at rest awaits no compare, so nothing is asked of its latch and its fall target. -/
theorem powerOnMeetsTheInvariants : Obligations.PowerOnMeetsTheInvariants :=
  fun p => ⟨inv_powerOn p, fun c => (latched_iff _ c).1 (latched_powerOn p c)⟩

end Sys2Proof.Machine
end

section
/-! PROOF. The words written out in 30_encoding.md section 8. -/

namespace Sys2Proof.Machine

/-- The encoder's word for an instruction decodes to it (30_encoding.md R49, R50). -/
theorem decodeCommand_of_encode {w : CmdWord} {i : Instr} (word : encode i = .cmd w) : decodeCommand w = .ok i :=
  (decodeInput_eq_ok_iff (.cmd w) i).2 word

/-- A word that passes the decoder's first two checks and not the third (30_encoding.md R50). -/
theorem decodeCommand_unusedFieldNonzero {w : CmdWord} (assigned : opcOf w ∈ [0x01#8, 0x02#8, 0x10#8, 0x11#8, 0x12#8])
    (reserved : rsvOf w = 0) (unused : unusedFieldsZero w = false) : decodeCommand w = .error .unusedFieldNonzero := by
  rw [decodeCommand, if_neg (not_not.2 assigned), if_neg (not_not.2 reserved), if_pos unused]

/-- Settles O4: the eight legal words are the encoder's, and the ninth is a `GETB` with a nonzero F32A. -/
theorem exampleWordsDecode : Obligations.ExampleWordsDecode := by
  refine ⟨?_, ?_, ?_, ?_, ?_, ?_, ?_, ?_, ?illegal⟩
  case illegal => exact decodeCommand_unusedFieldNonzero (by decide) (by decide) (by decide)
  all_goals exact decodeCommand_of_encode (by decide)

end Sys2Proof.Machine
end
